-- ==== Sys2Proof/Word.lean ====
section
/-! DEFINITION. Words. The source fixes no width (00 R6) and "all quantities are unsigned naturals except Decode Table
entries, which are signed integers" (00 R8), so a word of any width (a `W`-bit buffer word, a `PW`-bit path word, an
`XW`-bit operand or result, an `AW`-bit address) is the natural number it stands for, and its width is a bound that the
launch premise and the invariant state, never a type. Bit `i` of a word `v` (`v[i]` of 00 R8) is `Nat.testBit v i`, bit 0
the least significant; `a << k` is `a * 2^k` and `a >> 1` is `a / 2`. -/

namespace Sys2Proof

/-- `ceil(log2 n)`, in which 00 R6 and 10 R20 give widths. -/
def clog2 (n : Nat) : Nat := if n ≤ 1 then 0 else Nat.log2 (n - 1) + 1

end Sys2Proof
end

