-- ==== Sys2Proof/Config.lean ====
section
/-! DEFINITION. What an implementation and a launch fix: the widths of 00 R6 and the Huffman Model of 40 R110. Both are
"parameters of the step function, not state" (10 R32). They are plain records that State carries and no command
changes, so that a statement about every state is a statement about every configuration and every Model.
The spec has no free value ("no command result depends on a draw, a schedule or an oracle", 00 R15). -/

namespace Sys2Proof

/-- HOST_BYTE_ORDER of 00 R6: how a host serialises a word when it persists the buffer; the block never sees it (20 R53).
DESIGN CHOICE (log entry 24, unsafe): the spec leaves the parameter open (20 R53, 92 D27) and does not list its values;
the model has these two, and no host that lays the bytes out in any other order. -/
inductive ByteOrder where
  | leastFirst
  | mostFirst
  deriving DecidableEq, Repr

/-- The configuration record `Cfg` of 00 R6. The alphabet size `N` stands in the Model (40 R110) and `EXTENT` is the
set of addresses the buffer lists (20 R57). -/
structure Cfg where
  /-- `W`: bits in one buffer word. -/
  w : Nat
  /-- `TW`: bits in the raw-number type `T`. -/
  tw : Nat
  /-- `PW`: bits in a path word. -/
  pw : Nat
  /-- `DW`: bits in a Decode Table entry. -/
  dw : Nat
  /-- `AW`: bits in a word address. -/
  aw : Nat
  /-- `XW`: bits in the data operand `dat` and in the result `res`. -/
  xw : Nat
  /-- `HOST_BYTE_ORDER`. -/
  hostByteOrder : ByteOrder
  deriving DecidableEq, Repr

/-- A Model (40 R110): the alphabet size, the Decode Table as `DW`-bit two's complement patterns (20 R65, 40 R111)
and the Encode Table as unsigned path words (40 R112). -/
structure Model where
  /-- `N`. -/
  n : Nat
  /-- DTAB, entry `i` at position `i`, each a `DW`-bit pattern. -/
  dtab : List Nat
  /-- ETAB, the path word of symbol `s` at position `s`. -/
  etab : List Nat
  deriving DecidableEq, Repr

/-- DESIGN CHOICE (log entry 2, unsafe): the widths State.reset carries, the defaults that 92 D2 recommends, which are
CFG-B of 00 R6; the byte order, for which CFG-B gives no value, is the model's as well. Statements about every state do
not rest on them. -/
def Cfg.initial : Cfg := ⟨32, 32, 32, 16, 32, 64, .leastFirst⟩

/-- DESIGN CHOICE (log entry 2, unsafe): the Model State.reset carries, M4, the source's one worked example
(40 R125), as `DW` = 16 patterns. Statements about every state do not rest on it. -/
def Model.initial : Model :=
  ⟨4, [6, 2, 0xFFFF, 2, 0xFFFE, 0xFFFD, 0], [3, 4, 10, 14]⟩

end Sys2Proof
end

