-- ==== Sys2Proof/Syntax.lean ====
section
/-! DEFINITION. The 18 commands of the opcode map (30 R84), one constructor per row of spec/opcode_table.json, with
their operands as 30 R88 assembles them: nothing is sign-extended, scaled or shifted. -/

namespace Sys2Proof

/-- The cursor select `c = hdr[5]` (30 R81): `C[0]` or `C[1]`. -/
inductive Cur where
  | c0
  | c1
  deriving DecidableEq, Repr

/-- A command with its operands (30 R84, R88, R90). -/
inductive Instr where
  /-- 0x01 `CSET c, ptr`: create a fresh cursor (43 R182). -/
  | cset (c : Cur) (ptr : Nat)
  /-- 0x02 `RDBIT c` (43 R183). -/
  | rdbit (c : Cur)
  /-- 0x03 `WRBIT c, bit` (43 R184). -/
  | wrbit (c : Cur) (bit : Bool)
  /-- 0x04 `RDRAW c, n` (43 R185). -/
  | rdraw (c : Cur) (n : Nat)
  /-- 0x05 `WRRAW c, value, n` (43 R186). -/
  | wrraw (c : Cur) (value : Nat) (n : Nat)
  /-- 0x06 `ELSZ c, start` (43 R191). -/
  | elsz (c : Cur) (start : Nat)
  /-- 0x07 `BTSZ c, start` (43 R192). -/
  | btsz (c : Cur) (start : Nat)
  /-- 0x08 `DRST` (41 R140). -/
  | drst
  /-- 0x09 `DNEED` (41 R141). -/
  | dneed
  /-- 0x0A `DBIT bit` (41 R142). -/
  | dbit (bit : Bool)
  /-- 0x0B `DRES` (41 R143). -/
  | dres
  /-- 0x0C `ELD symbol` (42 R160). -/
  | eld (symbol : Nat)
  /-- 0x0D `EHAS` (42 R161). -/
  | ehas
  /-- 0x0E `EGET` (42 R162). -/
  | eget
  /-- 0x0F `ENXT` (42 R163). -/
  | enxt
  /-- 0x10 `RDHUF c` (43 R187). -/
  | rdhuf (c : Cur)
  /-- 0x11 `WRHUF c, symbol` (43 R188). -/
  | wrhuf (c : Cur) (symbol : Nat)
  /-- 0x12 `GETST` (44 R220). -/
  | getst
  deriving DecidableEq, Repr

end Sys2Proof
end

