-- ==== Sys2Proof/WellFormed.lean ====
section
/-! DEFINITION. Which commands a command word can carry: every operand fits the field that 30 R81 and R82 give it.
A symbol of `N` or more and a count above `TW` are well-formed: they are operand faults of the command, not illegal
encodings (30 R82, R88). -/

namespace Sys2Proof

/-- Every operand fits its field of the command word (30 R81, R82). -/
def Instr.wf (cfg : Cfg) : Instr → Bool
  | .cset _ ptr => ptr < 2 ^ cfg.aw
  | .rdbit _ => true
  | .wrbit _ _ => true
  | .rdraw _ n => n < 256
  | .wrraw _ value n => value < 2 ^ cfg.tw && n < 256
  | .elsz _ start => start < 2 ^ cfg.aw
  | .btsz _ start => start < 2 ^ cfg.aw
  | .drst => true
  | .dneed => true
  | .dbit _ => true
  | .dres => true
  | .eld symbol => symbol < 2 ^ cfg.xw
  | .ehas => true
  | .eget => true
  | .enxt => true
  | .rdhuf _ => true
  | .wrhuf _ symbol => symbol < 2 ^ cfg.xw
  | .getst => true

end Sys2Proof
end

