-- ==== Sys2Proof/Decode.lean ====
section
/-! DEFINITION. The command decoder (30 R80 to R92), total on every word, and after it the encoder. A command word is
`{dat, hdr}`: the header in bits 15:0, the data operand in bits 16+XW-1:16 (30 R80). -/

namespace Sys2Proof

/-- Why a word selects no command (30 R85, R86; 60 R233). All five give the same fault, so their order is not
observable (30 R92). -/
inductive Illegal where
  /-- `opc` is 0x00 or 0x13 to 0x1F (30 R85). -/
  | reservedOpcode
  /-- the field `rsv` is not 0 (30 R86). -/
  | rsvNotZero
  /-- `c` is 1 where the command uses no cursor (30 R86). -/
  | cursorNotZero
  /-- `cnt` is not 0 where the command uses no count (30 R86). -/
  | countNotZero
  /-- `dat` has a 1 in a bit that must be 0 (30 R82, R86). -/
  | datNotZero
  deriving DecidableEq, Repr

/-- `hdr = cmd[15:0]` (30 R80). -/
def hdrOf (cmd : Nat) : Nat := cmd % 2 ^ 16

/-- `dat = cmd[16+XW-1 : 16]` (30 R80). -/
def datOf (cfg : Cfg) (cmd : Nat) : Nat := cmd / 2 ^ 16 % 2 ^ cfg.xw

/-- `opc = hdr[4:0]` (30 R81). -/
def opcOf (hdr : Nat) : Nat := hdr % 32

/-- `c = hdr[5]` (30 R81, R88). -/
def curOf (hdr : Nat) : Cur := if hdr / 32 % 2 = 0 then .c0 else .c1

/-- `rsv = hdr[7:6]` (30 R81). -/
def rsvOf (hdr : Nat) : Nat := hdr / 64 % 4

/-- `cnt = hdr[15:8]` (30 R81). -/
def cntOf (hdr : Nat) : Nat := hdr / 256 % 256

/-- The command uses no cursor, so `c` must be 0 (30 R81, R86). -/
def noCursor (hdr : Nat) (r : Except Illegal Instr) : Except Illegal Instr :=
  if curOf hdr = .c0 then r else .error .cursorNotZero

/-- The command uses no count, so `cnt` must be 0 (30 R81, R86). -/
def noCount (hdr : Nat) (r : Except Illegal Instr) : Except Illegal Instr :=
  if cntOf hdr = 0 then r else .error .countNotZero

/-- Only the `k` low bits of `dat` are used; the others must be 0 (30 R82, R86). -/
def datUses (k dat : Nat) (r : Except Illegal Instr) : Except Illegal Instr :=
  if dat < 2 ^ k then r else .error .datNotZero

/-- The decoder on the two fields of a command (30 R84): exactly one command, or illegal (30 R92). -/
def decodeFields (cfg : Cfg) (hdr dat : Nat) : Except Illegal Instr :=
  if rsvOf hdr ≠ 0 then .error .rsvNotZero else
  match opcOf hdr with
  | 0x01 => noCount hdr (datUses cfg.aw dat (.ok (.cset (curOf hdr) dat)))
  | 0x02 => noCount hdr (datUses 0 dat (.ok (.rdbit (curOf hdr))))
  | 0x03 => noCount hdr (datUses 1 dat (.ok (.wrbit (curOf hdr) (dat.testBit 0))))
  | 0x04 => datUses 0 dat (.ok (.rdraw (curOf hdr) (cntOf hdr)))
  | 0x05 => datUses cfg.tw dat (.ok (.wrraw (curOf hdr) dat (cntOf hdr)))
  | 0x06 => noCount hdr (datUses cfg.aw dat (.ok (.elsz (curOf hdr) dat)))
  | 0x07 => noCount hdr (datUses cfg.aw dat (.ok (.btsz (curOf hdr) dat)))
  | 0x08 => noCursor hdr (noCount hdr (datUses 0 dat (.ok .drst)))
  | 0x09 => noCursor hdr (noCount hdr (datUses 0 dat (.ok .dneed)))
  | 0x0A => noCursor hdr (noCount hdr (datUses 1 dat (.ok (.dbit (dat.testBit 0)))))
  | 0x0B => noCursor hdr (noCount hdr (datUses 0 dat (.ok .dres)))
  | 0x0C => noCursor hdr (noCount hdr (.ok (.eld dat)))
  | 0x0D => noCursor hdr (noCount hdr (datUses 0 dat (.ok .ehas)))
  | 0x0E => noCursor hdr (noCount hdr (datUses 0 dat (.ok .eget)))
  | 0x0F => noCursor hdr (noCount hdr (datUses 0 dat (.ok .enxt)))
  | 0x10 => noCount hdr (datUses 0 dat (.ok (.rdhuf (curOf hdr))))
  | 0x11 => noCount hdr (.ok (.wrhuf (curOf hdr) dat))
  | 0x12 => noCursor hdr (noCount hdr (datUses 0 dat (.ok .getst)))
  | _ => .error .reservedOpcode

/-- The decoder of 30 R92 on a whole command word. Bits above the `16 + XW` of a command do not exist at the command
interface; the slices of 30 R80 do not see them (log entry 12). -/
def decode (cfg : Cfg) (cmd : Nat) : Except Illegal Instr :=
  decodeFields cfg (hdrOf cmd) (datOf cfg cmd)

/-- The opcode column of the opcode map (30 R84). -/
def Instr.opc : Instr → Nat
  | .cset _ _ => 0x01
  | .rdbit _ => 0x02
  | .wrbit _ _ => 0x03
  | .rdraw _ _ => 0x04
  | .wrraw _ _ _ => 0x05
  | .elsz _ _ => 0x06
  | .btsz _ _ => 0x07
  | .drst => 0x08
  | .dneed => 0x09
  | .dbit _ => 0x0A
  | .dres => 0x0B
  | .eld _ => 0x0C
  | .ehas => 0x0D
  | .eget => 0x0E
  | .enxt => 0x0F
  | .rdhuf _ => 0x10
  | .wrhuf _ _ => 0x11
  | .getst => 0x12

/-- The cursor a command names, where it uses one (30 R84, column "uses c"). -/
def Instr.cursor? : Instr → Option Cur
  | .cset c _ => some c
  | .rdbit c => some c
  | .wrbit c _ => some c
  | .rdraw c _ => some c
  | .wrraw c _ _ => some c
  | .elsz c _ => some c
  | .btsz c _ => some c
  | .drst => none
  | .dneed => none
  | .dbit _ => none
  | .dres => none
  | .eld _ => none
  | .ehas => none
  | .eget => none
  | .enxt => none
  | .rdhuf c => some c
  | .wrhuf c _ => some c
  | .getst => none

/-- The count a command carries in `cnt`; 0 where it uses none (30 R81, R84). -/
def Instr.count : Instr → Nat
  | .cset _ _ => 0
  | .rdbit _ => 0
  | .wrbit _ _ => 0
  | .rdraw _ n => n
  | .wrraw _ _ n => n
  | .elsz _ _ => 0
  | .btsz _ _ => 0
  | .drst => 0
  | .dneed => 0
  | .dbit _ => 0
  | .dres => 0
  | .eld _ => 0
  | .ehas => 0
  | .eget => 0
  | .enxt => 0
  | .rdhuf _ => 0
  | .wrhuf _ _ => 0
  | .getst => 0

/-- What `dat` holds for a command; 0 where it holds nothing (30 R82). -/
def Instr.dat : Instr → Nat
  | .cset _ ptr => ptr
  | .rdbit _ => 0
  | .wrbit _ bit => bit.toNat
  | .rdraw _ _ => 0
  | .wrraw _ value _ => value
  | .elsz _ start => start
  | .btsz _ start => start
  | .drst => 0
  | .dneed => 0
  | .dbit bit => bit.toNat
  | .dres => 0
  | .eld symbol => symbol
  | .ehas => 0
  | .eget => 0
  | .enxt => 0
  | .rdhuf _ => 0
  | .wrhuf _ symbol => symbol
  | .getst => 0

/-- The value of the header bit `c` (30 R81). -/
def cursorBit : Option Cur → Nat
  | some .c1 => 1
  | some .c0 => 0
  | none => 0

/-- `hdr = (n << 8) | (c << 5) | opc` (30 R90). -/
def Instr.hdr (i : Instr) : Nat := i.count * 256 + cursorBit i.cursor? * 32 + i.opc

/-- The command word `{dat, hdr}` of a command (30 R80). -/
def encode (i : Instr) : Nat := i.dat * 2 ^ 16 + i.hdr

/-- The instruction the decoder reads from the `nbits` low bits of `w`, every higher bit 0. The opcode table gives
the 16 bits of the header, so `dat` is 0 and every configuration decodes the same command. -/
def decodeTableWord (nbits w : Nat) : Option Instr :=
  match decode Cfg.initial (w % 2 ^ nbits) with
  | .ok i => some i
  | .error _ => none

end Sys2Proof
end

