-- ==== Sys2Proof/Machine/Bits.lean ====
section
/-! DEFINITION. Bit-field helpers: the value of a bit sequence, sign extension of a table pattern,
and the host's byte image of a word. -/

namespace Sys2Proof

/-- The value of a bit sequence, first bit least significant (20 R52, 40 R112: the sum of `b[i] * 2^i`). -/
def bitsValue : List Bool → Nat
  | [] => 0
  | b :: bs => b.toNat + 2 * bitsValue bs

/-- The path word of a code: its bits least significant first under the sentinel 1 (40 R112). -/
def pathWord (code : List Bool) : Nat := 2 ^ code.length + bitsValue code

/-- `sext_DW`: the signed value of a `dw`-bit two's complement pattern (00 R8, 20 R65). -/
def sext (dw : Nat) (pattern : Nat) : Int :=
  if pattern < 2 ^ (dw - 1) then (pattern : Int) else (pattern : Int) - 2 ^ dw

/-- The `dw`-bit two's complement pattern of a signed entry (40 R111). -/
def toPattern (dw : Nat) (e : Int) : Nat := (e % 2 ^ dw).toNat

/-- The `k` bytes of a word, least significant byte first. -/
def bytesLeastFirst : Nat → Nat → List Nat
  | 0, _ => []
  | k + 1, v => v % 256 :: bytesLeastFirst k (v / 256)

/-- Host side only: the bytes a host writes for one `W`-bit word under HOST_BYTE_ORDER (20 R53). The spec speaks of it
only for `W` a multiple of 8; for another `W` the image is not stated and there is none (log entry 21). Two byte
orders only: DESIGN CHOICE (log entry 24). -/
def byteImage (cfg : Cfg) (v : Nat) : Option (List Nat) :=
  if cfg.w % 8 = 0 then
    match cfg.hostByteOrder with
    | .leastFirst => some (bytesLeastFirst (cfg.w / 8) v)
    | .mostFirst => some (bytesLeastFirst (cfg.w / 8) v).reverse
  else none

end Sys2Proof
end

