-- ==== Sys2Proof/Machine/Launch.lean ====
section
/-! DEFINITION. The launch premise: the width constraints of 00 R6 and the well-formedness `WF(Model)` of 40 R114, with
the tree a Decode Table denotes (40 R113). The hardware checks neither; a model refuses a launch without them. -/

namespace Sys2Proof

/-- The constraints that 00 R6 puts on the parameters, for a Model of `n` symbols. -/
def Cfg.ok (cfg : Cfg) (n : Nat) : Bool :=
  decide (1 ≤ cfg.w ∧ 1 ≤ cfg.tw ∧ cfg.tw ≤ 255 ∧ 1 ≤ cfg.pw ∧
    1 ≤ cfg.dw ∧ 2 * n - 2 ≤ 2 ^ (cfg.dw - 1) - 1 ∧ 1 ≤ cfg.aw ∧
    cfg.tw ≤ cfg.xw ∧ cfg.aw + clog2 cfg.w + 1 ≤ cfg.xw ∧ clog2 n ≤ cfg.xw ∧ 9 ≤ cfg.xw ∧
    1 ≤ n ∧ n ≤ 2 ^ cfg.xw)

/-- `DTAB` as signed integers: entry `i` is `sext_DW` of its pattern (20 R65). -/
def Model.entries (cfg : Cfg) (m : Model) : List Int := m.dtab.map (sext cfg.dw)

/-- `end(p)` of 40 R113: one past the last position of the subtree rooted at `p`, where it is defined. The fuel is the
number of positions; a walk down a finite table never needs more. -/
def endOf (d : List Int) : (fuel p : Nat) → Option Nat
  | 0, _ => none
  | fuel + 1, p =>
    match d[p]? with
    | none => none
    | some e =>
      if e ≤ 0 then some (p + 1) else
        match endOf d fuel (p + 1) with
        | none => none
        | some q => if q = p + e.toNat then endOf d fuel q else none

/-- The code that the subtree rooted at `p` gives the leaf of symbol `s` (40 R113): the bits chosen on the walk from
`p` to that leaf, 0 for the step to `p + 1`, 1 for the step to `p + DTAB[p]`. -/
def codeFrom (d : List Int) (s : Nat) : (fuel p : Nat) → Option (List Bool)
  | 0, _ => none
  | fuel + 1, p =>
    match d[p]? with
    | none => none
    | some e =>
      if e ≤ 0 then (if e = -(s : Int) then some [] else none) else
        match codeFrom d s fuel (p + 1) with
        | some code => some (false :: code)
        | none => (codeFrom d s fuel (p + e.toNat)).map (true :: ·)

/-- The code the Decode Table gives symbol `s`, read from the root (40 R113, R114). -/
def Model.code (cfg : Cfg) (m : Model) (s : Nat) : Option (List Bool) :=
  codeFrom (m.entries cfg) s m.dtab.length 0

/-- WF4 and the length bound of WF5 for one symbol: `ETAB[s]` is the path word of the code of `s`, and the code has at
most `PW - 1` bits (40 R114, R116). -/
def Model.symbolOk (cfg : Cfg) (m : Model) (s : Nat) : Bool :=
  match m.code cfg s with
  | none => false
  | some code => decide (m.etab[s]? = some (pathWord code) ∧ code.length + 1 ≤ cfg.pw)

/-- `WF(Model)` (40 R114), clause by clause WF1 to WF5. -/
def Model.wf (cfg : Cfg) (m : Model) : Bool :=
  decide (1 ≤ m.n ∧ m.dtab.length = 2 * m.n - 1 ∧ m.etab.length = m.n ∧
    endOf (m.entries cfg) m.dtab.length 0 = some (2 * m.n - 1) ∧
    (∀ e ∈ m.entries cfg, 0 < e ∨ -e < (m.n : Int)) ∧
    (∀ s ∈ List.range m.n, (m.entries cfg).count (-(s : Int)) = 1) ∧
    (∀ s ∈ List.range m.n, m.symbolOk cfg s = true) ∧
    (∀ p ∈ m.dtab, p < 2 ^ cfg.dw))

/-- The launch premise: the constraints of 00 R6 hold and the Model is well-formed (40 R114, 60 R230 (3)). -/
def launchOk (cfg : Cfg) (m : Model) : Bool := cfg.ok m.n && m.wf cfg

end Sys2Proof
end

