-- ==== Sys2Proof/Machine/State.lean ====
section
/-! DEFINITION. The state of one HBC instance (10 R20), the memories it reaches (20 R50), the launch parameters it
carries (10 R32), the host moves still to be performed and the last response; why a step stops; the state right after
reset (10 R34). -/

namespace Sys2Proof.Machine

/-- One word of BUF: its word address and the word it holds (20 R51). BUF has no bytes (20 R53), so a cell is a word
and not a `Host.Cell` (log entry 4). -/
abbrev Cell := Nat × Nat

/-- One cursor register set (10 R20 to R23): the word pointer `WP`, the in-word bit offset `BO` in `0 .. W`, where `W`
means that the current word is exhausted, and the valid bit `V`. -/
structure Cursor where
  wp : Nat
  bo : Nat
  v : Bool
  deriving DecidableEq, Repr

/-- The cause codes that are ever produced (60 R232); codes 8 to 15 are not. -/
inductive Cause where
  /-- 0: no fault. -/
  | none
  /-- 1: reserved opcode, or a must-be-zero field is not 0 (60 R233). -/
  | illegalCmd
  /-- 2: a cursor command other than CSET on a cursor with `V = 0` (60 R234). -/
  | cursorInvalid
  /-- 3: `cnt > TW` (60 R235). -/
  | rawWidth
  /-- 4: `symbol >= N` (60 R236). -/
  | symbolRange
  /-- 5: `start > C[c].WP` (60 R237). -/
  | startRange
  /-- 6: DBIT at a leaf, or DRES at an internal node (60 R238). -/
  | decProtocol
  /-- 7: EGET or ENXT with `PATH = 1` (60 R239). -/
  | encProtocol
  deriving DecidableEq, Repr

/-- A response `{res, flt}` (30 R83). -/
structure Response where
  flt : Bool
  res : Nat
  deriving DecidableEq, Repr

/-- What the host may do between commands (00 R14): the inputs of the machine (log entries 6 and 7). -/
inductive HostMove where
  /-- Issue one command word of `16 + XW` bits (30 R80). -/
  | command (word : Nat)
  /-- Store `value` at word address `addr` of BUF, allocating the word if EXTENT does not hold it yet (20 R62, 70 R272,
  70 R280). -/
  | write (addr value : Nat)
  /-- Assert and release reset (44 R221), with the tables rewritten meanwhile if a Model is given (40 R123). -/
  | rst (load : Option Model)
  deriving DecidableEq, Repr

/-- The state. `cfg` and `model` are launch parameters that no command changes (10 R32); `inbox` and `resp` are the
model's own fields (log entries 6 and 8); the others are the state of 10 R20 and the buffer of 20 R50. -/
structure State where
  /-- The widths of 00 R6. -/
  cfg : Cfg
  /-- `N`, DTAB and ETAB (40 R110). -/
  model : Model
  /-- `C[0]` (10 R20). -/
  c0 : Cursor
  /-- `C[1]` (10 R20). -/
  c1 : Cursor
  /-- `IDX` (10 R24). -/
  idx : Nat
  /-- `PATH` (10 R25). -/
  path : Nat
  /-- `FLT` (10 R26). -/
  flt : Bool
  /-- `CAUSE` (10 R26). -/
  cause : Cause
  /-- BUF: the allocated words, addresses strictly rising; `EXTENT` is the set of addresses listed (20 R57). -/
  buf : List Cell
  /-- The host moves not yet performed, first move first (00 R14). -/
  inbox : List HostMove
  /-- The last response delivered; none when no command has been answered since reset (30 R83). -/
  resp : Option Response
  deriving DecidableEq, Repr

/-- Why the machine stops with a fault. -/
inductive Fault where
  /-- UB_EXTENT (20 R57, 60 R245): a bit access addressed a word outside EXTENT, which is undefined by the source.
  Raised by `memRead` and `memWrite`, so by RDBIT, WRBIT, RDRAW, WRRAW, RDHUF and WRHUF. Safe: the hardware goes on, the
  model asserts nothing about what it then does. -/
  | ubExtent
  deriving DecidableEq, Repr

/-- Why a step has no meaning. -/
inductive Refusal where
  /-- An instruction without a meaning in this model: no arm of `exec` raises it. Safe. -/
  | notModelled (mnemonic : String)
  /-- A constraint of 00 R6 fails or the Model is not well-formed (40 R114, 60 R230 (3)). Raised by `nextMove` and by
  `launch`. Safe: the spec gives such a run no meaning. -/
  | refusedLaunch
  /-- A table read outside its table, or a WRHUF loop that does not end (93 U5): possible only with an ill-formed Model
  or an `IDX` outside the table, never in a state that meets the invariant. Raised by `dtabAt`, `etabAt`, `walk` and
  `emit`. Safe. -/
  | illFormedModel
  /-- A host store of an address of more than `AW` bits or a value of more than `W` bits, which BUF cannot hold. Raised by
  `hostWrite`. Safe: it is no move a host has. -/
  | noSuchMove
  deriving DecidableEq, Repr

/-- The result of a computation inside a step. -/
abbrev Res (α : Type) := Host.Outcome α Fault Refusal

/-- A cursor right after reset (10 R34): invalid. DESIGN CHOICE (log entry 3, unsafe): `WP` and `BO` are 0, where the
spec leaves them unspecified and unobservable. -/
def Cursor.reset : Cursor := ⟨0, 0, false⟩

/-- The machine right after reset (10 R34, 70 R270): idle, no fault, no cursor, the Reader at the root, the Writer
empty. The launch parameters are those of log entry 2, and BUF lists no word (log entry 5). -/
def State.reset : State where
  cfg := Cfg.initial
  model := Model.initial
  c0 := Cursor.reset
  c1 := Cursor.reset
  idx := 0
  path := 1
  flt := false
  cause := .none
  buf := []
  inbox := []
  resp := none

end Sys2Proof.Machine
end

