-- ==== Sys2Proof/Machine/Ops.lean ====
section
/-! DEFINITION. The named operations: sequencing of results, the buffer memory, the cursor registers, the tables,
responses, contract faults and the refusal in the fault state, reset, and the two bit primitives of 43. -/

namespace Sys2Proof.Machine

/-- Sequencing: go on from a result, or stop where it stopped. -/
def andThen {α β : Type} (r : Res α) (f : α → Res β) : Res β :=
  match r with
  | .next a => f a
  | .fault e => .fault e
  | .refused e => .refused e

/-! ### BUF (20 R50 to R60) -/

/-- The word that BUF holds at an address; none where the address is not in EXTENT. This is the one definition of what
an unlisted address reads as: no value (20 R57, 92 D11). -/
def bufRead : List Cell → Nat → Option Nat
  | [], _ => none
  | (b, v) :: rest, a => if a = b then some v else bufRead rest a

/-- BUF with `v` at address `a`, addresses kept strictly rising. -/
def bufPut : List Cell → Nat → Nat → List Cell
  | [], a, v => [(a, v)]
  | (b, u) :: rest, a, v =>
    if a < b then (a, v) :: (b, u) :: rest
    else if a = b then (b, v) :: rest
    else (b, u) :: bufPut rest a v

/-- `EXTENT`: the set of word addresses the host has allocated (20 R57), as the rising list of them. -/
def extent (buf : List Cell) : List Nat := buf.map Prod.fst

/-- The canonical form of BUF: addresses strictly rising. An unlisted address has no value, so no entry can equal
what an unlisted address reads as. -/
def bufRising : List Cell → Bool
  | [] => true
  | [_] => true
  | (a, _) :: (b, v) :: rest => decide (a < b) && bufRising ((b, v) :: rest)

/-- `Memory.wf`: the canonical form, every address of `AW` bits and every word of `W` bits (20 R50). -/
def Memory.wf (cfg : Cfg) (buf : List Cell) : Bool :=
  bufRising buf && buf.all (fun c => decide (c.1 < 2 ^ cfg.aw) && decide (c.2 < 2 ^ cfg.w))

/-- `MemRead(a, 1)` (00 R10): the word at `a`, or UB_EXTENT (20 R57, 60 R245). -/
def memRead (buf : List Cell) (a : Nat) : Res Nat :=
  match bufRead buf a with
  | some v => .next v
  | none => .fault .ubExtent

/-- `MemWrite(a, 1, v)` (00 R10): store the word at `a`, or UB_EXTENT (20 R57, 60 R245). -/
def memWrite (buf : List Cell) (a : Nat) (v : Nat) : Res (List Cell) :=
  match bufRead buf a with
  | some _ => .next (bufPut buf a v)
  | none => .fault .ubExtent

/-! ### The cursor registers (10 R20 to R23) -/

/-- `C[c]`. -/
def State.cur (s : State) : Cur → Cursor
  | .c0 => s.c0
  | .c1 => s.c1

/-- `C[c] <- k`; the other cursor is never touched (10 R29). -/
def State.setCur (s : State) (c : Cur) (k : Cursor) : State :=
  match c with
  | .c0 => { s with c0 := k }
  | .c1 => { s with c1 := k }

/-- The bit position of a cursor relative to word address 0 (10 R21). -/
def Cursor.pos (cfg : Cfg) (k : Cursor) : Nat := k.wp * cfg.w + k.bo

/-! ### The tables (20 R65, R66) -/

/-- `DTAB[i]`, the signed value of an entry (00 R9). An index outside the table is never formed under `WF(Model)`. -/
def dtabAt (s : State) (i : Nat) : Res Int :=
  match s.model.dtab[i]? with
  | some p => .next (sext s.cfg.dw p)
  | none => .refused .illFormedModel

/-- `ETAB[i]`, the unsigned path word of symbol `i` (00 R9). -/
def etabAt (s : State) (i : Nat) : Res Nat :=
  match s.model.etab[i]? with
  | some p => .next p
  | none => .refused .illFormedModel

/-! ### Responses, contract faults, the fault state, reset -/

/-- `respond(v)` of a command that raised no fault (00 R11, 30 R83): the response is `(flt = 0, res = v)`. -/
def respond (v : Nat) (s : State) : Res State := .next { s with resp := some ⟨false, v⟩ }

/-- Fault entry, `raise Fault(X)` (60 R231): `FLT <- 1`, `CAUSE <- X`, the response is `(flt = 1, res = 0)` and nothing
else changes. Nothing is saved and control goes nowhere: there is no handler. -/
def raise (x : Cause) (s : State) : Res State :=
  .next { s with flt := true, cause := x, resp := some ⟨true, 0⟩ }

/-- A command refused in the fault state (60 R242): it changes no state and responds `(flt = 1, res = 0)`. -/
def refuseCommand (s : State) : Res State := .next { s with resp := some ⟨true, 0⟩ }

/-- The first check of every command but GETST (60 R241, R242): in the fault state the command is refused. -/
def whenClear (s : State) (r : Res State) : Res State :=
  if s.flt then refuseCommand s else r

/-- The check of every cursor command but CSET (10 R23, 60 R234), made first of a command's own checks (60 R241). -/
def whenValid (c : Cur) (s : State) (r : Res State) : Res State :=
  if (s.cur c).v then r else raise .cursorInvalid s

/-- What a command word that selects no command does (60 R233, R241, R242). -/
def illegalCommand (s : State) : Res State := whenClear s (raise .illegalCmd s)

/-- Reset (70 R270, 10 R34), the only return from the fault state (60 R243): the launch of a Model under reset, BUF not
changed. A Model that is not well-formed is a refused launch (40 R114). -/
def launch (m : Model) (s : State) : Res State :=
  if launchOk s.cfg m then
    .next { s with
      model := m, c0 := Cursor.reset, c1 := Cursor.reset, idx := 0, path := 1,
      flt := false, cause := .none, resp := none }
  else .refused .refusedLaunch

/-! ### The bit primitives (43 R180, R181) -/

/-- The lazy advance (43 R180, 20 R59): at `BO = W` the next word, modulo `2^AW`, and offset 0. -/
def advance (cfg : Cfg) (k : Cursor) : Cursor :=
  if k.bo = cfg.w then { k with wp := (k.wp + 1) % 2 ^ cfg.aw, bo := 0 } else k

/-- `read_bit(c)` (43 R180): the bit and the cursor after it. -/
def readBit (cfg : Cfg) (buf : List Cell) (k : Cursor) : Res (Bool × Cursor) :=
  andThen (memRead buf (advance cfg k).wp) fun w =>
    .next (w.testBit (advance cfg k).bo, { advance cfg k with bo := (advance cfg k).bo + 1 })

/-- `write_bit(c, b)` (43 R181): the word is read, ORed and written back, also for `b = 0`. -/
def writeBit (cfg : Cfg) (b : Bool) (buf : List Cell) (k : Cursor) : Res (List Cell × Cursor) :=
  andThen (memRead buf (advance cfg k).wp) fun w =>
    andThen (memWrite buf (advance cfg k).wp (w ||| b.toNat <<< (advance cfg k).bo)) fun buf' =>
      .next (buf', { advance cfg k with bo := (advance cfg k).bo + 1 })

end Sys2Proof.Machine
end

