-- ==== Sys2Proof/Machine/Operands.lean ====
section
/-! DEFINITION. The operand checks that commands share (60 R241, item 4) and the bit loops that move an operand through
a cursor: raw numbers (43 R185, R186) and Huffman symbols (43 R187, R188). -/

namespace Sys2Proof.Machine

/-- `if n > TW then raise Fault(RAW_WIDTH)` (60 R235). -/
def whenRawWidth (n : Nat) (s : State) (r : Res State) : Res State :=
  if s.cfg.tw < n then raise .rawWidth s else r

/-- `if symbol >= N then raise Fault(SYMBOL_RANGE)` (60 R236). -/
def whenSymbol (symbol : Nat) (s : State) (r : Res State) : Res State :=
  if s.model.n ≤ symbol then raise .symbolRange s else r

/-- `if start > C[c].WP then raise Fault(START_RANGE)` (60 R237). -/
def whenStart (c : Cur) (start : Nat) (s : State) (r : Res State) : Res State :=
  if (s.cur c).wp < start then raise .startRange s else r

/-- The loop of RDRAW (43 R185): `left` bits still to read, the next of them bit `i` of the result `v`. -/
def readRaw (cfg : Cfg) (buf : List Cell) : (left i : Nat) → Nat → Cursor → Res (Nat × Cursor)
  | 0, _, v, k => .next (v, k)
  | left + 1, i, v, k =>
    andThen (readBit cfg buf k) fun r => readRaw cfg buf left (i + 1) (v ||| r.1.toNat <<< i) r.2

/-- The loop of WRRAW (43 R186): `left` bits still to write, the next of them `value[i]`. -/
def writeRaw (cfg : Cfg) (value : Nat) : (left i : Nat) → List Cell → Cursor → Res (List Cell × Cursor)
  | 0, _, buf, k => .next (buf, k)
  | left + 1, i, buf, k =>
    andThen (writeBit cfg (value.testBit i) buf k) fun r => writeRaw cfg value left (i + 1) r.1 r.2

/-- The index after a code bit, "branchless tree descent" (41 R142, 90 C8): `IDX + (bit ? e : 1)`. -/
def descend (idx : Nat) (e : Int) (bit : Bool) : Nat := if bit then idx + e.toNat else idx + 1

/-- The walk of RDHUF (43 R187) from the position `idx`: the leaf reached, its symbol and the cursor. Each iteration moves
strictly up the table, so the fuel, the number of entries and one more, is never used up. -/
def walk (s : State) : (fuel idx : Nat) → Cursor → Res (Nat × Nat × Cursor)
  | 0, _, _ => .refused .illFormedModel
  | fuel + 1, idx, k =>
    andThen (dtabAt s idx) fun e =>
      if 0 < e then andThen (readBit s.cfg s.buf k) fun r => walk s fuel (descend idx e r.1) r.2
      else .next (idx, (-e).toNat, k)

/-- The loop of WRHUF (43 R188): emit the lowest bit of the path word and shift it right until it is the sentinel 1. A
path word of `PW` bits has fewer than `PW` code bits, so the fuel `PW` is not used up under `WF(Model)`. -/
def emit (cfg : Cfg) : (fuel : Nat) → (path : Nat) → List Cell → Cursor → Res (List Cell × Cursor)
  | 0, _, _, _ => .refused .illFormedModel
  | fuel + 1, path, buf, k =>
    if path = 1 then .next (buf, k)
    else andThen (writeBit cfg (path.testBit 0) buf k) fun r => emit cfg fuel (path / 2) r.1 r.2

end Sys2Proof.Machine
end

