-- ==== Sys2Proof/Machine/CursorUnit.lean ====
section
/-! DEFINITION. bit_stream_cursor (43): CSET, RDBIT, WRBIT, RDRAW, WRRAW, ELSZ, BTSZ. The checks of each command stand in
the order of its rule and of 60 R241, before any state write. -/

namespace Sys2Proof.Machine

/-- CSET (43 R182): `WP <- ptr`, `BO <- 0`, `V <- 1`; no memory access. `ptr` is `dat[AW-1:0]`: a register of `AW` bits
takes no more (log entry 13). -/
def execCset (c : Cur) (ptr : Nat) (s : State) : Res State :=
  whenClear s (respond 0 (s.setCur c ⟨ptr % 2 ^ s.cfg.aw, 0, true⟩))

/-- RDBIT (43 R183). -/
def execRdbit (c : Cur) (s : State) : Res State :=
  whenClear s <| whenValid c s <|
    andThen (readBit s.cfg s.buf (s.cur c)) fun r => respond r.1.toNat (s.setCur c r.2)

/-- WRBIT (43 R184). -/
def execWrbit (c : Cur) (bit : Bool) (s : State) : Res State :=
  whenClear s <| whenValid c s <|
    andThen (writeBit s.cfg bit s.buf (s.cur c)) fun r => respond 0 ({ s with buf := r.1 }.setCur c r.2)

/-- RDRAW (43 R185). -/
def execRdraw (c : Cur) (n : Nat) (s : State) : Res State :=
  whenClear s <| whenValid c s <| whenRawWidth n s <|
    andThen (readRaw s.cfg s.buf n 0 0 (s.cur c)) fun r => respond r.1 (s.setCur c r.2)

/-- WRRAW (43 R186). -/
def execWrraw (c : Cur) (value : Nat) (n : Nat) (s : State) : Res State :=
  whenClear s <| whenValid c s <| whenRawWidth n s <|
    andThen (writeRaw s.cfg value n 0 s.buf (s.cur c)) fun r => respond 0 ({ s with buf := r.1 }.setCur c r.2)

/-- ELSZ (43 R191): the size in whole words from `start`, rounded up. -/
def execElsz (c : Cur) (start : Nat) (s : State) : Res State :=
  whenClear s <| whenValid c s <| whenStart c start s <|
    respond ((s.cur c).wp - start + (if 0 < (s.cur c).bo then 1 else 0)) s

/-- BTSZ (43 R192): the size in bits from bit 0 of the word at `start`. -/
def execBtsz (c : Cur) (start : Nat) (s : State) : Res State :=
  whenClear s <| whenValid c s <| whenStart c start s <|
    respond (((s.cur c).wp - start) * s.cfg.w + (s.cur c).bo) s

end Sys2Proof.Machine
end

