-- ==== Sys2Proof/Machine/Flags.lean ====
section
/-! DEFINITION. The derived predicates and the status word (10 R27, R28): functions of state and tables, not stored. -/

namespace Sys2Proof.Machine

/-- The code of a cause (60 R232). -/
def Cause.code : Cause → Nat
  | .none => 0
  | .illegalCmd => 1
  | .cursorInvalid => 2
  | .rawWidth => 3
  | .symbolRange => 4
  | .startRange => 5
  | .decProtocol => 6
  | .encProtocol => 7

/-- `NEED = (DTAB[IDX] > 0)` (10 R27). -/
def need (s : State) : Res Bool := andThen (dtabAt s s.idx) fun e => .next (decide (0 < e))

/-- `HAS = (PATH != 1)` (10 R27). -/
def has (s : State) : Bool := decide (s.path ≠ 1)

/-- The level output `FAULT = FLT` (60 R231, R244). -/
def faultOutput (s : State) : Bool := s.flt

/-- STATUS (10 R28, 44 R220), bit by bit; the bits above bit 8 are 0. -/
def statusWord (s : State) : Res Nat :=
  andThen (need s) fun nd =>
    .next (s.flt.toNat ||| s.cause.code <<< 1 ||| s.c0.v.toNat <<< 5 ||| s.c1.v.toNat <<< 6
      ||| nd.toNat <<< 7 ||| (has s).toNat <<< 8)

end Sys2Proof.Machine
end

