-- ==== Sys2Proof/Machine/Decoder.lean ====
section
/-! DEFINITION. huffman_decoder (41): DRST, DNEED, DBIT, DRES, on the register IDX and the table DTAB. -/

namespace Sys2Proof.Machine

/-- DRST (41 R140): `IDX <- 0`. -/
def execDrst (s : State) : Res State :=
  whenClear s (respond 0 { s with idx := 0 })

/-- DNEED (41 R141): respond NEED. -/
def execDneed (s : State) : Res State :=
  whenClear s <| andThen (need s) fun nd => respond nd.toNat s

/-- DBIT (41 R142): at an internal node descend by the bit; at a leaf `Fault(DEC_PROTOCOL)`. -/
def execDbit (bit : Bool) (s : State) : Res State :=
  whenClear s <| andThen (dtabAt s s.idx) fun e =>
    if e ≤ 0 then raise .decProtocol s else respond 0 { s with idx := descend s.idx e bit }

/-- DRES (41 R143): at a leaf respond its symbol, IDX kept; at an internal node `Fault(DEC_PROTOCOL)`. -/
def execDres (s : State) : Res State :=
  whenClear s <| andThen (dtabAt s s.idx) fun e =>
    if 0 < e then raise .decProtocol s else respond (-e).toNat s

end Sys2Proof.Machine
end

