-- ==== Sys2Proof/Machine/Encoder.lean ====
section
/-! DEFINITION. huffman_encoder (42): ELD, EHAS, EGET, ENXT, on the register PATH and the table ETAB. -/

namespace Sys2Proof.Machine

/-- ELD (42 R160): `PATH <- ETAB[symbol]`. -/
def execEld (symbol : Nat) (s : State) : Res State :=
  whenClear s <| whenSymbol symbol s <|
    andThen (etabAt s symbol) fun p => respond 0 { s with path := p }

/-- EHAS (42 R161): respond HAS. -/
def execEhas (s : State) : Res State :=
  whenClear s (respond (has s).toNat s)

/-- EGET (42 R162): respond the lowest bit of PATH; at the sentinel `Fault(ENC_PROTOCOL)`. -/
def execEget (s : State) : Res State :=
  whenClear s <| if s.path = 1 then raise .encProtocol s else respond (s.path.testBit 0).toNat s

/-- ENXT (42 R163): `PATH <- PATH >> 1`; at the sentinel `Fault(ENC_PROTOCOL)`. -/
def execEnxt (s : State) : Res State :=
  whenClear s <| if s.path = 1 then raise .encProtocol s else respond 0 { s with path := s.path / 2 }

end Sys2Proof.Machine
end

