-- ==== Sys2Proof/Machine/HuffmanStream.lean ====
section
/-! DEFINITION. The two composite commands of 43: RDHUF drives the architectural Reader and WRHUF the architectural
Writer through a cursor (92 D17). -/

namespace Sys2Proof.Machine

/-- RDHUF (43 R187): walk from the root on bits of the cursor, leave IDX at the leaf, respond its symbol. -/
def execRdhuf (c : Cur) (s : State) : Res State :=
  whenClear s <| whenValid c s <|
    andThen (walk s (s.model.dtab.length + 1) 0 (s.cur c)) fun r =>
      respond r.2.1 ({ s with idx := r.1 }.setCur c r.2.2)

/-- WRHUF (43 R188): load the path word of the symbol, emit its code bits, leave `PATH = 1`. -/
def execWrhuf (c : Cur) (symbol : Nat) (s : State) : Res State :=
  whenClear s <| whenValid c s <| whenSymbol symbol s <|
    andThen (etabAt s symbol) fun p =>
      andThen (emit s.cfg s.cfg.pw p s.buf (s.cur c)) fun r =>
        respond 0 ({ s with path := 1, buf := r.1 }.setCur c r.2)

end Sys2Proof.Machine
end

