-- ==== Sys2Proof/Machine/System.lean ====
section
/-! DEFINITION. The system command GETST (44 R220), the only command that executes in the fault state (60 R242). -/

namespace Sys2Proof.Machine

/-- GETST (44 R220): the response is `(flt = FLT, res = STATUS)`; nothing is written. -/
def execGetst (s : State) : Res State :=
  andThen (statusWord s) fun st => .next { s with resp := some ⟨s.flt, st⟩ }

end Sys2Proof.Machine
end

