-- ==== Sys2Proof/Machine/Dispatch.lean ====
section
/-! DEFINITION. The dispatch of a decoded command to its meaning, one arm per command of the opcode map (30 R84). -/

namespace Sys2Proof.Machine

def exec (i : Instr) (s : State) : Host.Outcome State Fault Refusal :=
  match i with
  | .cset c ptr => Sys2Proof.Machine.execCset c ptr s
  | .rdbit c => Sys2Proof.Machine.execRdbit c s
  | .wrbit c bit => Sys2Proof.Machine.execWrbit c bit s
  | .rdraw c n => Sys2Proof.Machine.execRdraw c n s
  | .wrraw c value n => Sys2Proof.Machine.execWrraw c value n s
  | .elsz c start => Sys2Proof.Machine.execElsz c start s
  | .btsz c start => Sys2Proof.Machine.execBtsz c start s
  | .drst => Sys2Proof.Machine.execDrst s
  | .dneed => Sys2Proof.Machine.execDneed s
  | .dbit bit => Sys2Proof.Machine.execDbit bit s
  | .dres => Sys2Proof.Machine.execDres s
  | .eld symbol => Sys2Proof.Machine.execEld symbol s
  | .ehas => Sys2Proof.Machine.execEhas s
  | .eget => Sys2Proof.Machine.execEget s
  | .enxt => Sys2Proof.Machine.execEnxt s
  | .rdhuf c => Sys2Proof.Machine.execRdhuf c s
  | .wrhuf c symbol => Sys2Proof.Machine.execWrhuf c symbol s
  | .getst => Sys2Proof.Machine.execGetst s

end Sys2Proof.Machine
end

