-- ==== Sys2Proof/Machine/HostMoves.lean ====
section
/-! DEFINITION. What the host does to the block, one move at a time and only between commands (00 R14, 20 R62): issue a
command word, store a word of BUF, reset. -/

namespace Sys2Proof.Machine

/-- One command word, performed whole (30 R92, 60 R241): the command it selects, or ILLEGAL_CMD. -/
def issue (word : Nat) (s : State) : Res State :=
  match decode s.cfg word with
  | .ok i => exec i s
  | .error _ => illegalCommand s

/-- The host stores a word of its buffer between commands, allocating it if need be (20 R62, 70 R272 step 4, R280). -/
def hostWrite (addr value : Nat) (s : State) : Res State :=
  if addr < 2 ^ s.cfg.aw ∧ value < 2 ^ s.cfg.w then .next { s with buf := bufPut s.buf addr value }
  else .refused .noSuchMove

/-- One host move. RST relaunches the Model given, or the present one (44 R221, 40 R123). -/
def perform (m : HostMove) (s : State) : Res State :=
  match m with
  | .command word => issue word s
  | .write addr value => hostWrite addr value s
  | .rst load => launch (load.getD s.model) s

/-- The first move of the inbox, under the launch premise (60 R230 (3), 40 R114). With no move the block is idle and
holds its state (70 R270, 60 R252). -/
def nextMove (s : State) : Res State :=
  if launchOk s.cfg s.model then
    match s.inbox with
    | [] => .next s
    | m :: rest => perform m { s with inbox := rest }
  else .refused .refusedLaunch

/-- The state in which the host's next move is to issue a command word. -/
def placeCommand (word : Nat) (s : State) : State := { s with inbox := .command word :: s.inbox }

end Sys2Proof.Machine
end

