-- ==== Sys2Proof/Machine/Step.lean ====
section
/-! DEFINITION. One step: the next host move. The block stores no program (10 R30): its program is the command sequence
the host issues, which stands in `inbox` (log entry 6). -/

namespace Sys2Proof.Machine

/-- One step of the machine (00 R14). -/
def step (s : State) : Host.Outcome State Fault Refusal := nextMove s

/-- The state with the command word `w` (its bits from `nbits` up are 0) as the host's next command. -/
def State.withFetchWord (s : State) (nbits w : Nat) : State := placeCommand (w % 2 ^ nbits) s

end Sys2Proof.Machine
end

