-- ==== Sys2Proof/Machine/Builder.lean ====
section
/-! DEFINITION. The host-side Builder (40 R119 to R122, R124): software outside the block (00 R5), written down because
it is the only definition of what a host loads. Frequencies are exact naturals (40 R124). The merge relation allows
every tie-break and every child order (40 R122, 93 U1, U2); the reference builder of 92 D28 is one function that obeys
it. Nothing in the block refers to this file. -/

namespace Sys2Proof

/-- The tree that a merge leaves (40 R120): a leaf of a symbol, or an internal node with child A (bit 0) and child B
(bit 1). -/
inductive Tree where
  | leaf (symbol : Nat)
  | node (a b : Tree)
  deriving DecidableEq, Repr

/-- A Merge Node (40 R120) with the sequence number of 92 D28, which only the reference builder looks at. -/
structure MergeNode where
  freq : Nat
  seq : Nat
  tree : Tree
  deriving DecidableEq, Repr

/-- The leaves' symbols, first child first. -/
def Tree.symbols : Tree → List Nat
  | .leaf s => [s]
  | .node a b => a.symbols ++ b.symbols

/-- The Decode Table of a tree (40 R121): pre-order, an internal node's skip distance is one more than the number of
positions of its first child's subtree, a leaf is the negated symbol. -/
def Tree.entries : Tree → List Int
  | .leaf s => [-(s : Int)]
  | .node a b => ((a.entries.length : Int) + 1) :: (a.entries ++ b.entries)

/-- Each symbol with its bit path from the root (40 R121), given the path of the node itself. -/
def Tree.paths : Tree → List Bool → List (Nat × List Bool)
  | .leaf s, path => [(s, path)]
  | .node a b, path => a.paths (path ++ [false]) ++ b.paths (path ++ [true])

/-- The path of a symbol in a list of paths; the empty path where it has none. -/
def pathOf : List (Nat × List Bool) → Nat → List Bool
  | [], _ => []
  | (t, path) :: rest, s => if t = s then path else pathOf rest s

/-- The flatten phase of `compile()` (40 R121): no Model where a code is longer than `PW - 1` bits (40 R116) or a table
entry does not fit `DW` bits (70 R272 step 2). -/
def flatten (cfg : Cfg) (n : Nat) (t : Tree) : Option Model :=
  if (∀ p ∈ t.paths [], p.2.length + 1 ≤ cfg.pw) ∧ 2 * n - 2 ≤ 2 ^ (cfg.dw - 1) - 1 then
    some ⟨n, t.entries.map (toPattern cfg.dw), (List.range n).map fun s => pathWord (pathOf (t.paths []) s)⟩
  else none

/-- One merge of `compile()` (40 R120) under ANY tie-break and child order (40 R122): two nodes of lowest frequency leave
the queue and a node of their summed frequency enters it. -/
inductive MergeStep : List MergeNode → List MergeNode → Prop where
  | merge (queue rest : List MergeNode) (a b : MergeNode) (seq : Nat)
      (popped : queue.Perm (a :: b :: rest))
      (lowest : ∀ x ∈ rest, a.freq ≤ x.freq ∧ b.freq ≤ x.freq) :
      MergeStep queue (⟨a.freq + b.freq, seq, .node a.tree b.tree⟩ :: rest)

/-- The merge phase (40 R120), until exactly one node remains. -/
inductive Merges : List MergeNode → Tree → Prop where
  | done (root : MergeNode) : Merges [root] root.tree
  | step (queue next : List MergeNode) (t : Tree) (first : MergeStep queue next) (later : Merges next t) :
      Merges queue t

/-- The leaves that `add_output` registers (40 R119). -/
def leavesOf (outputs : List (Nat × Nat)) : List MergeNode :=
  outputs.map fun o => ⟨o.2, o.1, .leaf o.1⟩

/-- The precondition of `compile()` (40 R119, R246): exactly `n` calls of `add_output`, each symbol of `[0, n)` once. -/
def outputsOk (n : Nat) (outputs : List (Nat × Nat)) : Bool :=
  decide (1 ≤ n ∧ outputs.length = n ∧ ∀ s ∈ List.range n, (outputs.map Prod.fst).count s = 1)

/-- The queue order of the reference builder: (frequency, sequence number), lowest first (92 D28). -/
def MergeNode.before (x y : MergeNode) : Bool := decide (x.freq < y.freq ∨ x.freq = y.freq ∧ x.seq < y.seq)

/-- The first node of a queue `m :: xs` in the reference order, and the others. -/
def popFirst : MergeNode → List MergeNode → MergeNode × List MergeNode
  | m, [] => (m, [])
  | m, x :: xs =>
    if x.before m then ((popFirst x xs).1, m :: (popFirst x xs).2)
    else ((popFirst m xs).1, x :: (popFirst m xs).2)

/-- The merge phase of the reference builder: the first node popped becomes child A, the second child B, and internal
nodes are numbered in order of creation (92 D28). The fuel is the number of leaves. -/
def mergeReference : (fuel seq : Nat) → List MergeNode → Option Tree
  | 0, _, _ => none
  | _ + 1, _, [] => none
  | _ + 1, _, [root] => some root.tree
  | fuel + 1, seq, m :: x :: xs =>
    match popFirst m (x :: xs) with
    | (_, []) => none
    | (a, y :: ys) =>
      match popFirst y ys with
      | (b, rest) => mergeReference fuel (seq + 1) (⟨a.freq + b.freq, seq, .node a.tree b.tree⟩ :: rest)

/-- `compile()` of the reference builder (92 D28) on the outputs registered; none where the precondition fails or no
Model exists (40 R116, R119, R121). -/
def compileReference (cfg : Cfg) (n : Nat) (outputs : List (Nat × Nat)) : Option Model :=
  if outputsOk n outputs then
    match mergeReference n n (leavesOf outputs) with
    | some t => flatten cfg n t
    | none => none
  else none

/-- The weighted bit cost of 40 R125: the sum of frequency times code length. -/
def weightedCost (cfg : Cfg) (m : Model) (outputs : List (Nat × Nat)) : Nat :=
  (outputs.map fun o => o.2 * ((m.code cfg o.1).getD []).length).sum

end Sys2Proof
end

