-- ==== Sys2Proof/Safety.lean ====
section
/-! DEFINITION. The words in which claims are stated: the invariant that rules out the states no run reaches (the ranges
of 10 R20), the bit stream of 20 R52 and 43 R189 as closed formulas, what a sequence of bit writes leaves in the
buffer, and a run of several commands. -/

namespace Sys2Proof.Machine

/-! ### The invariant -/

/-- A cursor's registers are in range (10 R20, R22). -/
def Cursor.inRange (cfg : Cfg) (k : Cursor) : Bool := decide (k.wp < 2 ^ cfg.aw ∧ k.bo ≤ cfg.w)

/-- The response fits its `1 + XW` bits, and its `flt` mirrors FLT (30 R83, 92 D23). -/
def respInRange (s : State) : Bool :=
  match s.resp with
  | none => true
  | some r => decide (r.flt = s.flt ∧ r.res < 2 ^ s.cfg.xw)

/-- The states a launched machine can be in: the launch premise holds, every register is in the range 10 R20 gives it,
CAUSE is written together with FLT (10 R26), and BUF is in its canonical form. -/
structure Inv (s : State) : Prop where
  launched : launchOk s.cfg s.model = true
  cursor0 : s.c0.inRange s.cfg = true
  cursor1 : s.c1.inRange s.cfg = true
  index : s.idx ≤ 2 * s.model.n - 2
  path : 1 ≤ s.path ∧ s.path < 2 ^ s.cfg.pw
  cause : s.flt = true ↔ s.cause ≠ .none
  memory : Memory.wf s.cfg s.buf = true
  response : respInRange s = true

/-- A state in which commands execute: the invariant holds and no fault is recorded. -/
structure Ready (s : State) : Prop where
  inv : Inv s
  clear : s.flt = false

/-- A state in which the cursor commands of `c` execute: ready, and the cursor was created (10 R23). -/
structure ReadyCursor (c : Cur) (s : State) : Prop where
  ready : Ready s
  valid : (s.cur c).v = true

/-! ### What an observer cannot see, and when the host may step in -/

/-- The state with `WP` and `BO` of every invalid cursor forgotten: they are unspecified and unobservable while `V = 0`
(10 R23, R34). -/
def observable (s : State) : State :=
  { s with
    c0 := if s.c0.v then s.c0 else Cursor.reset
    c1 := if s.c1.v then s.c1 else Cursor.reset }

/-- An outcome with the unobservable registers forgotten. -/
def observableOutcome (r : Res State) : Res State := andThen r fun s => .next (observable s)

/-! ### The bit stream -/

/-- The word address of stream bit `p`, counted from word address 0 (20 R52), modulo `2^AW` (20 R59). -/
def bitAddr (cfg : Cfg) (p : Nat) : Nat := p / cfg.w % 2 ^ cfg.aw

/-- `S(p)` of 43 R189: bit `p mod W` of `BUF[floor(p / W)]`; none outside EXTENT. -/
def streamBit (cfg : Cfg) (buf : List Cell) (p : Nat) : Option Bool :=
  (bufRead buf (bitAddr cfg p)).map fun w => w.testBit (p % cfg.w)

/-- The cursor after `n` bit accesses (43 R189): `WP' = floor((pos + n - 1) / W)`, `BO' = ((pos + n - 1) mod W) + 1`,
and unchanged for `n = 0`. -/
def cursorAfter (cfg : Cfg) (k : Cursor) (n : Nat) : Cursor :=
  if n = 0 then k else ⟨bitAddr cfg (k.pos cfg + n - 1), (k.pos cfg + n - 1) % cfg.w + 1, k.v⟩

/-- Every word that `n` bit accesses from position `p` touch is in EXTENT (20 R56). -/
def reaches (cfg : Cfg) (buf : List Cell) (p n : Nat) : Prop :=
  ∀ i < n, bitAddr cfg (p + i) ∈ extent buf

/-- The stream bits from position `p` on are exactly `bits`, all inside EXTENT. -/
def spells (cfg : Cfg) (buf : List Cell) (p : Nat) (bits : List Bool) : Prop :=
  ∀ i < bits.length, streamBit cfg buf (p + i) = bits[i]?

/-- The raw number that the `n` stream bits from position `p` denote (43 R185): the sum of `S(p + i) * 2^i`. -/
def rawNumber (cfg : Cfg) (buf : List Cell) (p n : Nat) : Nat :=
  bitsValue ((List.range n).map fun i => (streamBit cfg buf (p + i)).getD false)

/-- What writing `bits` from stream position `p` leaves (43 R181, R189): the same words allocated, each bit of a word
the old bit OR every bit written there, so no bit cleared and no other bit set. -/
def Ored (cfg : Cfg) (p : Nat) (bits : List Bool) (buf buf' : List Cell) : Prop :=
  extent buf' = extent buf ∧
  ∀ a w, bufRead buf a = some w → ∃ w', bufRead buf' a = some w' ∧
    ∀ j, w'.testBit j = true ↔
      (w.testBit j = true ∨ ∃ i, bits[i]? = some true ∧ bitAddr cfg (p + i) = a ∧ (p + i) % cfg.w = j)

/-- The low `n` bits of a value, least significant first (43 R186). -/
def lowBits (value : Nat) (n : Nat) : List Bool := (List.range n).map value.testBit

/-! ### The tree a Decode Table denotes -/

/-- The table position reached from position `p` on a sequence of bits (41 R146); none where a bit is offered at a leaf
or a step leaves the table. -/
def nodeAt (d : List Int) : (p : Nat) → List Bool → Option Nat
  | p, [] => some p
  | p, b :: bs =>
    match d[p]? with
    | none => none
    | some e => if 0 < e then nodeAt d (descend p e b) bs else none

/-- Position `q` is the leaf of symbol `sym`, reached from the root on `code` (40 R113). -/
def leafOf (s : State) (sym q : Nat) (code : List Bool) : Prop :=
  s.model.code s.cfg sym = some code ∧ nodeAt (s.model.entries s.cfg) 0 code = some q ∧
    (s.model.entries s.cfg)[q]? = some (-(sym : Int))

/-! ### Runs -/

/-- Several commands, one after another (00 R14). -/
def runCommands : List Instr → State → Res State
  | [], s => .next s
  | i :: is, s => andThen (exec i s) (runCommands is)

/-- The next host move is a reset. -/
def resetIsNext (s : State) : Bool :=
  match s.inbox with
  | .rst _ :: _ => true
  | _ => false

/-- The bits that a write command puts into the stream of its cursor (43 R189: WRBIT 1, WRRAW `cnt`, WRHUF the code
length); none for a command that is no write. -/
def writtenBits (s : State) : Instr → Option (List Bool)
  | .wrbit _ bit => some [bit]
  | .wrraw _ value n => some (lowBits value n)
  | .wrhuf _ symbol => s.model.code s.cfg symbol
  | _ => none

/-- The number of bit accesses a command of a pass made, `t` being the state after it (43 R189): RDBIT and WRBIT 1, RDRAW
and WRRAW `cnt`, RDHUF and WRHUF the code length of the symbol answered or given; none for any other command. -/
def accessedBits (t : State) : Instr → Option Nat
  | .rdbit _ => some 1
  | .wrbit _ _ => some 1
  | .rdraw _ n => some n
  | .wrraw _ _ n => some n
  | .rdhuf _ => t.resp.bind fun r => (t.model.code t.cfg r.res).map List.length
  | .wrhuf _ symbol => (t.model.code t.cfg symbol).map List.length
  | _ => none

/-- The sum of the field and code lengths of a pass run from `s` through cursor `c` (43 R194); none if a command of it
does not complete, is no bit access or names the other cursor. -/
def passBits (c : Cur) : List Instr → State → Option Nat
  | [], _ => some 0
  | i :: is, s =>
    match exec i s with
    | .next t =>
      match accessedBits t i, passBits c is t with
      | some n, some total => if i.cursor? = some c then some (n + total) else none
      | _, _ => none
    | .fault _ => none
    | .refused _ => none

/-- Several commands, one after another, and the results they answered, first result first. -/
def runResults : List Instr → State → Res (State × List Nat)
  | [], s => .next (s, [])
  | i :: is, s =>
    andThen (exec i s) fun t =>
      andThen (runResults is t) fun r => .next (r.1, (t.resp.map Response.res).toList ++ r.2)

/-- A field of a stream (43 R195): a raw number of `n` bits or a symbol. -/
inductive Field where
  | raw (value n : Nat)
  | symbol (sym : Nat)
  deriving DecidableEq, Repr

/-- The command that writes a field through a cursor. -/
def Field.write (c : Cur) : Field → Instr
  | .raw value n => .wrraw c value n
  | .symbol sym => .wrhuf c sym

/-- The command that reads a field of this kind and width through a cursor. -/
def Field.read (c : Cur) : Field → Instr
  | .raw _ n => .rdraw c n
  | .symbol _ => .rdhuf c

/-- What a field stands for. -/
def Field.value : Field → Nat
  | .raw value _ => value
  | .symbol sym => sym

/-- The bits a field takes in the stream. -/
def Field.length (s : State) : Field → Nat
  | .raw _ n => n
  | .symbol sym => ((s.model.code s.cfg sym).getD []).length

/-- The field can be written: a count of at most `TW` and a number of that many bits, or a symbol of the alphabet. -/
def Field.fits (s : State) : Field → Bool
  | .raw value n => decide (n ≤ s.cfg.tw ∧ value < 2 ^ n)
  | .symbol sym => decide (sym < s.model.n)

/-! ### The opcode map -/

/-- One row of the opcode map (30 R84): the command a header selects when `hdr & mask = pattern`, and how many low bits
of `dat` it uses, the others being 0 (30 R82). -/
structure MapRow where
  mnemonic : String
  pattern : Nat
  mask : Nat
  datBits : Cfg → Nat

/-- The opcode map of 30 R84 with the `dat` column of 30 R82, row by row. -/
def opcodeMap : List MapRow :=
  [⟨"CSET", 0x0001, 0xFFDF, Cfg.aw⟩, ⟨"RDBIT", 0x0002, 0xFFDF, fun _ => 0⟩, ⟨"WRBIT", 0x0003, 0xFFDF, fun _ => 1⟩,
   ⟨"RDRAW", 0x0004, 0x00DF, fun _ => 0⟩, ⟨"WRRAW", 0x0005, 0x00DF, Cfg.tw⟩, ⟨"ELSZ", 0x0006, 0xFFDF, Cfg.aw⟩,
   ⟨"BTSZ", 0x0007, 0xFFDF, Cfg.aw⟩, ⟨"DRST", 0x0008, 0xFFFF, fun _ => 0⟩, ⟨"DNEED", 0x0009, 0xFFFF, fun _ => 0⟩,
   ⟨"DBIT", 0x000A, 0xFFFF, fun _ => 1⟩, ⟨"DRES", 0x000B, 0xFFFF, fun _ => 0⟩, ⟨"ELD", 0x000C, 0xFFFF, Cfg.xw⟩,
   ⟨"EHAS", 0x000D, 0xFFFF, fun _ => 0⟩, ⟨"EGET", 0x000E, 0xFFFF, fun _ => 0⟩, ⟨"ENXT", 0x000F, 0xFFFF, fun _ => 0⟩,
   ⟨"RDHUF", 0x0010, 0xFFDF, fun _ => 0⟩, ⟨"WRHUF", 0x0011, 0xFFDF, Cfg.xw⟩, ⟨"GETST", 0x0012, 0xFFFF, fun _ => 0⟩]

/-- The mnemonic of a command (30 R84, R90). -/
def mnemonicOf : Instr → String
  | .cset _ _ => "CSET"
  | .rdbit _ => "RDBIT"
  | .wrbit _ _ => "WRBIT"
  | .rdraw _ _ => "RDRAW"
  | .wrraw _ _ _ => "WRRAW"
  | .elsz _ _ => "ELSZ"
  | .btsz _ _ => "BTSZ"
  | .drst => "DRST"
  | .dneed => "DNEED"
  | .dbit _ => "DBIT"
  | .dres => "DRES"
  | .eld _ => "ELD"
  | .ehas => "EHAS"
  | .eget => "EGET"
  | .enxt => "ENXT"
  | .rdhuf _ => "RDHUF"
  | .wrhuf _ _ => "WRHUF"
  | .getst => "GETST"

end Sys2Proof.Machine
end

