-- ==== Sys2Proof/Certificates/Slice0/Obligations.lean ====
section
/-! DEFINITION. The statements for the provers, from the numbered rules of spec/. A result statement concludes that
`exec` ANSWERS the next state written out in full, so it is its command's completion statement and its frame in one:
every field that is not named in the next state is the field it was. -/

open Sys2Proof Sys2Proof.Machine

/-! ### Encoding (30) -/

/-- 30 R80, R81, R82, R84, R88, R90: decoding the word of a well-formed command gives the command back, whatever the
widths. -/
def Obligations.DecodeOfEncodeIsTheCommand : Prop :=
  ∀ (cfg : Cfg) (n : Nat) (i : Instr), cfg.ok n = true → i.wf cfg = true → decode cfg (encode i) = .ok i

/-- 30 R80, R84, R92: a word that decodes is the word of the command it decodes to (its bits above the `16 + XW` of a
command are not seen, DESIGN CHOICE, log entry 12), and that command is well-formed; so no two words mean one command. -/
def Obligations.EncodeOfDecodeIsTheWord : Prop :=
  ∀ (cfg : Cfg) (n word : Nat) (i : Instr), cfg.ok n = true → decode cfg word = .ok i →
    encode i = word % 2 ^ (16 + cfg.xw) ∧ i.wf cfg = true

/-- 30 R84: a header selects a row of the opcode map when `(hdr & mask) = match` and the `dat` bits that must be 0 are;
every command word of `16 + XW` bits that decodes gives a command of the row it selects, and every one that selects a row
decodes to a command of it. -/
def Obligations.WordsSelectRowsOfTheOpcodeMap : Prop :=
  ∀ (cfg : Cfg) (n word : Nat), cfg.ok n = true → word < 2 ^ (16 + cfg.xw) →
    (∀ i, decode cfg word = .ok i →
      ∃ row ∈ opcodeMap, row.mnemonic = mnemonicOf i ∧ hdrOf word &&& row.mask = row.pattern ∧
        datOf cfg word < 2 ^ row.datBits cfg) ∧
    (∀ row ∈ opcodeMap, hdrOf word &&& row.mask = row.pattern → datOf cfg word < 2 ^ row.datBits cfg →
      ∃ i, decode cfg word = .ok i ∧ mnemonicOf i = row.mnemonic)

/-- 30 R85, 60 R233: a command word with `opc` 0x00 or 0x13 to 0x1F raises ILLEGAL_CMD and has no other effect. -/
def Obligations.ReservedOpcodeRaisesIllegalCmd : Prop :=
  ∀ (s : State) (word : Nat), word < 2 ^ (16 + s.cfg.xw) → s.flt = false → (word % 32 = 0 ∨ 0x13 ≤ word % 32) →
    issue word s = .next { s with flt := true, cause := .illegalCmd, resp := some ⟨true, 0⟩ }

/-- 30 R86, 60 R233: a nonzero `rsv`, a `c` of 1 where no cursor is used (opcodes 0x08 to 0x0F and 0x12), a nonzero `cnt`
where no count is used (every opcode but 0x04 and 0x05), or a 1 in a `dat` bit that must be 0 raises ILLEGAL_CMD and has
no other effect. -/
def Obligations.MustBeZeroFieldRaisesIllegalCmd : Prop :=
  ∀ (s : State) (word : Nat), word < 2 ^ (16 + s.cfg.xw) → s.flt = false →
    (word / 64 % 4 ≠ 0 ∨
      (word / 32 % 2 = 1 ∧ (0x08 ≤ word % 32 ∧ word % 32 ≤ 0x0F ∨ word % 32 = 0x12)) ∨
      (word / 256 % 256 ≠ 0 ∧ word % 32 ≠ 0x04 ∧ word % 32 ≠ 0x05) ∨
      (∃ row ∈ opcodeMap, hdrOf word &&& row.mask = row.pattern ∧ 2 ^ row.datBits s.cfg ≤ datOf s.cfg word)) →
    issue word s = .next { s with flt := true, cause := .illegalCmd, resp := some ⟨true, 0⟩ }

/-- Words written out from 30 R81, R84 and R90 (95 X1, X2, X3, X6, X7, X10, X13, X15, X19) and what they decode to in
CFG-A. -/
def Obligations.SampleWordsDecodeAsWritten : Prop :=
  let a : Cfg := ⟨8, 8, 8, 8, 16, 32, .leastFirst⟩
  decode a 0x000001000021 = .ok (.cset .c1 0x100) ∧ decode a 0x0000005B0725 = .ok (.wrraw .c1 0x5B 7) ∧
  decode a 0x000000000304 = .ok (.rdraw .c0 3) ∧ decode a 0x000000030031 = .ok (.wrhuf .c1 3) ∧
  decode a 0xFFFFFFFF000C = .ok (.eld 0xFFFFFFFF) ∧ decode a 0x000000000000 = .error .reservedOpcode ∧
  decode a 0x000000000042 = .error .rsvNotZero ∧ decode a 0x000000000028 = .error .cursorNotZero ∧
  decode a 0x000000020003 = .error .datNotZero

/-! ### Steps, reset, idling (00, 44, 70) -/

/-- 00 R14, 30 R92: when the host's next move is a command word that decodes to `i`, the step is `i` at the state with that
move taken; and a word placed by `withFetchWord` is the very next command (the host's
moves as a list in State: DESIGN CHOICE, log entry 6). -/
def Obligations.StepRunsTheDecodedCommand : Prop :=
  (∀ (s : State) (word : Nat) (rest : List HostMove) (i : Instr), launchOk s.cfg s.model = true →
    s.inbox = .command word :: rest → decode s.cfg word = .ok i → step s = exec i { s with inbox := rest }) ∧
  (∀ (s : State) (nbits word : Nat) (i : Instr), launchOk s.cfg s.model = true →
    decode s.cfg (word % 2 ^ nbits) = .ok i → step (s.withFetchWord nbits word) = exec i s)

/-- 60 R252, 70 R270: with no host move to perform the block is idle and holds its state. 40 R114, 60 R230 (3): where the
launch premise fails every step is a refused launch, whatever the host's next move (that these are steps of the model
is its choice, log entries 10 and 17). -/
def Obligations.IdleBlockHoldsAndIllFormedLaunchIsRefused : Prop :=
  (∀ s : State, launchOk s.cfg s.model = true → s.inbox = [] → step s = .next s) ∧
  (∀ s : State, launchOk s.cfg s.model = false → step s = .refused .refusedLaunch)

/-- 10 R34, 70 R270: no cursor, the Reader at the root, the Writer empty, no fault (the values the spec gives). -/
def Obligations.ResetLeavesNoCursorAndNoFault : Prop :=
  State.reset.c0.v = false ∧ State.reset.c1.v = false ∧ State.reset.idx = 0 ∧ State.reset.path = 1 ∧
  State.reset.flt = false ∧ State.reset.cause.code = 0 ∧ has State.reset = false

/-- 44 R221, 70 R270, 40 R123: RST without a new Model gives the reset registers and changes neither BUF nor the tables;
RST with a well-formed Model launches it; with a Model that is not well-formed the launch is refused (40 R114).
RST as one atomic move that leaves the later moves in place is the model's choice (log entry 20). -/
def Obligations.RstRelaunchesAndKeepsTheBuffer : Prop :=
  ∀ (s : State) (load : Option Model) (rest : List HostMove), launchOk s.cfg s.model = true →
    s.inbox = .rst load :: rest →
    (launchOk s.cfg (load.getD s.model) = true → ∃ k0 k1 r, k0.v = false ∧ k1.v = false ∧
      step s = .next { s with
        model := load.getD s.model, c0 := k0, c1 := k1, idx := 0, path := 1, flt := false, cause := .none,
        inbox := rest, resp := r }) ∧
    (launchOk s.cfg (load.getD s.model) = false → step s = .refused .refusedLaunch)

/-- 20 R62, 70 R272, R280: between commands the host stores a word of BUF; that word reads as stored, every other word
and everything else is as before, and the memory stays in its canonical form (the move is the model's, log entry 7). -/
def Obligations.HostStoreChangesOneWord : Prop :=
  ∀ (s : State) (a v : Nat) (rest : List HostMove), Inv s → a < 2 ^ s.cfg.aw → v < 2 ^ s.cfg.w →
    s.inbox = .write a v :: rest →
    ∃ buf', step s = .next { s with buf := buf', inbox := rest } ∧ Memory.wf s.cfg buf' = true ∧
      bufRead buf' a = some v ∧ ∀ b, b ≠ a → bufRead buf' b = bufRead s.buf b

/-! ### The invariant -/

/-- 10 R20, R22, R24, R25, R26, 30 R83: the machine right after reset meets the invariant. The
launch values, `WP` and `BO`, the empty buffer and the absent response are the model's choices (log entries 2, 3, 5, 8). -/
def Obligations.ResetMeetsTheInvariant : Prop := Inv State.reset

/-- 10 R20, R22, R24, R25, R26, 30 R83, 40 R115 (c): every step from a state that meets the invariant (every register in
its range, CAUSE written with FLT, the memory canonical, the response in its width, the launch premise) gives a state
that meets it (the stored response is the model's field, log entry 8). -/
def Obligations.EveryStepKeepsTheInvariant : Prop :=
  ∀ s t : State, Inv s → step s = .next t → Inv t

/-- 40 R114, 60 R230: under the invariant no command is refused a meaning; the only stop is UB_EXTENT, and only in a
command that accesses bits, not in the fault state and through a valid cursor (60 R241, item 6). -/
def Obligations.CommandsStopOnlyOffTheExtent : Prop :=
  ∀ (i : Instr) (s : State), Inv s →
    (∀ r, exec i s ≠ .refused r) ∧
    (∀ f, exec i s = .fault f → f = .ubExtent ∧ s.flt = false ∧
      i.opc ∈ [0x02, 0x03, 0x04, 0x05, 0x10, 0x11] ∧ ∃ c, i.cursor? = some c ∧ (s.cur c).v = true)

/-! ### bit_stream_cursor (43) -/

/-- 43 R182: CSET gives `(WP = ptr, BO = 0, V = 1)` and changes nothing else. -/
def Obligations.CsetCreatesAFreshCursor : Prop :=
  ∀ (s : State) (c : Cur) (ptr : Nat), s.flt = false → ptr < 2 ^ s.cfg.aw →
    exec (.cset c ptr) s = .next { s.setCur c ⟨ptr, 0, true⟩ with resp := some ⟨false, 0⟩ }

/-- 43 R183, R180: RDBIT answers the stream bit at the cursor and moves the cursor by one access, and nothing else. -/
def Obligations.RdbitReadsTheStreamBit : Prop :=
  ∀ (s : State) (c : Cur) (b : Bool), ReadyCursor c s →
    streamBit s.cfg s.buf ((s.cur c).pos s.cfg) = some b →
    exec (.rdbit c) s =
      .next { s.setCur c (cursorAfter s.cfg (s.cur c) 1) with resp := some ⟨false, b.toNat⟩ }

/-- 43 R184, R181: WRBIT ORs one bit into the word of the cursor's position (read and written back for a 0 too) and moves
the cursor by one access, and nothing else. -/
def Obligations.WrbitOrsOneBit : Prop :=
  ∀ (s : State) (c : Cur) (b : Bool), ReadyCursor c s →
    bitAddr s.cfg ((s.cur c).pos s.cfg) ∈ extent s.buf →
    ∃ buf', Ored s.cfg ((s.cur c).pos s.cfg) [b] s.buf buf' ∧
      exec (.wrbit c b) s =
        .next { { s with buf := buf' }.setCur c (cursorAfter s.cfg (s.cur c) 1) with resp := some ⟨false, 0⟩ }

/-- 43 R185, R189: RDRAW of `n <= TW` bits (0 and TW included) answers the number that the next `n` stream bits denote,
first bit least significant, and moves the cursor by `n` accesses, and nothing else. -/
def Obligations.RdrawReadsTheNumber : Prop :=
  ∀ (s : State) (c : Cur) (n : Nat), ReadyCursor c s → n ≤ s.cfg.tw →
    reaches s.cfg s.buf ((s.cur c).pos s.cfg) n →
    rawNumber s.cfg s.buf ((s.cur c).pos s.cfg) n < 2 ^ n ∧
    exec (.rdraw c n) s =
      .next { s.setCur c (cursorAfter s.cfg (s.cur c) n) with
        resp := some ⟨false, rawNumber s.cfg s.buf ((s.cur c).pos s.cfg) n⟩ }

/-- 43 R186, R189: WRRAW of `n <= TW` bits ORs the low `n` bits of the value, least significant first, into the next `n`
stream bits and moves the cursor by `n` accesses, and nothing else; higher bits of the value do not matter. -/
def Obligations.WrrawOrsTheLowBits : Prop :=
  ∀ (s : State) (c : Cur) (value n : Nat), ReadyCursor c s → n ≤ s.cfg.tw →
    reaches s.cfg s.buf ((s.cur c).pos s.cfg) n →
    ∃ buf', Ored s.cfg ((s.cur c).pos s.cfg) (lowBits value n) s.buf buf' ∧
      exec (.wrraw c value n) s =
        .next { { s with buf := buf' }.setCur c (cursorAfter s.cfg (s.cur c) n) with resp := some ⟨false, 0⟩ }

/-- 43 R191: ELSZ answers `(WP - start) + (BO > 0 ? 1 : 0)`, which is the bit size divided by W, rounded up. -/
def Obligations.ElszReportsWordsRoundedUp : Prop :=
  ∀ (s : State) (c : Cur) (start : Nat), ReadyCursor c s → start ≤ (s.cur c).wp →
    exec (.elsz c start) s =
      .next { s with resp := some ⟨false, (s.cur c).wp - start + (if 0 < (s.cur c).bo then 1 else 0)⟩ } ∧
    (s.cur c).wp - start + (if 0 < (s.cur c).bo then 1 else 0) =
      (((s.cur c).wp - start) * s.cfg.w + (s.cur c).bo + (s.cfg.w - 1)) / s.cfg.w

/-- 43 R192: BTSZ answers `(WP - start) * W + BO`, the distance of the cursor's position from bit 0 of the word at
`start`; it fits `XW` bits. -/
def Obligations.BtszReportsBits : Prop :=
  ∀ (s : State) (c : Cur) (start : Nat), ReadyCursor c s → start ≤ (s.cur c).wp →
    exec (.btsz c start) s = .next { s with resp := some ⟨false, (s.cur c).pos s.cfg - start * s.cfg.w⟩ } ∧
    (s.cur c).pos s.cfg - start * s.cfg.w = ((s.cur c).wp - start) * s.cfg.w + (s.cur c).bo ∧
    (s.cur c).pos s.cfg - start * s.cfg.w < 2 ^ s.cfg.xw

/-- 43 R187: where the next stream bits are the code of a symbol, RDHUF answers the symbol, leaves IDX at its leaf and
moves the cursor by the code length, and nothing else. -/
def Obligations.RdhufDecodesTheCode : Prop :=
  ∀ (s : State) (c : Cur) (sym q : Nat) (code : List Bool), ReadyCursor c s → leafOf s sym q code →
    spells s.cfg s.buf ((s.cur c).pos s.cfg) code →
    exec (.rdhuf c) s =
      .next { { s with idx := q }.setCur c (cursorAfter s.cfg (s.cur c) code.length) with
        resp := some ⟨false, sym⟩ }

/-- 41 R144, 43 R187: any stream decodes to some symbol of the alphabet, within `N - 1` bits. -/
def Obligations.AnyStreamDecodes : Prop :=
  ∀ (s : State) (c : Cur), ReadyCursor c s → reaches s.cfg s.buf ((s.cur c).pos s.cfg) (s.model.n - 1) →
    ∃ sym q code, sym < s.model.n ∧ code.length ≤ s.model.n - 1 ∧ leafOf s sym q code ∧
      spells s.cfg s.buf ((s.cur c).pos s.cfg) code ∧
      exec (.rdhuf c) s =
        .next { { s with idx := q }.setCur c (cursorAfter s.cfg (s.cur c) code.length) with
          resp := some ⟨false, sym⟩ }

/-- 43 R188: WRHUF of a symbol of the alphabet ORs its code, root to leaf, into the next stream bits, leaves `PATH = 1`
and moves the cursor by the code length, and nothing else. -/
def Obligations.WrhufEmitsTheCode : Prop :=
  ∀ (s : State) (c : Cur) (sym : Nat) (code : List Bool), ReadyCursor c s → sym < s.model.n →
    s.model.code s.cfg sym = some code → reaches s.cfg s.buf ((s.cur c).pos s.cfg) code.length →
    ∃ buf', Ored s.cfg ((s.cur c).pos s.cfg) code s.buf buf' ∧
      exec (.wrhuf c sym) s =
        .next { { s with path := 1, buf := buf' }.setCur c (cursorAfter s.cfg (s.cur c) code.length) with
          resp := some ⟨false, 0⟩ }

/-- 20 R56, R57, 60 R245: with its contract checks passed, a command that accesses bits stops with UB_EXTENT exactly when
some word it needs is outside EXTENT; a count of 0 needs none. RDHUF needs the words of the code it decodes. -/
def Obligations.UbExtentExactlyOffTheExtent : Prop :=
  ∀ (s : State) (c : Cur), ReadyCursor c s →
    (exec (.rdbit c) s = .fault .ubExtent ↔ bitAddr s.cfg ((s.cur c).pos s.cfg) ∉ extent s.buf) ∧
    (∀ b, exec (.wrbit c b) s = .fault .ubExtent ↔ bitAddr s.cfg ((s.cur c).pos s.cfg) ∉ extent s.buf) ∧
    (∀ n ≤ s.cfg.tw, exec (.rdraw c n) s = .fault .ubExtent ↔
      ¬ reaches s.cfg s.buf ((s.cur c).pos s.cfg) n) ∧
    (∀ n ≤ s.cfg.tw, ∀ v, exec (.wrraw c v n) s = .fault .ubExtent ↔
      ¬ reaches s.cfg s.buf ((s.cur c).pos s.cfg) n) ∧
    (∀ sym < s.model.n, ∀ code, s.model.code s.cfg sym = some code →
      (exec (.wrhuf c sym) s = .fault .ubExtent ↔
        ¬ reaches s.cfg s.buf ((s.cur c).pos s.cfg) code.length)) ∧
    (exec (.rdhuf c) s = .fault .ubExtent ↔
      ¬ ∃ sym code, s.model.code s.cfg sym = some code ∧ spells s.cfg s.buf ((s.cur c).pos s.cfg) code)

/-- 43 R193: a raw number written through one cursor and read through the other from the same position, in a stretch
that does not wrap past the last address (43 R189), reads as the value ORed with what the bits held, so as the value
where they were 0; both cursors end `n` bits on. -/
def Obligations.RawNumberRoundTrip : Prop :=
  ∀ (s : State) (c d : Cur) (v n : Nat), c ≠ d → ReadyCursor c s → (s.cur d).v = true →
    (s.cur d).pos s.cfg = (s.cur c).pos s.cfg → n ≤ s.cfg.tw → v < 2 ^ n →
    (s.cur c).pos s.cfg + n ≤ s.cfg.w * 2 ^ s.cfg.aw → reaches s.cfg s.buf ((s.cur c).pos s.cfg) n →
    ∃ t, runCommands [.wrraw c v n, .rdraw d n] s = .next t ∧
      t.resp = some ⟨false, v ||| rawNumber s.cfg s.buf ((s.cur c).pos s.cfg) n⟩ ∧
      ((∀ i < n, streamBit s.cfg s.buf ((s.cur c).pos s.cfg + i) = some false) → t.resp = some ⟨false, v⟩) ∧
      (t.cur c).pos s.cfg = (s.cur c).pos s.cfg + n ∧ (t.cur d).pos s.cfg = (s.cur c).pos s.cfg + n

/-- 43 R195: a symbol written through one cursor into zero bits and read through the other from the same position, in a
stretch that does not wrap past the last address (43 R189), reads as that symbol; both cursors end its code length
on. -/
def Obligations.HuffmanSymbolRoundTrip : Prop :=
  ∀ (s : State) (c d : Cur) (sym : Nat) (code : List Bool), c ≠ d → ReadyCursor c s → (s.cur d).v = true →
    (s.cur d).pos s.cfg = (s.cur c).pos s.cfg → sym < s.model.n → s.model.code s.cfg sym = some code →
    (s.cur c).pos s.cfg + code.length ≤ s.cfg.w * 2 ^ s.cfg.aw →
    (∀ i < code.length, streamBit s.cfg s.buf ((s.cur c).pos s.cfg + i) = some false) →
    ∃ t, runCommands [.wrhuf c sym, .rdhuf d] s = .next t ∧ t.resp = some ⟨false, sym⟩ ∧
      (t.cur c).pos s.cfg = (s.cur c).pos s.cfg + code.length ∧
      (t.cur d).pos s.cfg = (s.cur c).pos s.cfg + code.length

/-- 43 R194, R195: a sequence of raw numbers and symbols written through one cursor into zero bits, and then read through
the other cursor from the same position with the same sequence of kinds and widths, reads as the sequence written;
both cursors end the sum of the field lengths on (in a stretch that does not wrap past the last address, 43 R189). -/
def Obligations.MixedStreamRoundTrip : Prop :=
  ∀ (s : State) (c d : Cur) (fields : List Field) (total : Nat), c ≠ d → ReadyCursor c s → (s.cur d).v = true →
    (s.cur d).pos s.cfg = (s.cur c).pos s.cfg → (∀ f ∈ fields, f.fits s = true) →
    total = (fields.map (Field.length s)).sum → (s.cur c).pos s.cfg + total ≤ s.cfg.w * 2 ^ s.cfg.aw →
    (∀ i < total, streamBit s.cfg s.buf ((s.cur c).pos s.cfg + i) = some false) →
    ∃ t u, runCommands (fields.map (Field.write c)) s = .next t ∧
      runResults (fields.map (Field.read d)) t = .next (u, fields.map Field.value) ∧ u.flt = false ∧
      (u.cur c).pos s.cfg = (s.cur c).pos s.cfg + total ∧ (u.cur d).pos s.cfg = (s.cur c).pos s.cfg + total

/-- 43 R194: after `CSET c, start` and any sequence of WRBIT, WRRAW, WRHUF, RDBIT, RDRAW and RDHUF through `c` that completes
without fault and without wrapping past the last address (43 R189), BTSZ answers exactly the sum of the field and code
lengths and ELSZ that sum divided by W, rounded up. -/
def Obligations.ExtentAccuracyOfAPass : Prop :=
  ∀ (s t u : State) (c : Cur) (start total : Nat) (pass : List Instr), Ready s → start < 2 ^ s.cfg.aw →
    exec (.cset c start) s = .next u → passBits c pass u = some total →
    start * s.cfg.w + total ≤ s.cfg.w * 2 ^ s.cfg.aw → runCommands pass u = .next t → t.flt = false →
    exec (.btsz c start) t = .next { t with resp := some ⟨false, total⟩ } ∧
    exec (.elsz c start) t = .next { t with resp := some ⟨false, (total + (s.cfg.w - 1)) / s.cfg.w⟩ }

/-! ### huffman_decoder (41) -/

/-- 41 R140: DRST sets IDX to the root and changes nothing else; NEED becomes `DTAB[0] > 0`. -/
def Obligations.DrstReturnsToTheRoot : Prop :=
  ∀ s : State, s.flt = false →
    exec .drst s = .next { s with idx := 0, resp := some ⟨false, 0⟩ }

/-- 41 R141, 10 R27: DNEED answers 1 at an internal node and 0 at a leaf, and changes nothing. -/
def Obligations.DneedReportsNeed : Prop :=
  ∀ (s : State) (e : Int), s.flt = false → (s.model.entries s.cfg)[s.idx]? = some e →
    exec .dneed s = .next { s with resp := some ⟨false, if 0 < e then 1 else 0⟩ }

/-- 41 R142: at an internal node DBIT 1 adds the skip distance to IDX and DBIT 0 adds 1, and nothing else changes; under the
launch premise the new IDX is above the old one and within the table. -/
def Obligations.DbitDescends : Prop :=
  ∀ (s : State) (b : Bool) (e : Int), Ready s → (s.model.entries s.cfg)[s.idx]? = some e → 0 < e →
    exec (.dbit b) s =
      .next { s with idx := s.idx + (if b then e.toNat else 1), resp := some ⟨false, 0⟩ } ∧
    s.idx < s.idx + (if b then e.toNat else 1) ∧ s.idx + (if b then e.toNat else 1) ≤ 2 * s.model.n - 2

/-- 41 R143: at the leaf of a symbol DRES answers the symbol, which is below N, and changes nothing, IDX included. -/
def Obligations.DresReturnsTheSymbol : Prop :=
  ∀ (s : State) (e : Int), Ready s → (s.model.entries s.cfg)[s.idx]? = some e → e ≤ 0 →
    exec .dres s = .next { s with resp := some ⟨false, (-e).toNat⟩ } ∧ (-e).toNat < s.model.n

/-- 41 R146: after DRST and the DBITs of a bit sequence, none of which faulted, IDX is the position of the node whose path
from the root is that sequence; where it is the leaf of a symbol, the sequence is the code of the symbol, DNEED answers
0 and DRES the symbol. -/
def Obligations.WalkLaw : Prop :=
  ∀ (s t : State) (bits : List Bool), Ready s →
    runCommands (.drst :: bits.map .dbit) s = .next t → t.flt = false →
    nodeAt (s.model.entries s.cfg) 0 bits = some t.idx ∧
    ∀ sym : Nat, (s.model.entries s.cfg)[t.idx]? = some (-(sym : Int)) →
      s.model.code s.cfg sym = some bits ∧
      exec .dneed t = .next { t with resp := some ⟨false, 0⟩ } ∧
      exec .dres t = .next { t with resp := some ⟨false, sym⟩ }

/-! ### huffman_encoder (42) -/

/-- 42 R160, 40 R112, R114: ELD of a symbol of the alphabet copies its path word, the code bits under the sentinel, and
changes nothing else. -/
def Obligations.EldLoadsThePathWord : Prop :=
  ∀ (s : State) (sym : Nat), Ready s → sym < s.model.n →
    ∃ code, s.model.code s.cfg sym = some code ∧ code.length ≤ s.cfg.pw - 1 ∧
      exec (.eld sym) s = .next { s with path := pathWord code, resp := some ⟨false, 0⟩ }

/-- 42 R161, 10 R27: EHAS answers 1 unless PATH is the sentinel 1, and changes nothing. -/
def Obligations.EhasReportsHas : Prop :=
  ∀ s : State, s.flt = false →
    exec .ehas s = .next { s with resp := some ⟨false, if s.path = 1 then 0 else 1⟩ }

/-- 42 R162: while a bit is left EGET answers the lowest bit of PATH, and changes nothing. -/
def Obligations.EgetReturnsTheLowestBit : Prop :=
  ∀ s : State, s.flt = false → s.path ≠ 1 →
    exec .eget s = .next { s with resp := some ⟨false, s.path % 2⟩ }

/-- 42 R163: while a bit is left ENXT shifts PATH right by one bit, and changes nothing else. -/
def Obligations.EnxtShiftsThePathWord : Prop :=
  ∀ s : State, s.flt = false → s.path ≠ 1 →
    exec .enxt s = .next { s with path := s.path >>> 1, resp := some ⟨false, 0⟩ }

/-- 40 R117, 42 R166: after `ELD s` and `j` ENXT commands PATH is `ETAB[s] >> j`, the path word of the code bits from `j` on,
EGET answers code bit `j` and HAS is false exactly at the end of the code; these bits, fed to a Reader, leave NEED true
before each of them and false after the last, and DRES then answers the symbol. -/
def Obligations.ReaderDecodesTheWritersBits : Prop :=
  ∀ (s : State) (sym : Nat) (code : List Bool), Ready s → sym < s.model.n → s.model.code s.cfg sym = some code →
    (∀ j ≤ code.length, ∃ t, runCommands (.eld sym :: List.replicate j .enxt) s = .next t ∧
      t.path = pathWord code >>> j ∧ t.path = pathWord (code.drop j) ∧ (has t = true ↔ j < code.length) ∧
      ∀ b, code[j]? = some b → exec .eget t = .next { t with resp := some ⟨false, b.toNat⟩ }) ∧
    (∀ j ≤ code.length, ∃ t, runCommands (.drst :: (code.take j).map .dbit) s = .next t ∧
      need t = .next (decide (j < code.length))) ∧
    ∃ t, runCommands (.drst :: code.map .dbit ++ [.dres]) s = .next t ∧ t.resp = some ⟨false, sym⟩

/-! ### System (44) -/

/-- 44 R220, 10 R28: GETST answers `flt = FLT` and STATUS (FLT in bit 0, CAUSE in bits 4:1, V0, V1, NEED, HAS in bits 5 to 8,
0 above), in the fault state too, and changes nothing. -/
def Obligations.GetstReportsStatus : Prop :=
  ∀ (s : State) (e : Int), Inv s → (s.model.entries s.cfg)[s.idx]? = some e →
    exec .getst s =
      .next { s with
        resp := some ⟨s.flt, s.flt.toNat + 2 * s.cause.code + 32 * s.c0.v.toNat + 64 * s.c1.v.toNat
          + 128 * (if 0 < e then 1 else 0) + 256 * (if s.path = 1 then 0 else 1)⟩ } ∧
    s.cause.code ≤ 7

/-! ### Contract faults (60) -/

/-- 60 R234, R241: every cursor command but CSET on a cursor with `V = 0` raises CURSOR_INVALID, whatever its other
operands, and has no other effect. -/
def Obligations.InvalidCursorFaults : Prop :=
  ∀ (s : State) (c : Cur) (i : Instr), s.flt = false → (s.cur c).v = false → i.cursor? = some c → i.opc ≠ 0x01 →
    exec i s = .next { s with flt := true, cause := .cursorInvalid, resp := some ⟨true, 0⟩ }

/-- 60 R235: RDRAW and WRRAW raise RAW_WIDTH when `cnt > TW`, with no bit read or written and the cursor where it was, and
raise no fault for `cnt <= TW` (0 and TW included). -/
def Obligations.RawWidthFaults : Prop :=
  ∀ (s : State) (c : Cur) (v n : Nat), s.flt = false → (s.cur c).v = true →
    (s.cfg.tw < n →
      exec (.rdraw c n) s = .next { s with flt := true, cause := .rawWidth, resp := some ⟨true, 0⟩ } ∧
      exec (.wrraw c v n) s = .next { s with flt := true, cause := .rawWidth, resp := some ⟨true, 0⟩ }) ∧
    (n ≤ s.cfg.tw → ∀ t, exec (.rdraw c n) s = .next t ∨ exec (.wrraw c v n) s = .next t → t.flt = false)

/-- 60 R236: ELD and WRHUF raise SYMBOL_RANGE when `symbol >= N`, and have no other effect. -/
def Obligations.SymbolRangeFaults : Prop :=
  ∀ (s : State) (sym : Nat), s.flt = false → s.model.n ≤ sym →
    exec (.eld sym) s = .next { s with flt := true, cause := .symbolRange, resp := some ⟨true, 0⟩ } ∧
    ∀ c, (s.cur c).v = true →
      exec (.wrhuf c sym) s = .next { s with flt := true, cause := .symbolRange, resp := some ⟨true, 0⟩ }

/-- 60 R237: ELSZ and BTSZ raise START_RANGE when `start > C[c].WP`, and have no other effect. -/
def Obligations.StartRangeFaults : Prop :=
  ∀ (s : State) (c : Cur) (start : Nat), s.flt = false → (s.cur c).v = true → (s.cur c).wp < start →
    exec (.elsz c start) s = .next { s with flt := true, cause := .startRange, resp := some ⟨true, 0⟩ } ∧
    exec (.btsz c start) s = .next { s with flt := true, cause := .startRange, resp := some ⟨true, 0⟩ }

/-- 60 R238: DBIT at a leaf and DRES at an internal node raise DEC_PROTOCOL, with IDX unchanged; RDHUF never does. -/
def Obligations.DecProtocolFaults : Prop :=
  ∀ (s : State) (e : Int), s.flt = false → (s.model.entries s.cfg)[s.idx]? = some e →
    (e ≤ 0 → ∀ b,
      exec (.dbit b) s = .next { s with flt := true, cause := .decProtocol, resp := some ⟨true, 0⟩ }) ∧
    (0 < e → exec .dres s = .next { s with flt := true, cause := .decProtocol, resp := some ⟨true, 0⟩ }) ∧
    (∀ c t, exec (.rdhuf c) s = .next t → t.cause = s.cause ∨ t.cause = .cursorInvalid)

/-- 60 R239: EGET and ENXT raise ENC_PROTOCOL when `PATH = 1`, with PATH unchanged; WRHUF never does. -/
def Obligations.EncProtocolFaults : Prop :=
  ∀ s : State, s.flt = false →
    (s.path = 1 →
      exec .eget s = .next { s with flt := true, cause := .encProtocol, resp := some ⟨true, 0⟩ } ∧
      exec .enxt s = .next { s with flt := true, cause := .encProtocol, resp := some ⟨true, 0⟩ }) ∧
    (∀ c sym t, exec (.wrhuf c sym) s = .next t →
      t.cause = s.cause ∨ t.cause = .cursorInvalid ∨ t.cause = .symbolRange)

/-- 60 R231: contract faults are precise. A command word that makes the block enter the fault state changes FLT and CAUSE,
responds `(flt = 1, res = 0)`, asserts the output FAULT, and changes nothing else. -/
def Obligations.FaultEntryIsPrecise : Prop :=
  ∀ (word : Nat) (s t : State), word < 2 ^ (16 + s.cfg.xw) → issue word s = .next t → s.flt = false →
    t.flt = true → t = { s with flt := true, cause := t.cause, resp := some ⟨true, 0⟩ } ∧ t.cause ≠ .none ∧ faultOutput t = true

/-- 60 R232: the table of causes. Whenever a command word makes the block enter the fault state, CAUSE is the code of a
condition that the table gives that command, and that condition held; no other code is ever produced, code 0 is the
code of `FLT = 0`, and nothing but the code is recorded: with FLT and the response, it is all that changes. -/
def Obligations.CauseNamesTheViolation : Prop :=
  (∀ s : State, Inv s → (s.cause.code = 0 ↔ s.flt = false)) ∧
  ∀ (word : Nat) (s t : State), word < 2 ^ (16 + s.cfg.xw) → issue word s = .next t → s.flt = false →
    t.flt = true →
    t = { s with flt := true, cause := t.cause, resp := some ⟨true, 0⟩ } ∧
    ((t.cause.code = 1 ∧ ∃ e, decode s.cfg word = .error e) ∨
    ∃ i, decode s.cfg word = .ok i ∧
      (t.cause.code = 2 ∧ i.opc ∈ [0x02, 0x03, 0x04, 0x05, 0x06, 0x07, 0x10, 0x11] ∧
          (∃ c, i.cursor? = some c ∧ (s.cur c).v = false) ∨
        t.cause.code = 3 ∧ i.opc ∈ [0x04, 0x05] ∧ s.cfg.tw < i.count ∨
        t.cause.code = 4 ∧ i.opc ∈ [0x0C, 0x11] ∧ s.model.n ≤ i.dat ∨
        t.cause.code = 5 ∧ i.opc ∈ [0x06, 0x07] ∧ (∃ c, i.cursor? = some c ∧ (s.cur c).wp < i.dat) ∨
        t.cause.code = 6 ∧ (i.opc = 0x0A ∧ need s = .next false ∨ i.opc = 0x0B ∧ need s = .next true) ∨
        t.cause.code = 7 ∧ i.opc ∈ [0x0E, 0x0F] ∧ s.path = 1))

/-- 60 R242: in the fault state GETST executes, and every other command word, legal or not, changes no state, touches no
memory and responds `(flt = 1, res = 0)`. -/
def Obligations.FaultStateRefusesCommands : Prop :=
  ∀ s : State, Inv s → s.flt = true →
    (∀ i, i ≠ .getst → exec i s = .next { s with resp := some ⟨true, 0⟩ }) ∧
    (∀ word < 2 ^ (16 + s.cfg.xw), (∀ i, decode s.cfg word ≠ .ok i) → issue word s = .next { s with resp := some ⟨true, 0⟩ }) ∧
    ∃ st, statusWord s = .next st ∧ exec .getst s = .next { s with resp := some ⟨true, st⟩ }

/-! ### What no step changes -/

/-- 60 R243, 10 R23, R26, R32, 20 R66, 40 R123, 70 R270: no step but a reset clears FLT, changes CAUSE while FLT is 1,
invalidates a cursor or changes the Model; no step at all changes the configuration. -/
def Obligations.OnlyResetUndoesFaultsCursorsAndModel : Prop :=
  ∀ s t : State, step s = .next t → t.cfg = s.cfg ∧
    (resetIsNext s = false →
      (s.flt = true → t.flt = true ∧ t.cause = s.cause) ∧
      (∀ c, (s.cur c).v = true → (t.cur c).v = true) ∧
      t.model = s.model)

/-- 10 R29: the table of which command writes which register. The other cursor is never touched; only CSET writes `V`;
only the bit-accessing commands and CSET move a cursor; only DRST, DBIT and RDHUF write IDX; only ELD, ENXT and WRHUF
write PATH; only WRBIT, WRRAW and WRHUF write BUF. -/
def Obligations.CommandsWriteOnlyTheirRegisters : Prop :=
  ∀ (i : Instr) (s t : State), exec i s = .next t →
    t.cfg = s.cfg ∧ t.model = s.model ∧ t.inbox = s.inbox ∧
    (∀ d, i.cursor? ≠ some d → t.cur d = s.cur d) ∧
    (i.opc ∉ [0x01, 0x02, 0x03, 0x04, 0x05, 0x10, 0x11] → ∀ d, t.cur d = s.cur d) ∧
    (i.opc ≠ 0x01 → ∀ d, (t.cur d).v = (s.cur d).v) ∧
    (i.opc ∉ [0x08, 0x0A, 0x10] → t.idx = s.idx) ∧
    (i.opc ∉ [0x0C, 0x0F, 0x11] → t.path = s.path) ∧
    (i.opc ∉ [0x03, 0x05, 0x11] → t.buf = s.buf)

/-- 20 R56, 43 R189: a write command changes no word but those its bits fall into. -/
def Obligations.WritesTouchOnlyTheirWords : Prop :=
  ∀ (i : Instr) (s t : State) (c : Cur) (bits : List Bool), ReadyCursor c s → i.cursor? = some c →
    writtenBits s i = some bits → exec i s = .next t →
    ∀ a, (∀ j < bits.length, bitAddr s.cfg ((s.cur c).pos s.cfg + j) ≠ a) → bufRead t.buf a = bufRead s.buf a

/-- 43 R181, 70 R273, 10 R32, 20 R57: no command ever clears a bit of BUF or changes EXTENT. -/
def Obligations.CommandsOnlySetBitsOfAllocatedWords : Prop :=
  ∀ (i : Instr) (s t : State), exec i s = .next t →
    (∀ a w j, bufRead s.buf a = some w → w.testBit j = true →
      ∃ w', bufRead t.buf a = some w' ∧ w'.testBit j = true) ∧
    (bufRising s.buf = true → extent t.buf = extent s.buf)

/-- 10 R23, R34, 93 U8: `WP` and `BO` of a cursor with `V = 0` are unobservable. Two states that differ only in them step
to outcomes that differ only in them. -/
def Obligations.InvalidCursorIsUnobservable : Prop :=
  ∀ s s' : State, observable s = observable s' →
    observableOutcome (step s) = observableOutcome (step s')

/-! ### The Huffman Model (40) -/

/-- 40 R115 (a), (b), (c): a well-formed table has N leaves and N - 1 internal positions, every skip distance is 2 to
2N - 2, both children of an internal position are positions above it, and for `N >= 2` the root is internal. -/
def Obligations.WellFormedTablesAreWalkClosed : Prop :=
  ∀ (cfg : Cfg) (m : Model), launchOk cfg m = true →
    (m.entries cfg).countP (fun e => decide (e ≤ 0)) = m.n ∧
    (m.entries cfg).countP (fun e => decide (0 < e)) = m.n - 1 ∧
    (∀ p e, (m.entries cfg)[p]? = some e → 0 < e →
      2 ≤ e ∧ e ≤ 2 * (m.n : Int) - 2 ∧ p + 1 ≤ 2 * m.n - 2 ∧ p + e.toNat ≤ 2 * m.n - 2) ∧
    (2 ≤ m.n → ∃ e, (m.entries cfg)[0]? = some e ∧ 0 < e)

/-- 40 R115 (d): no symbol's code is a prefix of another's. -/
def Obligations.CodesArePrefixFree : Prop :=
  ∀ (cfg : Cfg) (m : Model) (a b : Nat) (x y : List Bool), launchOk cfg m = true → a ≠ b →
    m.code cfg a = some x → m.code cfg b = some y → ¬ x <+: y

/-- 40 R115 (e): Kraft equality. The sum of `2^(-length)` over the alphabet is 1, written over the common denominator
`2^N`; every length is at most N - 1 (40 R115 (g)). -/
def Obligations.KraftEquality : Prop :=
  ∀ (cfg : Cfg) (m : Model), launchOk cfg m = true →
    ((List.range m.n).map fun s => 2 ^ (m.n - ((m.code cfg s).getD []).length)).sum = 2 ^ m.n ∧
    ∀ s < m.n, ∃ code, m.code cfg s = some code ∧ code.length ≤ m.n - 1

/-- 40 R115 (f), R116: every path word is at least 1 and fits `PW` bits, and it is 1 only when `N = 1`. -/
def Obligations.PathWordsAreInRange : Prop :=
  ∀ (cfg : Cfg) (m : Model) (s : Nat), launchOk cfg m = true → s < m.n →
    ∃ p, m.etab[s]? = some p ∧ 1 ≤ p ∧ p < 2 ^ cfg.pw ∧ (p = 1 ↔ m.n = 1)

/-- 40 R119 to R122, R121's last sentence: whatever the tie-break and the child order, the tables that the Builder makes
of N registered frequencies are a well-formed Model. -/
def Obligations.EveryBuilderMakesAWellFormedModel : Prop :=
  ∀ (cfg : Cfg) (n : Nat) (outputs : List (Nat × Nat)) (t : Tree) (m : Model), cfg.ok n = true →
    outputsOk n outputs = true → Merges (leavesOf outputs) t → flatten cfg n t = some m → launchOk cfg m = true

/-- 40 R120, R122: the reference builder only ever merges two nodes of lowest frequency, and it always ends with one
node. -/
def Obligations.ReferenceBuilderMergesTheLowest : Prop :=
  ∀ (n : Nat) (outputs : List (Nat × Nat)), outputsOk n outputs = true →
    ∃ t, mergeReference n n (leavesOf outputs) = some t ∧ Merges (leavesOf outputs) t
end

