-- ==== Sys2Proof/Laws/Bits.lean ====
section
/-! SUPPORT. The bit-field helpers: values of bit sequences, path words, sign extension. -/

namespace Sys2Proof

theorem bitsValue_lt (bs : List Bool) : bitsValue bs < 2 ^ bs.length := by
  induction bs with
  | nil => simp [bitsValue]
  | cons b bs ih =>
    have : b.toNat ≤ 1 := Bool.toNat_le b
    simp only [bitsValue, List.length_cons, Nat.pow_succ]
    omega

theorem testBit_cons (b : Bool) (n j : Nat) :
    (b.toNat + 2 * n).testBit j = if j = 0 then b else n.testBit (j - 1) := by
  cases j with
  | zero => cases b <;> simp [Nat.testBit_zero, Nat.add_mod]
  | succ j =>
    rw [Nat.testBit_succ]
    have : (b.toNat + 2 * n) / 2 = n := by
      cases b
      · simp
      · simp; omega
    simp [this]

/-- Bit `j` of the value of a bit sequence is bit `j` of the sequence (40 R112). -/
theorem testBit_bitsValue (bs : List Bool) (j : Nat) : (bitsValue bs).testBit j = bs[j]?.getD false := by
  induction bs generalizing j with
  | nil => simp [bitsValue]
  | cons b bs ih =>
    rw [bitsValue, testBit_cons]
    cases j with
    | zero => simp
    | succ j => simp [ih]

theorem pathWord_nil : pathWord [] = 1 := rfl

theorem pathWord_cons (b : Bool) (bs : List Bool) : pathWord (b :: bs) = b.toNat + 2 * pathWord bs := by
  simp only [pathWord, bitsValue, List.length_cons, Nat.pow_succ]
  omega

theorem pathWord_pos (bs : List Bool) : 1 ≤ pathWord bs := by
  have : 0 < 2 ^ bs.length := Nat.two_pow_pos _
  unfold pathWord
  omega

theorem pathWord_lt (bs : List Bool) : pathWord bs < 2 ^ (bs.length + 1) := by
  have := bitsValue_lt bs
  unfold pathWord
  rw [Nat.pow_succ]
  omega

theorem pathWord_cons_ne_one (b : Bool) (bs : List Bool) : pathWord (b :: bs) ≠ 1 := by
  have := pathWord_pos bs
  rw [pathWord_cons]
  omega

theorem pathWord_cons_testBit (b : Bool) (bs : List Bool) : (pathWord (b :: bs)).testBit 0 = b := by
  rw [pathWord_cons, testBit_cons]
  simp

theorem pathWord_cons_div (b : Bool) (bs : List Bool) : pathWord (b :: bs) / 2 = pathWord bs := by
  rw [pathWord_cons]
  cases b
  · simp
  · simp; omega

/-- The value of the low `n` bits of a number. -/
theorem bitsValue_range (v n : Nat) : bitsValue ((List.range n).map v.testBit) = v % 2 ^ n := by
  apply Nat.eq_of_testBit_eq
  intro j
  rw [testBit_bitsValue, Nat.testBit_mod_two_pow]
  by_cases h : j < n
  · simp [h]
  · simp [h]

/-- `log2` of a path word is the code length (40 R112). -/
theorem log2_pathWord (bs : List Bool) : Nat.log2 (pathWord bs) = bs.length := by
  have h1 : 2 ^ bs.length ≤ pathWord bs := by unfold pathWord; omega
  have h2 := pathWord_lt bs
  have hp : pathWord bs ≠ 0 := by have := pathWord_pos bs; omega
  apply Nat.le_antisymm
  · exact Nat.lt_succ_iff.mp ((Nat.log2_lt hp).mpr h2)
  · exact (Nat.le_log2 hp).mpr h1

/-- A path word determines its code (40 R112). -/
theorem pathWord_injective {bs cs : List Bool} (h : pathWord bs = pathWord cs) : bs = cs := by
  induction bs generalizing cs with
  | nil =>
    cases cs with
    | nil => rfl
    | cons c cs => exact absurd h.symm (pathWord_cons_ne_one c cs)
  | cons b bs ih =>
    cases cs with
    | nil => exact absurd h (pathWord_cons_ne_one b bs)
    | cons c cs =>
      have h0 : b = c := by rw [← pathWord_cons_testBit b bs, h, pathWord_cons_testBit]
      have h1 := ih (cs := cs) (by rw [← pathWord_cons_div b bs, h, pathWord_cons_div])
      rw [h0, h1]

/-- Reading back a pattern gives the entry, for an entry that `DW` bits hold (20 R65, 40 R111). -/
theorem sext_toPattern {dw : Nat} {e : Int} (hdw : 1 ≤ dw) (h1 : -(2 ^ (dw - 1) : Int) ≤ e)
    (h2 : e < 2 ^ (dw - 1)) : sext dw (toPattern dw e) = e := by
  obtain ⟨d, rfl⟩ : ∃ d, dw = d + 1 := ⟨dw - 1, by omega⟩
  simp only [Nat.add_sub_cancel] at h1 h2 ⊢
  unfold sext toPattern
  have hp : (2 : Int) ^ (d + 1) = 2 * 2 ^ d := by ring
  have hpos : (0 : Int) < 2 ^ d := by positivity
  have hcast : ((2 ^ d : Nat) : Int) = 2 ^ d := by push_cast; rfl
  rw [Nat.add_sub_cancel]
  by_cases hneg : 0 ≤ e
  · have hm : e % 2 ^ (d + 1) = e := Int.emod_eq_of_lt hneg (by omega)
    rw [hm, if_pos (by omega)]
    omega
  · have hm : e % 2 ^ (d + 1) = e + 2 ^ (d + 1) := by
      rw [← Int.add_emod_right, Int.emod_eq_of_lt (by omega) (by omega)]
    rw [hm, if_neg (by omega)]
    omega

theorem toPattern_lt (dw : Nat) (e : Int) : toPattern dw e < 2 ^ dw := by
  unfold toPattern
  have hpos : (0 : Int) < 2 ^ dw := by positivity
  have h0 := Int.emod_nonneg e (by omega : (2 : Int) ^ dw ≠ 0)
  have h1 := Int.emod_lt_of_pos e hpos
  have hcast : ((2 ^ dw : Nat) : Int) = 2 ^ dw := by push_cast; rfl
  omega

theorem le_two_pow_clog2 (n : Nat) : n ≤ 2 ^ clog2 n := by
  unfold clog2
  split
  · simpa using by omega
  · rename_i h
    have h0 : n - 1 ≠ 0 := by omega
    have := Nat.lt_log2_self (n := n - 1)
    have : n - 1 < 2 ^ (Nat.log2 (n - 1) + 1) := (Nat.log2_lt h0).mp (Nat.lt_succ_self _)
    omega

end Sys2Proof
end

