-- ==== Sys2Proof/Laws/State.lean ====
section
/-! SUPPORT. One lemma per field per update of State: the cursor write changes the named cursor and nothing else
(10 R29), and a write of another field leaves the cursors. -/

namespace Sys2Proof.Machine

@[simp] theorem setCur_cfg (s : State) (c : Cur) (k : Cursor) : (s.setCur c k).cfg = s.cfg := by cases c <;> rfl
@[simp] theorem setCur_model (s : State) (c : Cur) (k : Cursor) : (s.setCur c k).model = s.model := by cases c <;> rfl
@[simp] theorem setCur_idx (s : State) (c : Cur) (k : Cursor) : (s.setCur c k).idx = s.idx := by cases c <;> rfl
@[simp] theorem setCur_path (s : State) (c : Cur) (k : Cursor) : (s.setCur c k).path = s.path := by cases c <;> rfl
@[simp] theorem setCur_flt (s : State) (c : Cur) (k : Cursor) : (s.setCur c k).flt = s.flt := by cases c <;> rfl
@[simp] theorem setCur_cause (s : State) (c : Cur) (k : Cursor) : (s.setCur c k).cause = s.cause := by cases c <;> rfl
@[simp] theorem setCur_buf (s : State) (c : Cur) (k : Cursor) : (s.setCur c k).buf = s.buf := by cases c <;> rfl
@[simp] theorem setCur_inbox (s : State) (c : Cur) (k : Cursor) : (s.setCur c k).inbox = s.inbox := by cases c <;> rfl
@[simp] theorem setCur_resp (s : State) (c : Cur) (k : Cursor) : (s.setCur c k).resp = s.resp := by cases c <;> rfl
@[simp] theorem setCur_c0_of_c0 (s : State) (k : Cursor) : (s.setCur .c0 k).c0 = k := rfl
@[simp] theorem setCur_c1_of_c0 (s : State) (k : Cursor) : (s.setCur .c0 k).c1 = s.c1 := rfl
@[simp] theorem setCur_c0_of_c1 (s : State) (k : Cursor) : (s.setCur .c1 k).c0 = s.c0 := rfl
@[simp] theorem setCur_c1_of_c1 (s : State) (k : Cursor) : (s.setCur .c1 k).c1 = k := rfl
@[simp] theorem cur_c0 (s : State) : s.cur .c0 = s.c0 := rfl
@[simp] theorem cur_c1 (s : State) : s.cur .c1 = s.c1 := rfl

@[simp] theorem setCur_cur_same (s : State) (c : Cur) (k : Cursor) : (s.setCur c k).cur c = k := by cases c <;> rfl

/-- A command that names one cursor never touches the other (10 R29). -/
theorem setCur_cur_other (s : State) {c d : Cur} (k : Cursor) (h : d ≠ c) : (s.setCur c k).cur d = s.cur d := by
  cases c <;> cases d <;> first | rfl | exact absurd rfl h

@[simp] theorem cur_with_idx (s : State) (c : Cur) (x : Nat) : ({ s with idx := x }).cur c = s.cur c := by cases c <;> rfl
@[simp] theorem cur_with_path (s : State) (c : Cur) (x : Nat) : ({ s with path := x }).cur c = s.cur c := by cases c <;> rfl
@[simp] theorem cur_with_buf (s : State) (c : Cur) (x : List Cell) : ({ s with buf := x }).cur c = s.cur c := by
  cases c <;> rfl
@[simp] theorem cur_with_resp (s : State) (c : Cur) (x : Option Response) :
    ({ s with resp := x }).cur c = s.cur c := by cases c <;> rfl
@[simp] theorem cur_with_inbox (s : State) (c : Cur) (x : List HostMove) :
    ({ s with inbox := x }).cur c = s.cur c := by cases c <;> rfl

end Sys2Proof.Machine
end

