-- ==== Sys2Proof/Laws/Memory.lean ====
section
/-! SUPPORT. The buffer memory: read after write, and every memory operation keeps the canonical form and, for a
command's write, the set of allocated words. -/

namespace Sys2Proof.Machine

theorem bufRead_put_same (buf : List Cell) (a : Nat) (v : Nat) : bufRead (bufPut buf a v) a = some v := by
  induction buf with
  | nil => simp [bufPut, bufRead]
  | cons c rest ih =>
    obtain ⟨b, u⟩ := c
    simp only [bufPut]
    split
    · simp [bufRead]
    · split
      · simp [bufRead, *]
      · simp [bufRead, *]

theorem bufRead_put_other (buf : List Cell) {a b : Nat} (v : Nat) (h : b ≠ a) :
    bufRead (bufPut buf a v) b = bufRead buf b := by
  induction buf with
  | nil => simp [bufPut, bufRead, h]
  | cons c rest ih =>
    obtain ⟨d, u⟩ := c
    simp only [bufPut]
    split
    · simp [bufRead, h]
    · split
      · rename_i heq
        subst heq
        simp [bufRead, h]
      · by_cases hb : b = d
        · simp [bufRead, hb]
        · simp [bufRead, hb, ih]

/-- The two reads after a write, in one (20 R55: a write stores exactly the value written). -/
theorem bufRead_put (buf : List Cell) (a b : Nat) (v : Nat) :
    bufRead (bufPut buf a v) b = if b = a then some v else bufRead buf b := by
  by_cases h : b = a
  · simp [h, bufRead_put_same]
  · simp [h, bufRead_put_other]

/-- EXTENT is the set of addresses that have a value. -/
theorem mem_extent {buf : List Cell} {a : Nat} : a ∈ extent buf ↔ ∃ w, bufRead buf a = some w := by
  induction buf with
  | nil => simp [extent, bufRead]
  | cons c rest ih =>
    obtain ⟨b, u⟩ := c
    by_cases h : a = b
    · simp [extent, bufRead, h]
    · simp only [extent, List.map_cons, List.mem_cons, h, false_or, bufRead, if_false] at ih ⊢
      exact ih

theorem bufRead_eq_none {buf : List Cell} {a : Nat} : bufRead buf a = none ↔ a ∉ extent buf := by
  rw [mem_extent]
  cases bufRead buf a <;> simp

/-- The canonical form as a pairwise fact. -/
theorem bufRising_iff (buf : List Cell) : bufRising buf = true ↔ (extent buf).Pairwise (· < ·) := by
  induction buf with
  | nil => simp [bufRising, extent]
  | cons c rest ih =>
    obtain ⟨a, v⟩ := c
    cases rest with
    | nil => simp [bufRising, extent]
    | cons d rest =>
      obtain ⟨b, u⟩ := d
      simp only [bufRising, Bool.and_eq_true, decide_eq_true_eq, ih]
      simp only [extent, List.map_cons, List.pairwise_cons, List.mem_cons]
      constructor
      · rintro ⟨hab, hb, hr⟩
        refine ⟨?_, hb, hr⟩
        rintro x (rfl | hx)
        · exact hab
        · exact Nat.lt_trans hab (hb x hx)
      · rintro ⟨ha, hb, hr⟩
        exact ⟨ha b (Or.inl rfl), hb, hr⟩

theorem mem_extent_put {buf : List Cell} {a x : Nat} {v : Nat} :
    x ∈ extent (bufPut buf a v) ↔ x = a ∨ x ∈ extent buf := by
  simp only [mem_extent, bufRead_put]
  by_cases h : x = a <;> simp [h]

/-- Writing keeps the canonical form. -/
theorem bufPut_rising {buf : List Cell} (a : Nat) (v : Nat) (h : bufRising buf = true) :
    bufRising (bufPut buf a v) = true := by
  rw [bufRising_iff] at h ⊢
  induction buf with
  | nil => simp [bufPut, extent]
  | cons c rest ih =>
    obtain ⟨b, u⟩ := c
    simp only [extent, List.map_cons, List.pairwise_cons] at h
    simp only [bufPut]
    split
    · rename_i hab
      simp only [extent, List.map_cons, List.pairwise_cons, List.mem_cons]
      refine ⟨?_, h⟩
      rintro x (rfl | hx)
      · exact hab
      · exact Nat.lt_trans hab (h.1 x hx)
    · split
      · simpa only [extent, List.map_cons, List.pairwise_cons] using h
      · rename_i h1 h2
        have hrec := ih h.2
        simp only [extent, List.map_cons, List.pairwise_cons] at hrec ⊢
        refine ⟨?_, hrec⟩
        intro x hx
        have hx' : x ∈ extent (bufPut rest a v) := hx
        rw [mem_extent_put] at hx'
        rcases hx' with rfl | hx'
        · omega
        · exact h.1 x hx'

/-- A write to an allocated word leaves EXTENT as it is (10 R32: EXTENT is no state of the block). -/
theorem extent_put_of_mem {buf : List Cell} {a : Nat} (v : Nat) (hr : bufRising buf = true)
    (h : a ∈ extent buf) : extent (bufPut buf a v) = extent buf := by
  rw [bufRising_iff] at hr
  induction buf with
  | nil => simp [extent] at h
  | cons c rest ih =>
    obtain ⟨b, u⟩ := c
    simp only [extent, List.map_cons, List.pairwise_cons, List.mem_cons] at h hr
    simp only [bufPut]
    split
    · rename_i hab
      rcases h with rfl | h
      · omega
      · have := hr.1 a h
        omega
    · split
      · rfl
      · rename_i h1 h2
        rcases h with rfl | h
        · exact absurd rfl h2
        · have := ih hr.2 h
          simp only [extent, List.map_cons] at this ⊢
          rw [this]

theorem bufRead_mem {buf : List Cell} {a : Nat} {w : Nat} (h : bufRead buf a = some w) : (a, w) ∈ buf := by
  induction buf with
  | nil => simp [bufRead] at h
  | cons c rest ih =>
    obtain ⟨b, u⟩ := c
    simp only [bufRead] at h
    split at h
    · simp_all
    · exact List.mem_cons_of_mem _ (ih h)

theorem memory_wf_iff {cfg : Cfg} {buf : List Cell} : Memory.wf cfg buf = true ↔
    bufRising buf = true ∧ ∀ c ∈ buf, c.1 < 2 ^ cfg.aw ∧ c.2 < 2 ^ cfg.w := by
  simp [Memory.wf]

/-- An allocated word has its address and its value in range. -/
theorem memory_wf_read {cfg : Cfg} {buf : List Cell} {a : Nat} {w : Nat} (h : Memory.wf cfg buf = true)
    (hr : bufRead buf a = some w) : a < 2 ^ cfg.aw ∧ w < 2 ^ cfg.w :=
  (memory_wf_iff.mp h).2 _ (bufRead_mem hr)

theorem mem_put {buf : List Cell} {a : Nat} {v : Nat} {c : Cell} (h : c ∈ bufPut buf a v) :
    c = (a, v) ∨ c ∈ buf := by
  induction buf with
  | nil => simpa [bufPut] using h
  | cons d rest ih =>
    obtain ⟨b, u⟩ := d
    simp only [bufPut] at h
    split at h
    · simpa using h
    · split at h
      · rename_i heq
        subst heq
        rcases List.mem_cons.mp h with rfl | h
        · exact Or.inl rfl
        · exact Or.inr (List.mem_cons_of_mem _ h)
      · rcases List.mem_cons.mp h with rfl | h
        · exact Or.inr (by simp)
        · rcases ih h with h | h
          · exact Or.inl h
          · exact Or.inr (List.mem_cons_of_mem _ h)

/-- Writing a word in range keeps the memory well-formed. -/
theorem memory_wf_put {cfg : Cfg} {buf : List Cell} {a : Nat} {v : Nat} (h : Memory.wf cfg buf = true)
    (ha : a < 2 ^ cfg.aw) (hv : v < 2 ^ cfg.w) : Memory.wf cfg (bufPut buf a v) = true := by
  rw [memory_wf_iff] at h ⊢
  refine ⟨bufPut_rising a v h.1, fun c hc => ?_⟩
  rcases mem_put hc with rfl | hc
  · exact ⟨ha, hv⟩
  · exact h.2 c hc

/-- Two memories in canonical form that read the same everywhere are the same list. -/
theorem buf_ext {b1 b2 : List Cell} (h1 : bufRising b1 = true) (h2 : bufRising b2 = true)
    (h : ∀ a, bufRead b1 a = bufRead b2 a) : b1 = b2 := by
  rw [bufRising_iff] at h1 h2
  induction b1 generalizing b2 with
  | nil =>
    cases b2 with
    | nil => rfl
    | cons d _ =>
      have := h d.1
      simp [bufRead] at this
  | cons c r1 ih =>
    cases b2 with
    | nil =>
      have := h c.1
      simp [bufRead] at this
    | cons d r2 =>
      obtain ⟨a, v⟩ := c
      obtain ⟨b, u⟩ := d
      simp only [extent, List.map_cons, List.pairwise_cons] at h1 h2
      have hab : a = b := by
        have ha := h a
        have hb := h b
        by_contra hne
        simp only [bufRead, if_true, hne, if_false] at ha
        have hm : a ∈ extent r2 := mem_extent.mpr ⟨v, ha.symm⟩
        have hlt := h2.1 a hm
        rw [show bufRead ((a, v) :: r1) b = bufRead r1 b by simp [bufRead, Ne.symm hne]] at hb
        simp only [bufRead, if_true] at hb
        have hlt' := h1.1 b (mem_extent.mpr ⟨u, hb⟩)
        omega
      subst hab
      have hv : v = u := by simpa [bufRead] using h a
      subst hv
      congr 1
      refine ih h1.2 h2.2 fun x => ?_
      by_cases hx : x = a
      · subst hx
        have n1 : bufRead r1 x = none := bufRead_eq_none.mpr fun hm => Nat.lt_irrefl _ (h1.1 x hm)
        have n2 : bufRead r2 x = none := bufRead_eq_none.mpr fun hm => Nat.lt_irrefl _ (h2.1 x hm)
        rw [n1, n2]
      · simpa [bufRead, hx] using h x

end Sys2Proof.Machine
end

