-- ==== Sys2Proof/Laws/Outcome.lean ====
section
/-! SUPPORT. Sequencing of results: what `andThen` answers, said once, and the inversions of the shared guards. -/

namespace Sys2Proof.Machine

@[simp] theorem andThen_next {α β : Type} (a : α) (f : α → Res β) : andThen (.next a) f = f a := rfl

@[simp] theorem andThen_fault {α β : Type} (e : Fault) (f : α → Res β) : andThen (.fault e) f = .fault e := rfl

@[simp] theorem andThen_refused {α β : Type} (e : Refusal) (f : α → Res β) :
    andThen (.refused e) f = .refused e := rfl

/-- A sequence answers a result exactly when both parts do. -/
theorem andThen_eq_next {α β : Type} {r : Res α} {f : α → Res β} {b : β} :
    andThen r f = .next b ↔ ∃ a, r = .next a ∧ f a = .next b := by
  cases r <;> simp

/-- A sequence faults exactly when its first part does or its second part does. -/
theorem andThen_eq_fault {α β : Type} {r : Res α} {f : α → Res β} {e : Fault} :
    andThen r f = .fault e ↔ r = .fault e ∨ ∃ a, r = .next a ∧ f a = .fault e := by
  cases r <;> simp

/-- A sequence refuses exactly when its first part does or its second part does. -/
theorem andThen_eq_refused {α β : Type} {r : Res α} {f : α → Res β} {e : Refusal} :
    andThen r f = .refused e ↔ r = .refused e ∨ ∃ a, r = .next a ∧ f a = .refused e := by
  cases r <;> simp

theorem andThen_assoc {α β γ : Type} (r : Res α) (f : α → Res β) (g : β → Res γ) :
    andThen (andThen r f) g = andThen r fun a => andThen (f a) g := by
  cases r <;> rfl

/-- What a command's first check lets through (60 R241, R242). -/
theorem whenClear_of_clear {s : State} {r : Res State} (h : s.flt = false) : whenClear s r = r := by
  simp [whenClear, h]

theorem whenClear_of_fault {s : State} {r : Res State} (h : s.flt = true) : whenClear s r = refuseCommand s := by
  simp [whenClear, h]

theorem whenValid_of_valid {c : Cur} {s : State} {r : Res State} (h : (s.cur c).v = true) :
    whenValid c s r = r := by
  simp [whenValid, h]

theorem whenValid_of_invalid {c : Cur} {s : State} {r : Res State} (h : (s.cur c).v = false) :
    whenValid c s r = raise .cursorInvalid s := by
  simp [whenValid, h]

end Sys2Proof.Machine
end

