-- ==== Sys2Proof/Laws/Stream.lean ====
section
/-! SUPPORT. The position law of 43 R189, once per bit primitive and once per loop: what `readBit`, `writeBit`, `readRaw`,
`writeRaw`, `emit` answer, in terms of stream positions. -/

namespace Sys2Proof.Machine

variable {cfg : Cfg} {buf buf' : List Cell} {k : Cursor}

/-! ### Positions -/

theorem inRange_iff : k.inRange cfg = true ↔ k.wp < 2 ^ cfg.aw ∧ k.bo ≤ cfg.w := by simp [Cursor.inRange]

/-- Stream positions that agree modulo the size of the address space name the same bit (20 R59). -/
theorem bitAddr_congr {p q : Nat} (h : p % (cfg.w * 2 ^ cfg.aw) = q % (cfg.w * 2 ^ cfg.aw)) :
    bitAddr cfg p = bitAddr cfg q := by
  unfold bitAddr
  rw [← Nat.mod_mul_right_div_self, ← Nat.mod_mul_right_div_self, h]

theorem bitOffset_congr {p q : Nat} (h : p % (cfg.w * 2 ^ cfg.aw) = q % (cfg.w * 2 ^ cfg.aw)) :
    p % cfg.w = q % cfg.w := by
  rw [← Nat.mod_mul_right_mod p cfg.w (2 ^ cfg.aw), h, Nat.mod_mul_right_mod]

theorem streamBit_congr {p q : Nat} (h : p % (cfg.w * 2 ^ cfg.aw) = q % (cfg.w * 2 ^ cfg.aw)) :
    streamBit cfg buf p = streamBit cfg buf q := by
  unfold streamBit
  rw [bitAddr_congr h, bitOffset_congr h]

theorem bitAddr_lt (p : Nat) : bitAddr cfg p < 2 ^ cfg.aw := Nat.mod_lt _ (Nat.two_pow_pos _)

/-- The lazily advanced cursor stands on the word and bit of its position (20 R56, 43 R189). -/
theorem advance_eq (hw : 1 ≤ cfg.w) (hk : k.inRange cfg = true) :
    advance cfg k = ⟨bitAddr cfg (k.pos cfg), k.pos cfg % cfg.w, k.v⟩ := by
  obtain ⟨hwp, hbo⟩ := inRange_iff.mp hk
  unfold advance bitAddr Cursor.pos
  split
  · rename_i h
    rw [h, show k.wp * cfg.w + cfg.w = (k.wp + 1) * cfg.w by ring, Nat.mul_div_cancel _ (by omega),
      Nat.mul_mod_left]
  · rename_i h
    have hlt : k.bo < cfg.w := by omega
    rw [show k.wp * cfg.w + k.bo = k.bo + cfg.w * k.wp by ring, Nat.add_mul_div_left _ _ (by omega),
      Nat.div_eq_of_lt hlt, Nat.add_mul_mod_self_left, Nat.mod_eq_of_lt hlt, Nat.zero_add, Nat.mod_eq_of_lt hwp]

@[simp] theorem cursorAfter_zero : cursorAfter cfg k 0 = k := by simp [cursorAfter]

theorem cursorAfter_one : cursorAfter cfg k 1 = ⟨bitAddr cfg (k.pos cfg), k.pos cfg % cfg.w + 1, k.v⟩ := by
  simp [cursorAfter]

@[simp] theorem cursorAfter_v (n : Nat) : (cursorAfter cfg k n).v = k.v := by
  unfold cursorAfter
  split <;> rfl

theorem cursorAfter_inRange (hw : 1 ≤ cfg.w) (hk : k.inRange cfg = true) (n : Nat) :
    (cursorAfter cfg k n).inRange cfg = true := by
  unfold cursorAfter
  split
  · exact hk
  · rw [inRange_iff]
    exact ⟨bitAddr_lt _, Nat.mod_lt _ (by omega)⟩

/-- The position after one access is one more, modulo the size of the address space. -/
theorem pos_cursorAfter_one (i : Nat) :
    ((cursorAfter cfg k 1).pos cfg + i) % (cfg.w * 2 ^ cfg.aw) = (k.pos cfg + 1 + i) % (cfg.w * 2 ^ cfg.aw) := by
  rw [cursorAfter_one]
  have hpos : (Cursor.mk (bitAddr cfg (k.pos cfg)) (k.pos cfg % cfg.w + 1) k.v).pos cfg
      = k.pos cfg % (cfg.w * 2 ^ cfg.aw) + 1 := by
    simp only [Cursor.pos, bitAddr]
    rw [Nat.mod_mul, Nat.mul_comm cfg.w]
    omega
  rw [hpos, Nat.add_assoc, Nat.add_assoc, Nat.mod_add_mod]

/-- One access and then `n` more are `n + 1` accesses (43 R189). -/
theorem cursorAfter_cursorAfter_one (n : Nat) :
    cursorAfter cfg (cursorAfter cfg k 1) n = cursorAfter cfg k (n + 1) := by
  cases n with
  | zero => simp
  | succ n =>
    have h := pos_cursorAfter_one (cfg := cfg) (k := k) n
    unfold cursorAfter at h ⊢
    simp only [Nat.succ_ne_zero, if_false, Nat.add_sub_cancel, one_ne_zero] at h ⊢
    rw [show ∀ x, x + (n + 1) - 1 = x + n by omega, show ∀ x, x + (n + 1 + 1) - 1 = x + 1 + n by omega,
      bitAddr_congr h, bitOffset_congr h]

theorem spells_cons {p : Nat} {b : Bool} {bs : List Bool} :
    spells cfg buf p (b :: bs) ↔ streamBit cfg buf p = some b ∧ spells cfg buf (p + 1) bs := by
  constructor
  · intro h
    refine ⟨by simpa using h 0 (by simp), fun i hi => ?_⟩
    have := h (i + 1) (by simpa using hi)
    rw [show p + 1 + i = p + (i + 1) by omega]
    simpa using this
  · rintro ⟨h0, h⟩ i hi
    cases i with
    | zero => simpa using h0
    | succ i =>
      have := h i (by simpa using hi)
      rw [show p + (i + 1) = p + 1 + i by omega]
      simpa using this

@[simp] theorem spells_nil {p : Nat} : spells cfg buf p [] := by
  intro i hi
  simp at hi

theorem spells_congr {p q : Nat} {bs : List Bool} (h : ∀ i, streamBit cfg buf (p + i) = streamBit cfg buf (q + i)) :
    spells cfg buf p bs ↔ spells cfg buf q bs := by
  unfold spells
  simp only [h]

theorem spells_after {bs : List Bool} :
    spells cfg buf ((cursorAfter cfg k 1).pos cfg) bs ↔ spells cfg buf (k.pos cfg + 1) bs :=
  spells_congr fun i => streamBit_congr (pos_cursorAfter_one i)

theorem streamBit_eq_none {p : Nat} : streamBit cfg buf p = none ↔ bitAddr cfg p ∉ extent buf := by
  unfold streamBit
  rw [← bufRead_eq_none]
  cases bufRead buf (bitAddr cfg p) <;> simp

theorem streamBit_isSome {p : Nat} : (∃ b, streamBit cfg buf p = some b) ↔ bitAddr cfg p ∈ extent buf := by
  have := streamBit_eq_none (cfg := cfg) (buf := buf) (p := p)
  cases h : streamBit cfg buf p with
  | none => simpa using this.mp h
  | some b =>
    simp only [Option.some.injEq, exists_eq', true_iff]
    by_contra hn
    simp [this.mpr hn] at h

/-- The stream bits of a stretch inside EXTENT. -/
theorem spells_of_reaches {p n : Nat} (h : reaches cfg buf p n) :
    spells cfg buf p ((List.range n).map fun i => (streamBit cfg buf (p + i)).getD false) := by
  intro i hi
  have hi' : i < n := by simpa using hi
  obtain ⟨b, hb⟩ := streamBit_isSome.mpr (h i hi')
  simp [hi', hb]

theorem reaches_of_spells {p : Nat} {bs : List Bool} (h : spells cfg buf p bs) : reaches cfg buf p bs.length := by
  intro i hi
  exact streamBit_isSome.mp ⟨_, by rw [h i hi, List.getElem?_eq_getElem hi]⟩

theorem reaches_after {n : Nat} :
    reaches cfg buf ((cursorAfter cfg k 1).pos cfg) n ↔ reaches cfg buf (k.pos cfg + 1) n := by
  unfold reaches
  refine forall_congr' fun i => ?_
  rw [bitAddr_congr (pos_cursorAfter_one i)]

theorem reaches_succ {p n : Nat} :
    reaches cfg buf p (n + 1) ↔ bitAddr cfg p ∈ extent buf ∧ reaches cfg buf (p + 1) n := by
  constructor
  · intro h
    refine ⟨by simpa using h 0 (by omega), fun i hi => ?_⟩
    rw [show p + 1 + i = p + (i + 1) by omega]
    exact h (i + 1) (by omega)
  · rintro ⟨h0, h⟩ i hi
    cases i with
    | zero => simpa using h0
    | succ i =>
      rw [show p + (i + 1) = p + 1 + i by omega]
      exact h i (by omega)

/-! ### Reading -/

/-- `read_bit` (43 R180): the stream bit at the cursor's position and the cursor after one access; UB_EXTENT where that
word is outside EXTENT. -/
theorem readBit_eq (hw : 1 ≤ cfg.w) (hk : k.inRange cfg = true) :
    readBit cfg buf k = match streamBit cfg buf (k.pos cfg) with
      | some b => .next (b, cursorAfter cfg k 1)
      | none => .fault .ubExtent := by
  unfold readBit memRead streamBit
  rw [advance_eq hw hk, cursorAfter_one]
  cases bufRead buf (bitAddr cfg (k.pos cfg)) <;> rfl

/-- The RDRAW loop over known stream bits (43 R185). -/
theorem readRaw_eq (hw : 1 ≤ cfg.w) (bs : List Bool) (i v : Nat) (hk : k.inRange cfg = true)
    (h : spells cfg buf (k.pos cfg) bs) :
    readRaw cfg buf bs.length i v k = .next (v ||| bitsValue bs <<< i, cursorAfter cfg k bs.length) := by
  induction bs generalizing i v k with
  | nil => simp [readRaw, bitsValue]
  | cons b bs ih =>
    obtain ⟨h0, h1⟩ := spells_cons.mp h
    simp only [List.length_cons, readRaw, readBit_eq hw hk, h0, andThen_next]
    rw [ih _ _ (cursorAfter_inRange hw hk 1) (spells_after.mpr h1), cursorAfter_cursorAfter_one]
    congr 2
    apply Nat.eq_of_testBit_eq
    intro j
    simp only [Nat.testBit_or, Nat.testBit_shiftLeft, bitsValue, testBit_cons]
    rcases Nat.lt_trichotomy j i with hj | rfl | hj
    · simp [show ¬ i ≤ j by omega, show ¬ i + 1 ≤ j by omega]
    · cases b <;> simp [Nat.testBit_zero]
    · have e1 : (b.toNat).testBit (j - i) = false := by
        apply Nat.testBit_lt_two_pow
        have := Bool.toNat_le b
        have := Nat.pow_le_pow_right (show 0 < 2 by omega) (show 1 ≤ j - i by omega)
        omega
      simp [show i ≤ j by omega, show i + 1 ≤ j by omega, show j - i ≠ 0 by omega, e1,
        show j - (i + 1) = j - i - 1 by omega]

/-- The RDRAW loop runs off EXTENT exactly when some word it needs is outside (20 R56, 60 R245). -/
theorem readRaw_fault (hw : 1 ≤ cfg.w) (n i v : Nat) (hk : k.inRange cfg = true)
    (h : ¬ reaches cfg buf (k.pos cfg) n) : readRaw cfg buf n i v k = .fault .ubExtent := by
  induction n generalizing i v k with
  | zero => exact absurd (fun i hi => by omega) h
  | succ n ih =>
    simp only [readRaw, readBit_eq hw hk]
    cases hb : streamBit cfg buf (k.pos cfg) with
    | none => rfl
    | some b =>
      simp only [andThen_next]
      refine ih _ _ (cursorAfter_inRange hw hk 1) fun hr => h ?_
      rw [reaches_succ]
      exact ⟨streamBit_isSome.mp ⟨b, hb⟩, reaches_after.mp hr⟩

/-! ### Writing -/

/-- Writing a list of bits through a cursor, the common shape of the WRRAW and WRHUF loops. -/
def writeBits (cfg : Cfg) : List Bool → List Cell → Cursor → Res (List Cell × Cursor)
  | [], buf, k => .next (buf, k)
  | b :: bs, buf, k => andThen (writeBit cfg b buf k) fun r => writeBits cfg bs r.1 r.2

theorem writeRaw_eq_writeBits (value n i : Nat) :
    writeRaw cfg value n i buf k = writeBits cfg ((List.range n).map fun j => value.testBit (i + j)) buf k := by
  induction n generalizing i buf k with
  | zero => rfl
  | succ n ih =>
    simp only [writeRaw, List.range_succ_eq_map, List.map_cons, List.map_map, writeBits, Nat.add_zero]
    congr 1
    funext r
    rw [ih]
    congr 1
    apply List.map_congr_left
    intro j _
    simp only [Function.comp, Nat.succ_eq_add_one]
    congr 1
    omega

theorem emit_eq_writeBits (code : List Bool) {fuel : Nat} (hf : code.length < fuel) :
    emit cfg fuel (pathWord code) buf k = writeBits cfg code buf k := by
  induction code generalizing fuel buf k with
  | nil =>
    obtain ⟨f, rfl⟩ : ∃ f, fuel = f + 1 := ⟨fuel - 1, by omega⟩
    simp [emit, pathWord_nil, writeBits]
  | cons b bs ih =>
    obtain ⟨f, rfl⟩ : ∃ f, fuel = f + 1 := ⟨fuel - 1, by simp at hf; omega⟩
    simp only [emit, pathWord_cons_ne_one, if_false, pathWord_cons_testBit, pathWord_cons_div, writeBits]
    congr 1
    funext r
    exact ih (by simpa using hf)

theorem writeBit_eq (hw : 1 ≤ cfg.w) (hk : k.inRange cfg = true) (b : Bool) :
    writeBit cfg b buf k = match bufRead buf (bitAddr cfg (k.pos cfg)) with
      | some w => .next (bufPut buf (bitAddr cfg (k.pos cfg)) (w ||| b.toNat <<< (k.pos cfg % cfg.w)),
          cursorAfter cfg k 1)
      | none => .fault .ubExtent := by
  unfold writeBit memRead memWrite
  rw [advance_eq hw hk, cursorAfter_one]
  cases h : bufRead buf (bitAddr cfg (k.pos cfg)) <;> simp

/-- A one-bit value shifted has that bit alone. -/
theorem testBit_bool_shift (b : Bool) (o j : Nat) : (b.toNat <<< o).testBit j = (b && decide (j = o)) := by
  rw [Nat.testBit_shiftLeft]
  cases b
  · simp
  · by_cases h : j = o
    · simp [h]
    · by_cases h' : o ≤ j
      · obtain ⟨d, hd⟩ : ∃ d, j - o = d + 1 := ⟨j - o - 1, by omega⟩
        simp [h, hd, Nat.testBit_succ]
      · simp [h, h']

theorem or_shift_lt {w o n : Nat} (b : Bool) (hw : w < 2 ^ n) (ho : o < n) : w ||| b.toNat <<< o < 2 ^ n := by
  apply Nat.or_lt_two_pow hw
  rw [Nat.shiftLeft_eq]
  have h1 : b.toNat ≤ 1 := Bool.toNat_le b
  have h2 : 2 ^ o < 2 ^ n := Nat.pow_lt_pow_right (by omega) ho
  calc b.toNat * 2 ^ o ≤ 1 * 2 ^ o := Nat.mul_le_mul_right _ h1
    _ < 2 ^ n := by omega

theorem Ored.refl (p : Nat) : Ored cfg p [] buf buf :=
  ⟨rfl, fun a w h => ⟨w, h, by simp⟩⟩

/-- Writing one bit and then the others. -/
theorem Ored.cons {p : Nat} {b : Bool} {bs : List Bool} {buf1 : List Cell} {w : Nat}
    (hw : bufRead buf (bitAddr cfg p) = some w) (hr : bufRising buf = true)
    (h1 : buf1 = bufPut buf (bitAddr cfg p) (w ||| b.toNat <<< (p % cfg.w)))
    (h : Ored cfg (p + 1) bs buf1 buf') : Ored cfg p (b :: bs) buf buf' := by
  subst h1
  refine ⟨h.1.trans (extent_put_of_mem _ hr (mem_extent.mpr ⟨w, hw⟩)), fun a u ha => ?_⟩
  have hsplit : ∀ j, (∃ i, (b :: bs)[i]? = some true ∧ bitAddr cfg (p + i) = a ∧ (p + i) % cfg.w = j) ↔
      (b = true ∧ bitAddr cfg p = a ∧ p % cfg.w = j) ∨
      (∃ i, bs[i]? = some true ∧ bitAddr cfg (p + 1 + i) = a ∧ (p + 1 + i) % cfg.w = j) := by
    intro j
    constructor
    · rintro ⟨i, hi, hj⟩
      cases i with
      | zero => exact Or.inl ⟨by simpa using hi, by simpa using hj⟩
      | succ i =>
        refine Or.inr ⟨i, by simpa using hi, ?_⟩
        rw [show p + 1 + i = p + (i + 1) by omega]
        exact hj
    · rintro (⟨hb, hj⟩ | ⟨i, hi, hj⟩)
      · exact ⟨0, by simp [hb], by simpa using hj⟩
      · refine ⟨i + 1, by simpa using hi, ?_⟩
        rw [show p + (i + 1) = p + 1 + i by omega]
        exact hj
  by_cases hx : a = bitAddr cfg p
  · subst hx
    rw [hw] at ha
    obtain rfl : w = u := by simpa using ha
    obtain ⟨w', hw', hbits⟩ := h.2 _ _ (bufRead_put_same _ _ _)
    refine ⟨w', hw', fun j => ?_⟩
    rw [hbits j, hsplit j, Nat.testBit_or, testBit_bool_shift]
    simp only [Bool.or_eq_true, Bool.and_eq_true, decide_eq_true_eq, true_and, or_assoc, eq_comm (a := j)]
  · obtain ⟨w', hw', hbits⟩ := h.2 a u (by rw [bufRead_put_other _ _ hx]; exact ha)
    refine ⟨w', hw', fun j => ?_⟩
    rw [hbits j, hsplit j]
    simp [Ne.symm hx]

/-- Everything a list of bit writes can do (43 R181, R189): with every touched word in EXTENT it answers the ORed buffer
and the cursor after that many accesses. -/
theorem writeBits_next (hw : 1 ≤ cfg.w) (bs : List Bool) (hk : k.inRange cfg = true)
    (hm : Memory.wf cfg buf = true) (h : reaches cfg buf (k.pos cfg) bs.length) :
    ∃ buf', writeBits cfg bs buf k = .next (buf', cursorAfter cfg k bs.length) ∧
      Ored cfg (k.pos cfg) bs buf buf' ∧ Memory.wf cfg buf' = true := by
  induction bs generalizing buf k with
  | nil => exact ⟨buf, by simp [writeBits], Ored.refl _, hm⟩
  | cons b bs ih =>
    obtain ⟨h0, h1⟩ := reaches_succ.mp h
    obtain ⟨w, hrd⟩ := mem_extent.mp h0
    have hrange := memory_wf_read hm hrd
    have hrise := (memory_wf_iff.mp hm).1
    have hm1 : Memory.wf cfg (bufPut buf (bitAddr cfg (k.pos cfg)) (w ||| b.toNat <<< (k.pos cfg % cfg.w))) = true :=
      memory_wf_put hm hrange.1 (or_shift_lt b hrange.2 (Nat.mod_lt _ (by omega)))
    have hext := extent_put_of_mem (w ||| b.toNat <<< (k.pos cfg % cfg.w)) hrise h0
    obtain ⟨buf', he, ho, hm'⟩ := ih (cursorAfter_inRange hw hk 1) hm1 (by
      rw [reaches_after]
      unfold reaches
      rw [hext]
      exact h1)
    refine ⟨buf', ?_, ?_, hm'⟩
    · simp only [writeBits, writeBit_eq hw hk, hrd, andThen_next, he, List.length_cons, cursorAfter_cursorAfter_one]
    · refine Ored.cons hrd hrise rfl ⟨ho.1, fun a u ha => ?_⟩
      obtain ⟨w', hw', hb⟩ := ho.2 a u ha
      refine ⟨w', hw', fun j => ?_⟩
      rw [hb j]
      simp only [bitAddr_congr (pos_cursorAfter_one _), bitOffset_congr (pos_cursorAfter_one _)]

/-- A list of bit writes runs off EXTENT exactly when some word it needs is outside (20 R56, 60 R245). -/
theorem writeBits_fault (hw : 1 ≤ cfg.w) (bs : List Bool) (hk : k.inRange cfg = true)
    (hr : bufRising buf = true) (h : ¬ reaches cfg buf (k.pos cfg) bs.length) :
    writeBits cfg bs buf k = .fault .ubExtent := by
  induction bs generalizing buf k with
  | nil => exact absurd (fun i hi => by simp at hi) h
  | cons b bs ih =>
    simp only [writeBits, writeBit_eq hw hk]
    cases hrd : bufRead buf (bitAddr cfg (k.pos cfg)) with
    | none => rfl
    | some w =>
      simp only [andThen_next]
      refine ih (cursorAfter_inRange hw hk 1) (bufPut_rising _ _ hr) fun hreach => h ?_
      have hmem : bitAddr cfg (k.pos cfg) ∈ extent buf := mem_extent.mpr ⟨w, hrd⟩
      rw [List.length_cons, reaches_succ]
      refine ⟨hmem, ?_⟩
      rw [reaches_after] at hreach
      unfold reaches at hreach ⊢
      rwa [extent_put_of_mem _ hr hmem] at hreach

/-! ### What a bit loop that answers has done -/

theorem readBit_next {b : Bool} {k' : Cursor} (hw : 1 ≤ cfg.w) (hk : k.inRange cfg = true)
    (h : readBit cfg buf k = .next (b, k')) :
    streamBit cfg buf (k.pos cfg) = some b ∧ k' = cursorAfter cfg k 1 := by
  rw [readBit_eq hw hk] at h
  split at h
  · rename_i b' hb
    simp only [Host.Outcome.next.injEq, Prod.mk.injEq] at h
    exact ⟨by rw [hb, h.1], h.2.symm⟩
  · cases h

/-- The RDRAW loop answers the number the bits denote and the cursor that many accesses on (43 R185). -/
theorem readRaw_next {n v : Nat} {k' : Cursor} (hw : 1 ≤ cfg.w) (hk : k.inRange cfg = true)
    (h : readRaw cfg buf n 0 0 k = .next (v, k')) :
    reaches cfg buf (k.pos cfg) n ∧ v = rawNumber cfg buf (k.pos cfg) n ∧ k' = cursorAfter cfg k n := by
  by_cases hr : reaches cfg buf (k.pos cfg) n
  · have he := readRaw_eq hw _ 0 0 hk (spells_of_reaches hr)
    simp only [List.length_map, List.length_range] at he
    rw [he] at h
    simp only [Nat.zero_or, Nat.shiftLeft_zero, Host.Outcome.next.injEq, Prod.mk.injEq] at h
    exact ⟨hr, h.1.symm, h.2.symm⟩
  · rw [readRaw_fault hw n 0 0 hk hr] at h
    cases h

/-- A list of bit writes that answers has ORed the bits in and moved the cursor that many accesses on (43 R189). -/
theorem writeBits_cases {bs : List Bool} {k' : Cursor} (hw : 1 ≤ cfg.w) (hk : k.inRange cfg = true)
    (hm : Memory.wf cfg buf = true) (h : writeBits cfg bs buf k = .next (buf', k')) :
    reaches cfg buf (k.pos cfg) bs.length ∧ k' = cursorAfter cfg k bs.length ∧
      Ored cfg (k.pos cfg) bs buf buf' ∧ Memory.wf cfg buf' = true := by
  by_cases hr : reaches cfg buf (k.pos cfg) bs.length
  · obtain ⟨b1, h1, h2, h3⟩ := writeBits_next hw bs hk hm hr
    rw [h1] at h
    simp only [Host.Outcome.next.injEq, Prod.mk.injEq] at h
    obtain ⟨rfl, rfl⟩ := h
    exact ⟨hr, rfl, h2, h3⟩
  · rw [writeBits_fault hw bs hk (memory_wf_iff.mp hm).1 hr] at h
    cases h

theorem writeBit_eq_writeBits (b : Bool) : writeBit cfg b buf k = writeBits cfg [b] buf k := by
  simp only [writeBits]
  cases writeBit cfg b buf k <;> rfl

theorem writeRaw_eq_lowBits (v n : Nat) : writeRaw cfg v n 0 buf k = writeBits cfg (lowBits v n) buf k := by
  rw [writeRaw_eq_writeBits]
  simp [lowBits]

/-! ### Positions below the end of the address space -/

/-- `pos' = pos + n` (43 R189), where no address wraps. -/
theorem pos_cursorAfter {n : Nat} (hw : 1 ≤ cfg.w) (h : k.pos cfg + n ≤ cfg.w * 2 ^ cfg.aw) :
    (cursorAfter cfg k n).pos cfg = k.pos cfg + n := by
  unfold cursorAfter
  split
  · simp [*]
  · have hlt : (k.pos cfg + n - 1) / cfg.w < 2 ^ cfg.aw := by
      rw [Nat.div_lt_iff_lt_mul (by omega), Nat.mul_comm]
      omega
    have := Nat.div_add_mod (k.pos cfg + n - 1) cfg.w
    simp only [Cursor.pos, bitAddr] at *
    rw [Nat.mod_eq_of_lt hlt, Nat.mul_comm]
    omega

/-- Below the end of the address space a word address and a bit in it name one stream position. -/
theorem position_injective {p q : Nat} (hp : p < cfg.w * 2 ^ cfg.aw) (hq : q < cfg.w * 2 ^ cfg.aw)
    (h1 : bitAddr cfg p = bitAddr cfg q) (h2 : p % cfg.w = q % cfg.w) : p = q := by
  unfold bitAddr at h1
  rw [Nat.mod_eq_of_lt (Nat.div_lt_of_lt_mul hp), Nat.mod_eq_of_lt (Nat.div_lt_of_lt_mul hq)] at h1
  rw [← Nat.div_add_mod p cfg.w, ← Nat.div_add_mod q cfg.w, h1, h2]

/-- A written stretch that does not wrap reads as old bit OR new bit (43 R193). -/
theorem Ored.stream {p i : Nat} {bits : List Bool} {b : Bool} (h : Ored cfg p bits buf buf')
    (hp : p + bits.length ≤ cfg.w * 2 ^ cfg.aw) (hi : i < bits.length) (hb : streamBit cfg buf (p + i) = some b) :
    streamBit cfg buf' (p + i) = some (b || bits[i]) := by
  unfold streamBit at hb ⊢
  obtain ⟨w, hw, rfl⟩ := Option.map_eq_some_iff.mp hb
  obtain ⟨w', hw', hj⟩ := h.2 _ _ hw
  rw [hw']
  simp only [Option.map_some, Option.some.injEq]
  rw [Bool.eq_iff_iff, hj]
  simp only [Bool.or_eq_true]
  refine or_congr Iff.rfl ⟨?_, ?_⟩
  · rintro ⟨j, h1, h2, h3⟩
    have hjl : j < bits.length := (List.getElem?_eq_some_iff.mp h1).1
    have := position_injective (by omega) (by omega) h2 h3
    obtain rfl : j = i := by omega
    exact (List.getElem?_eq_some_iff.mp h1).2
  · intro hx
    exact ⟨i, by rw [List.getElem?_eq_getElem hi, hx], rfl, rfl⟩

end Sys2Proof.Machine
end

