-- ==== Sys2Proof/Laws/Tables.lean ====
section
/-! SUPPORT. What the launch premise gives (40 R114, R115): the tree a well-formed Decode Table denotes, walk closure,
leaves in range, path words in range, and that every bit sequence reaches a leaf. -/

namespace Sys2Proof

/-! ### The launch premise, unpacked -/

/-- The clauses of the launch premise under names of their own. -/
structure Launched (cfg : Cfg) (m : Model) : Prop where
  w_pos : 1 ≤ cfg.w
  tw_pos : 1 ≤ cfg.tw
  tw_le : cfg.tw ≤ 255
  pw_pos : 1 ≤ cfg.pw
  dw_pos : 1 ≤ cfg.dw
  dw_fits : 2 * m.n - 2 ≤ 2 ^ (cfg.dw - 1) - 1
  aw_pos : 1 ≤ cfg.aw
  tw_xw : cfg.tw ≤ cfg.xw
  aw_xw : cfg.aw + clog2 cfg.w + 1 ≤ cfg.xw
  n_xw_log : clog2 m.n ≤ cfg.xw
  xw_nine : 9 ≤ cfg.xw
  n_pos : 1 ≤ m.n
  n_xw : m.n ≤ 2 ^ cfg.xw
  dtab_length : m.dtab.length = 2 * m.n - 1
  etab_length : m.etab.length = m.n
  whole : endOf (m.entries cfg) m.dtab.length 0 = some (2 * m.n - 1)
  leaf_range : ∀ e ∈ m.entries cfg, 0 < e ∨ -e < (m.n : Int)
  leaf_once : ∀ s < m.n, (m.entries cfg).count (-(s : Int)) = 1
  symbol : ∀ s < m.n, m.symbolOk cfg s = true
  pattern : ∀ p ∈ m.dtab, p < 2 ^ cfg.dw

theorem launchOk_iff {cfg : Cfg} {m : Model} : launchOk cfg m = true ↔ Launched cfg m := by
  unfold launchOk Cfg.ok Model.wf
  simp only [Bool.and_eq_true, decide_eq_true_eq, List.mem_range]
  constructor
  · rintro ⟨⟨h1, h2, h3, h4, h5, h6, h7, h8, h9, h10, h11, h12, h13⟩, _, g1, g2, g3, g4, g5, g6, g7⟩
    exact ⟨h1, h2, h3, h4, h5, h6, h7, h8, h9, h10, h11, h12, h13, g1, g2, g3, g4, g5, g6, g7⟩
  · intro h
    exact ⟨⟨h.1, h.2, h.3, h.4, h.5, h.6, h.7, h.8, h.9, h.10, h.11, h.12, h.13⟩, h.12, h.14, h.15, h.16, h.17,
      h.18, h.19, h.20⟩

@[simp] theorem entries_length (cfg : Cfg) (m : Model) : (m.entries cfg).length = m.dtab.length := by
  simp [Model.entries]

/-! ### Subtrees -/

theorem endOf_bounds {d : List Int} {f p q : Nat} (h : endOf d f p = some q) : p < q ∧ q ≤ d.length := by
  induction f generalizing p q with
  | zero => simp [endOf] at h
  | succ f ih =>
    simp only [endOf] at h
    split at h
    · cases h
    · rename_i e he
      have hp := (List.getElem?_eq_some_iff.mp he).1
      split at h
      · cases h
        omega
      · split at h
        · cases h
        · rename_i q' hq'
          split at h
          · have h1 := ih hq'
            have h2 := ih h
            omega
          · cases h

/-- Every position of a subtree is the root of a subtree inside it. -/
theorem endOf_inside {d : List Int} {f p q : Nat} (h : endOf d f p = some q) {r : Nat} (h1 : p ≤ r) (h2 : r < q) :
    ∃ f' q', endOf d f' r = some q' ∧ q' ≤ q := by
  induction f generalizing p q with
  | zero => simp [endOf] at h
  | succ f ih =>
    by_cases hr : r = p
    · exact ⟨f + 1, q, by rw [hr]; exact h, Nat.le_refl q⟩
    · simp only [endOf] at h
      split at h
      · cases h
      · split at h
        · cases h
          omega
        · split at h
          · cases h
          · rename_i q' hq'
            split at h
            · by_cases hrq : r < q'
              · obtain ⟨f', q'', hq'', hle⟩ := ih hq' (by omega) hrq
                have := endOf_bounds h
                exact ⟨f', q'', hq'', by omega⟩
              · exact ih h (by omega) h2
            · cases h

/-- Walk closure (40 R115 (c)): both children of an internal position are positions, above it. -/
theorem Launched.children {cfg : Cfg} {m : Model} (h : Launched cfg m) {p : Nat} {e : Int}
    (hp : (m.entries cfg)[p]? = some e) (he : 0 < e) :
    p + 1 < m.dtab.length ∧ p < p + e.toNat ∧ p + e.toNat < m.dtab.length := by
  have hlen := (List.getElem?_eq_some_iff.mp hp).1
  rw [entries_length] at hlen
  obtain ⟨f, q, hq, hle⟩ := endOf_inside h.whole (Nat.zero_le p) (by have := h.dtab_length; omega)
  cases f with
  | zero => simp [endOf] at hq
  | succ f =>
    simp only [endOf, hp, show ¬ e ≤ 0 by omega, if_false] at hq
    split at hq
    · cases hq
    · rename_i q' hq'
      have hlen2 := h.dtab_length
      split at hq
      · have h1 := endOf_bounds hq'
        have h2 := endOf_bounds hq
        rw [entries_length] at h1 h2
        omega
      · cases hq

theorem Launched.leaf {cfg : Cfg} {m : Model} (h : Launched cfg m) {p : Nat} {e : Int}
    (hp : (m.entries cfg)[p]? = some e) (he : e ≤ 0) : (-e).toNat < m.n := by
  have := h.leaf_range e (List.mem_of_getElem? hp)
  omega

theorem Launched.entry {cfg : Cfg} {m : Model} (h : Launched cfg m) {p : Nat} (hp : p ≤ 2 * m.n - 2) :
    ∃ e, (m.entries cfg)[p]? = some e := by
  have h1 := h.dtab_length
  have h2 := h.n_pos
  have : p < (m.entries cfg).length := by rw [entries_length]; omega
  exact ⟨_, List.getElem?_eq_getElem this⟩

/-- The code and the path word of a symbol (WF4, WF5). -/
theorem Launched.code {cfg : Cfg} {m : Model} (h : Launched cfg m) {s : Nat} (hs : s < m.n) :
    ∃ c, m.code cfg s = some c ∧ m.etab[s]? = some (pathWord c) ∧ c.length + 1 ≤ cfg.pw := by
  have := h.symbol s hs
  unfold Model.symbolOk at this
  split at this
  · cases this
  · rename_i c hc
    exact ⟨c, hc, by simpa using this⟩

namespace Machine

/-! ### The tree denoted -/

theorem codeFrom_sound {d : List Int} {s f p : Nat} {c : List Bool} (h : codeFrom d s f p = some c) :
    c.length < f ∧ ∃ q, nodeAt d p c = some q ∧ d[q]? = some (-(s : Int)) := by
  induction f generalizing p c with
  | zero => simp [codeFrom] at h
  | succ f ih =>
    simp only [codeFrom] at h
    split at h
    · cases h
    · rename_i e he
      split at h
      · split at h
        · rename_i hle heq
          cases h
          exact ⟨by simp, p, rfl, by rw [he, heq]⟩
        · cases h
      · rename_i hpos
        split at h
        · rename_i c' hc'
          cases h
          obtain ⟨hl, q, hq, hdq⟩ := ih hc'
          exact ⟨by simpa using hl, q, by simpa [nodeAt, he, show 0 < e by omega, descend] using hq, hdq⟩
        · obtain ⟨c', hc', rfl⟩ := Option.map_eq_some_iff.mp h
          obtain ⟨hl, q, hq, hdq⟩ := ih hc'
          exact ⟨by simpa using hl, q, by simpa [nodeAt, he, show 0 < e by omega, descend] using hq, hdq⟩

end Machine

/-! ### Trees and tables -/

/-- The code a tree gives a symbol, first leaf in pre-order. -/
def Tree.code? : Tree → Nat → Option (List Bool)
  | .leaf x, s => if x = s then some [] else none
  | .node a b, s =>
    match a.code? s with
    | some c => some (false :: c)
    | none => (b.code? s).map (true :: ·)

theorem Tree.entries_pos (t : Tree) : 0 < t.entries.length := by cases t <;> simp [Tree.entries]

theorem Tree.entries_length (t : Tree) : t.entries.length + 1 = 2 * t.symbols.length := by
  induction t with
  | leaf s => rfl
  | node a b iha ihb => simp [Tree.entries, Tree.symbols]; omega

theorem Tree.drop_left {d rest : List Int} {p : Nat} {a b : Tree}
    (h : d.drop p = (Tree.node a b).entries ++ rest) :
    d[p]? = some ((a.entries.length : Int) + 1) ∧ d.drop (p + 1) = a.entries ++ (b.entries ++ rest) ∧
    d.drop (p + ((a.entries.length : Int) + 1).toNat) = b.entries ++ rest := by
  have h0 : d[p]? = some ((a.entries.length : Int) + 1) := by
    rw [← List.head?_drop, h]
    rfl
  have h1 : d.drop (p + 1) = a.entries ++ (b.entries ++ rest) := by
    rw [← List.drop_drop, h]
    simp [Tree.entries]
  refine ⟨h0, h1, ?_⟩
  rw [show p + ((a.entries.length : Int) + 1).toNat = p + 1 + a.entries.length by omega, ← List.drop_drop, h1]
  simp

theorem endOf_tree (t : Tree) {d rest : List Int} {f p : Nat} (h : d.drop p = t.entries ++ rest)
    (hf : t.entries.length ≤ f) : endOf d f p = some (p + t.entries.length) := by
  induction t generalizing f p rest with
  | leaf s =>
    obtain ⟨f, rfl⟩ : ∃ g, f = g + 1 := ⟨f - 1, by simp [Tree.entries] at hf; omega⟩
    have h0 : d[p]? = some (-(s : Int)) := by
      rw [← List.head?_drop, h]
      rfl
    simp [endOf, h0, Tree.entries]
  | node a b iha ihb =>
    simp only [Tree.entries, List.length_cons, List.length_append] at hf
    obtain ⟨f, rfl⟩ : ∃ g, f = g + 1 := ⟨f - 1, by omega⟩
    obtain ⟨h0, h1, h2⟩ := Tree.drop_left h
    have hb := ihb h2 (f := f) (by omega)
    have ha := iha h1 (f := f) (by omega)
    simp only [endOf, h0, show ¬ ((a.entries.length : Int) + 1 ≤ 0) by omega, if_false, ha]
    rw [if_pos (by omega), show p + 1 + a.entries.length = p + ((a.entries.length : Int) + 1).toNat by omega, hb]
    simp only [Tree.entries, List.length_cons, List.length_append]
    congr 1
    omega

theorem codeFrom_tree (t : Tree) (s : Nat) {d rest : List Int} {f p : Nat} (h : d.drop p = t.entries ++ rest)
    (hf : t.entries.length ≤ f) : codeFrom d s f p = t.code? s := by
  induction t generalizing f p rest with
  | leaf x =>
    obtain ⟨f, rfl⟩ : ∃ g, f = g + 1 := ⟨f - 1, by simp [Tree.entries] at hf; omega⟩
    have h0 : d[p]? = some (-(x : Int)) := by
      rw [← List.head?_drop, h]
      rfl
    simp [codeFrom, h0, Tree.code?]
  | node a b iha ihb =>
    simp only [Tree.entries, List.length_cons, List.length_append] at hf
    obtain ⟨f, rfl⟩ : ∃ g, f = g + 1 := ⟨f - 1, by omega⟩
    obtain ⟨h0, h1, h2⟩ := Tree.drop_left h
    have right : codeFrom d s f (p + (a.entries.length + 1)) = b.code? s := ihb h2 (f := f) (by omega)
    have step : ¬ ((a.entries.length : Int) + 1 ≤ 0) := by omega
    cases ha : a.code? s <;> simp [codeFrom, h0, step, iha h1 (f := f) (by omega), right, Tree.code?, ha]

/-- A table whose `end` is defined at a position holds a tree there (40 R113). -/
theorem tree_of_endOf {d : List Int} {f p q : Nat} (h : endOf d f p = some q) :
    ∃ (t : Tree) (rest : List Int), d.drop p = t.entries ++ rest ∧ q = p + t.entries.length := by
  induction f generalizing p q with
  | zero => simp [endOf] at h
  | succ f ih =>
    simp only [endOf] at h
    split at h
    · cases h
    · rename_i e he
      have hdrop : d.drop p = e :: d.drop (p + 1) := by
        obtain ⟨hp, rfl⟩ := List.getElem?_eq_some_iff.mp he
        exact List.drop_eq_getElem_cons hp
      split at h
      · rename_i hle
        cases h
        refine ⟨.leaf (-e).toNat, d.drop (p + 1), ?_, by simp [Tree.entries]⟩
        rw [hdrop]
        simp only [Tree.entries, List.singleton_append]
        congr 1
        omega
      · rename_i hpos
        split at h
        · cases h
        · rename_i q' hq'
          split at h
          · rename_i heq
            obtain ⟨a, ra, hda, hqa⟩ := ih hq'
            obtain ⟨b, rb, hdb, hqb⟩ := ih h
            have hra : ra = b.entries ++ rb := by
              rw [← hdb, hqa, ← List.drop_drop, hda]
              simp
            refine ⟨.node a b, rb, ?_, ?_⟩
            · rw [hdrop, hda, hra]
              simp only [Tree.entries, List.cons_append, List.append_assoc]
              congr 1
              omega
            · simp only [Tree.entries, List.length_cons, List.length_append]
              omega
          · cases h

theorem Tree.count_entries (t : Tree) (s : Nat) : t.entries.count (-(s : Int)) = t.symbols.count s := by
  induction t with
  | leaf x =>
    by_cases h : x = s
    · simp [Tree.entries, Tree.symbols, h]
    · simp [Tree.entries, Tree.symbols, h]
  | node a b iha ihb =>
    have hne : ((a.entries.length : Int) + 1 == -(s : Int)) = false := by
      rw [beq_eq_false_iff_ne]
      omega
    simp [Tree.entries, Tree.symbols, List.count_cons, hne, iha, ihb]

theorem Tree.mem_entries {t : Tree} {s : Nat} (h : s ∈ t.symbols) : -(s : Int) ∈ t.entries := by
  have := t.count_entries s
  rw [← List.count_pos_iff] at h ⊢
  omega

theorem Tree.code?_isSome {t : Tree} {s : Nat} : (∃ c, t.code? s = some c) ↔ s ∈ t.symbols := by
  induction t with
  | leaf x =>
    by_cases h : x = s
    · simp [Tree.code?, Tree.symbols, h]
    · simp [Tree.code?, Tree.symbols, h, Ne.symm h]
  | node a b iha ihb =>
    simp only [Tree.code?, Tree.symbols, List.mem_append, ← iha, ← ihb]
    cases a.code? s <;> cases b.code? s <;> simp

theorem Tree.code?_eq_none {t : Tree} {s : Nat} : t.code? s = none ↔ s ∉ t.symbols := by
  rw [← Tree.code?_isSome]
  cases t.code? s <;> simp

/-- The leaf a bit sequence leads to, with the bits used (41 R144: any sequence decodes to some symbol). -/
def Tree.follow : Tree → (Nat → Bool) → Nat × List Bool
  | .leaf s, _ => (s, [])
  | .node a b, f =>
    if f 0 then ((b.follow fun i => f (i + 1)).1, true :: (b.follow fun i => f (i + 1)).2)
    else ((a.follow fun i => f (i + 1)).1, false :: (a.follow fun i => f (i + 1)).2)

theorem Tree.follow_spec (t : Tree) (f : Nat → Bool) :
    (t.follow f).1 ∈ t.symbols ∧ (t.follow f).2.length + 1 ≤ t.symbols.length ∧
    (∀ i < (t.follow f).2.length, (t.follow f).2[i]? = some (f i)) ∧
    (t.symbols.Nodup → t.code? (t.follow f).1 = some (t.follow f).2) := by
  induction t generalizing f with
  | leaf s => simp [Tree.follow, Tree.symbols, Tree.code?]
  | node a b iha ihb =>
    have pa : 0 < a.symbols.length := by have := a.entries_length; have := a.entries_pos; omega
    have pb : 0 < b.symbols.length := by have := b.entries_length; have := b.entries_pos; omega
    by_cases h0 : f 0 = true
    · obtain ⟨h1, h2, h3, h4⟩ := ihb fun i => f (i + 1)
      simp only [Tree.follow, h0, if_true, Tree.symbols, List.mem_append, List.length_append, List.length_cons]
      refine ⟨Or.inr h1, by omega, ?_, ?_⟩
      · intro i hi
        cases i with
        | zero => simp [h0]
        | succ i => simpa using h3 i (by omega)
      · intro hnd
        obtain ⟨_, hb, hdis⟩ := List.nodup_append.mp hnd
        have hna : a.code? (b.follow fun i => f (i + 1)).1 = none :=
          Tree.code?_eq_none.mpr fun hm => hdis _ hm _ h1 rfl
        simp [Tree.code?, hna, h4 hb]
    · obtain ⟨h1, h2, h3, h4⟩ := iha fun i => f (i + 1)
      have h0' : f 0 = false := by simpa using h0
      simp only [Tree.follow, h0', Bool.false_eq_true, if_false, Tree.symbols, List.mem_append, List.length_append,
        List.length_cons]
      refine ⟨Or.inl h1, by omega, ?_, ?_⟩
      · intro i hi
        cases i with
        | zero => simp [h0']
        | succ i => simpa using h3 i (by omega)
      · intro hnd
        obtain ⟨ha, _, _⟩ := List.nodup_append.mp hnd
        simp [Tree.code?, h4 ha]

/-- The table of a well-formed Model is the pre-order layout of one tree whose leaves are the symbols of the alphabet,
each once (WF2, WF3). -/
theorem Launched.tree {cfg : Cfg} {m : Model} (h : Launched cfg m) :
    ∃ t : Tree, m.entries cfg = t.entries ∧ (∀ s, m.code cfg s = t.code? s) ∧ t.symbols.Nodup ∧
      t.symbols.length = m.n ∧ ∀ s, s ∈ t.symbols ↔ s < m.n := by
  obtain ⟨t, rest, hd, hq⟩ := tree_of_endOf h.whole
  have hlen : (m.entries cfg).length = 2 * m.n - 1 := by rw [Sys2Proof.entries_length, h.dtab_length]
  have hn := h.n_pos
  rw [List.drop_zero] at hd
  have hrest : rest = [] := by
    have := congrArg List.length hd
    rw [List.length_append, hlen] at this
    exact List.length_eq_zero_iff.mp (by omega)
  subst hrest
  rw [List.append_nil] at hd
  have hsl : t.symbols.length = m.n := by have := t.entries_length; omega
  have hmem : ∀ s, s ∈ t.symbols ↔ s < m.n := by
    intro s
    constructor
    · intro hs
      have := h.leaf_range _ (by rw [hd]; exact Tree.mem_entries hs)
      omega
    · intro hs
      have h1 := h.leaf_once s hs
      rw [hd, t.count_entries] at h1
      exact List.count_pos_iff.mp (by omega)
  refine ⟨t, hd, fun s => ?_, ?_, hsl, hmem⟩
  · exact codeFrom_tree t s (rest := []) (by simpa using hd) (by have := h.dtab_length; omega)
  · rw [List.nodup_iff_count_le_one]
    intro s
    by_cases hs : s < m.n
    · have h1 := h.leaf_once s hs
      rw [hd, t.count_entries] at h1
      omega
    · rw [List.count_eq_zero.mpr (fun hm => hs ((hmem s).mp hm))]
      omega

/-- Any bit sequence decodes to some symbol, within `N - 1` bits (40 R115 (c), 41 R144). -/
theorem Launched.decodes {cfg : Cfg} {m : Model} (h : Launched cfg m) (f : Nat → Bool) :
    ∃ s code, s < m.n ∧ m.code cfg s = some code ∧ code.length + 1 ≤ m.n ∧
      ∀ i < code.length, code[i]? = some (f i) := by
  obtain ⟨t, _, hcode, hnd, hlen, hmem⟩ := h.tree
  obtain ⟨h1, h2, h3, h4⟩ := t.follow_spec f
  exact ⟨_, _, (hmem _).mp h1, by rw [hcode]; exact h4 hnd, by omega, h3⟩

/-- The code of a symbol leads from the root to its leaf (40 R113). -/
theorem Launched.leafOf {s : Machine.State} (h : Launched s.cfg s.model) {sym : Nat} (hs : sym < s.model.n) :
    ∃ q c, Machine.leafOf s sym q c ∧ c.length + 1 ≤ s.cfg.pw ∧ s.model.etab[sym]? = some (pathWord c) ∧
      c.length < s.model.dtab.length := by
  obtain ⟨c, hc, he, hl⟩ := h.code hs
  obtain ⟨hlt, q, hq, hdq⟩ := Machine.codeFrom_sound hc
  exact ⟨q, c, ⟨hc, hq, hdq⟩, hl, he, hlt⟩

end Sys2Proof
end

