-- ==== Sys2Proof/Laws/Units.lean ====
section
/-! SUPPORT. What the invariant gives a command, what the table reads and the two Huffman loops answer, and what the
shared guards let through, each said once. -/

namespace Sys2Proof.Machine

/-! ### The invariant, unpacked -/

theorem Inv.launch {s : State} (h : Inv s) : Launched s.cfg s.model := launchOk_iff.mp h.launched

theorem Inv.cursor {s : State} (h : Inv s) (c : Cur) : (s.cur c).inRange s.cfg = true := by
  cases c
  · exact h.cursor0
  · exact h.cursor1

theorem Inv.rising {s : State} (h : Inv s) : bufRising s.buf = true := (memory_wf_iff.mp h.memory).1

theorem Inv.entry {s : State} (h : Inv s) : ∃ e, (s.model.entries s.cfg)[s.idx]? = some e := h.launch.entry h.index

/-! ### Table reads -/

/-- `DTAB[i]` is the entry, or the table has no such index. -/
theorem dtabAt_eq (s : State) (i : Nat) :
    dtabAt s i = match (s.model.entries s.cfg)[i]? with
      | some e => .next e
      | none => .refused .illFormedModel := by
  unfold dtabAt Model.entries
  rw [List.getElem?_map]
  cases s.model.dtab[i]? <;> rfl

theorem dtabAt_of {s : State} {i : Nat} {e : Int} (h : (s.model.entries s.cfg)[i]? = some e) :
    dtabAt s i = .next e := by
  rw [dtabAt_eq, h]

theorem etabAt_of {s : State} {i p : Nat} (h : s.model.etab[i]? = some p) : etabAt s i = .next p := by
  simp [etabAt, h]

theorem need_of {s : State} {e : Int} (h : (s.model.entries s.cfg)[s.idx]? = some e) :
    need s = .next (decide (0 < e)) := by
  simp [need, dtabAt_of h]

/-! ### The Huffman loops -/

/-- The RDHUF walk over known stream bits that lead to a leaf (43 R187). -/
theorem walk_eq {s : State} (hw : 1 ≤ s.cfg.w) {code : List Bool} {fuel p q : Nat} {k : Cursor} {sym : Nat}
    (hk : k.inRange s.cfg = true) (hp : nodeAt (s.model.entries s.cfg) p code = some q)
    (hq : (s.model.entries s.cfg)[q]? = some (-(sym : Int))) (hs : spells s.cfg s.buf (k.pos s.cfg) code)
    (hf : code.length < fuel) : walk s fuel p k = .next (q, sym, cursorAfter s.cfg k code.length) := by
  induction code generalizing fuel p k with
  | nil =>
    obtain ⟨f, rfl⟩ : ∃ f, fuel = f + 1 := ⟨fuel - 1, by omega⟩
    obtain rfl : p = q := by simpa [nodeAt] using hp
    simp [walk, dtabAt_of hq]
  | cons b code ih =>
    obtain ⟨f, rfl⟩ : ∃ f, fuel = f + 1 := ⟨fuel - 1, by omega⟩
    obtain ⟨h0, h1⟩ := spells_cons.mp hs
    simp only [nodeAt] at hp
    split at hp
    · cases hp
    · rename_i e he
      split at hp
      · rename_i hpos
        simp only [walk, dtabAt_of he, andThen_next, hpos, if_true, readBit_eq hw hk, h0]
        rw [ih (cursorAfter_inRange hw hk 1) hp (spells_after.mpr h1) (by simpa using hf),
          cursorAfter_cursorAfter_one, List.length_cons]
      · cases hp

/-- The RDHUF walk runs off EXTENT on a path whose words are not all allocated (20 R56, 60 R245). -/
theorem walk_fault {s : State} (hw : 1 ≤ s.cfg.w) {code : List Bool} {fuel p q : Nat} {k : Cursor}
    (hk : k.inRange s.cfg = true) (hp : nodeAt (s.model.entries s.cfg) p code = some q)
    (hs : ∀ i < code.length, ∀ b, streamBit s.cfg s.buf (k.pos s.cfg + i) = some b → code[i]? = some b)
    (hn : ¬ reaches s.cfg s.buf (k.pos s.cfg) code.length) (hf : code.length < fuel) :
    walk s fuel p k = .fault .ubExtent := by
  induction code generalizing fuel p k with
  | nil => exact absurd (fun i hi => by simp at hi) hn
  | cons b code ih =>
    obtain ⟨f, rfl⟩ : ∃ f, fuel = f + 1 := ⟨fuel - 1, by omega⟩
    simp only [nodeAt] at hp
    split at hp
    · cases hp
    · rename_i e he
      split at hp
      · rename_i hpos
        simp only [walk, dtabAt_of he, andThen_next, hpos, if_true, readBit_eq hw hk]
        cases h0 : streamBit s.cfg s.buf (k.pos s.cfg) with
        | none => rfl
        | some b' =>
          obtain rfl : b = b' := by simpa using hs 0 (by simp) b' (by simpa using h0)
          simp only [andThen_next]
          refine ih (cursorAfter_inRange hw hk 1) hp (fun i hi b hb => ?_) (fun hr => hn ?_) (by simpa using hf)
          · rw [streamBit_congr (pos_cursorAfter_one i), show k.pos s.cfg + 1 + i = k.pos s.cfg + (i + 1) by omega] at hb
            simpa using hs (i + 1) (by simpa using hi) b hb
          · rw [List.length_cons, reaches_succ]
            exact ⟨streamBit_isSome.mp ⟨_, h0⟩, reaches_after.mp hr⟩
      · cases hp

/-- The RDHUF walk that answers has read the code of a symbol of the alphabet and stands on its leaf (43 R187). -/
theorem walk_next {s : State} {k k' : Cursor} {q sym : Nat} (hl : Launched s.cfg s.model) (hk : k.inRange s.cfg = true)
    (h : walk s (s.model.dtab.length + 1) 0 k = .next (q, sym, k')) :
    ∃ code, sym < s.model.n ∧ leafOf s sym q code ∧ code.length ≤ s.model.n - 1 ∧
      spells s.cfg s.buf (k.pos s.cfg) code ∧ k' = cursorAfter s.cfg k code.length := by
  obtain ⟨sym', code, h1, h2, h3, h4⟩ := hl.decodes fun i => (streamBit s.cfg s.buf (k.pos s.cfg + i)).getD false
  obtain ⟨hlt, q', hq1, hq2⟩ := codeFrom_sound h2
  by_cases hr : reaches s.cfg s.buf (k.pos s.cfg) code.length
  · have hsp : spells s.cfg s.buf (k.pos s.cfg) code := by
      intro i hi
      obtain ⟨b, hb⟩ := streamBit_isSome.mpr (hr i hi)
      rw [h4 i hi, hb]
      rfl
    rw [walk_eq hl.w_pos hk hq1 hq2 hsp (by omega)] at h
    simp only [Host.Outcome.next.injEq, Prod.mk.injEq] at h
    obtain ⟨rfl, rfl, rfl⟩ := h
    exact ⟨code, h1, ⟨h2, hq1, hq2⟩, by omega, hsp, rfl⟩
  · rw [walk_fault hl.w_pos hk hq1 (fun i hi b hb => by rw [h4 i hi, hb]; rfl) hr (by omega)] at h
    cases h

/-- The WRHUF loop on the path word of a code (43 R188). -/
theorem emit_next {cfg : Cfg} {buf : List Cell} {k : Cursor} (hw : 1 ≤ cfg.w) (code : List Bool)
    (hk : k.inRange cfg = true) (hm : Memory.wf cfg buf = true) (h : reaches cfg buf (k.pos cfg) code.length)
    (hl : code.length + 1 ≤ cfg.pw) :
    ∃ buf', emit cfg cfg.pw (pathWord code) buf k = .next (buf', cursorAfter cfg k code.length) ∧
      Ored cfg (k.pos cfg) code buf buf' ∧ Memory.wf cfg buf' = true := by
  rw [emit_eq_writeBits code (by omega)]
  exact writeBits_next hw code hk hm h

/-- The WRRAW loop (43 R186). -/
theorem writeRaw_next {cfg : Cfg} {buf : List Cell} {k : Cursor} (hw : 1 ≤ cfg.w) (value n : Nat)
    (hk : k.inRange cfg = true) (hm : Memory.wf cfg buf = true) (h : reaches cfg buf (k.pos cfg) n) :
    ∃ buf', writeRaw cfg value n 0 buf k = .next (buf', cursorAfter cfg k n) ∧
      Ored cfg (k.pos cfg) (lowBits value n) buf buf' ∧ Memory.wf cfg buf' = true := by
  have e : (List.range n).map (fun j => value.testBit (0 + j)) = lowBits value n := by
    simp [lowBits]
  have hlen : (lowBits value n).length = n := by simp [lowBits]
  obtain ⟨buf', h1, h2, h3⟩ := writeBits_next hw (lowBits value n) hk hm (by rw [hlen]; exact h)
  rw [hlen] at h1
  exact ⟨buf', by rw [writeRaw_eq_writeBits, e, h1], h2, h3⟩

/-! ### What a guarded command can answer -/

/-- A command behind the fault-state check: refused, or run. -/
theorem whenClear_cases {s t : State} {r : Res State} (h : whenClear s r = .next t) :
    (s.flt = true ∧ t = { s with resp := some ⟨true, 0⟩ }) ∨ (s.flt = false ∧ r = .next t) := by
  unfold whenClear at h
  split at h
  · rename_i hf
    simp only [refuseCommand, Host.Outcome.next.injEq] at h
    exact Or.inl ⟨hf, h.symm⟩
  · rename_i hf
    exact Or.inr ⟨by simpa using hf, h⟩

/-- A guard that raises a cause: raised, or passed. -/
theorem whenValid_cases {c : Cur} {s t : State} {r : Res State} (h : whenValid c s r = .next t) :
    ((s.cur c).v = false ∧ raise .cursorInvalid s = .next t) ∨ ((s.cur c).v = true ∧ r = .next t) := by
  unfold whenValid at h
  split at h
  · rename_i hv
    exact Or.inr ⟨hv, h⟩
  · rename_i hv
    exact Or.inl ⟨by simpa using hv, h⟩

theorem whenRawWidth_cases {n : Nat} {s t : State} {r : Res State} (h : whenRawWidth n s r = .next t) :
    (s.cfg.tw < n ∧ raise .rawWidth s = .next t) ∨ (n ≤ s.cfg.tw ∧ r = .next t) := by
  unfold whenRawWidth at h
  split at h
  · rename_i hn
    exact Or.inl ⟨hn, h⟩
  · rename_i hn
    exact Or.inr ⟨by omega, h⟩

theorem whenSymbol_cases {sym : Nat} {s t : State} {r : Res State} (h : whenSymbol sym s r = .next t) :
    (s.model.n ≤ sym ∧ raise .symbolRange s = .next t) ∨ (sym < s.model.n ∧ r = .next t) := by
  unfold whenSymbol at h
  split at h
  · rename_i hn
    exact Or.inl ⟨hn, h⟩
  · rename_i hn
    exact Or.inr ⟨by omega, h⟩

theorem whenStart_cases {c : Cur} {start : Nat} {s t : State} {r : Res State}
    (h : whenStart c start s r = .next t) :
    ((s.cur c).wp < start ∧ raise .startRange s = .next t) ∨ (start ≤ (s.cur c).wp ∧ r = .next t) := by
  unfold whenStart at h
  split at h
  · rename_i hn
    exact Or.inl ⟨hn, h⟩
  · rename_i hn
    exact Or.inr ⟨by omega, h⟩

theorem raise_eq {x : Cause} {s t : State} (h : raise x s = .next t) :
    t = { s with flt := true, cause := x, resp := some ⟨true, 0⟩ } := by
  simpa [raise] using h.symm

theorem respond_eq {v : Nat} {s t : State} (h : respond v s = .next t) :
    t = { s with resp := some ⟨false, v⟩ } := by
  simpa [respond] using h.symm

end Sys2Proof.Machine
end

