-- ==== Sys2Proof/Laws/Commands.lean ====
section
/-! SUPPORT. What a command can do, said once for all eighteen: a command that answers a next state was refused in the
fault state, or raised a contract fault, or had its own effect. Statements about every command go through
`exec_cases` and never unfold a meaning again. -/

namespace Sys2Proof.Machine

/-- The effect of a command whose checks passed, with the condition under which it passed them. -/
def Effect (s t : State) : Instr → Prop
  | .cset c ptr => t = { s.setCur c ⟨ptr % 2 ^ s.cfg.aw, 0, true⟩ with resp := some ⟨false, 0⟩ }
  | .rdbit c => (s.cur c).v = true ∧ ∃ b k, readBit s.cfg s.buf (s.cur c) = .next (b, k) ∧
      t = { s.setCur c k with resp := some ⟨false, b.toNat⟩ }
  | .wrbit c bit => (s.cur c).v = true ∧ ∃ buf k, writeBit s.cfg bit s.buf (s.cur c) = .next (buf, k) ∧
      t = { { s with buf := buf }.setCur c k with resp := some ⟨false, 0⟩ }
  | .rdraw c n => (s.cur c).v = true ∧ n ≤ s.cfg.tw ∧
      ∃ v k, readRaw s.cfg s.buf n 0 0 (s.cur c) = .next (v, k) ∧
        t = { s.setCur c k with resp := some ⟨false, v⟩ }
  | .wrraw c value n => (s.cur c).v = true ∧ n ≤ s.cfg.tw ∧
      ∃ buf k, writeRaw s.cfg value n 0 s.buf (s.cur c) = .next (buf, k) ∧
        t = { { s with buf := buf }.setCur c k with resp := some ⟨false, 0⟩ }
  | .elsz c start => (s.cur c).v = true ∧ start ≤ (s.cur c).wp ∧
      t = { s with resp := some ⟨false, (s.cur c).wp - start + (if 0 < (s.cur c).bo then 1 else 0)⟩ }
  | .btsz c start => (s.cur c).v = true ∧ start ≤ (s.cur c).wp ∧
      t = { s with resp := some ⟨false, ((s.cur c).wp - start) * s.cfg.w + (s.cur c).bo⟩ }
  | .drst => t = { s with idx := 0, resp := some ⟨false, 0⟩ }
  | .dneed => ∃ e, (s.model.entries s.cfg)[s.idx]? = some e ∧
      t = { s with resp := some ⟨false, (decide (0 < e)).toNat⟩ }
  | .dbit bit => ∃ e, (s.model.entries s.cfg)[s.idx]? = some e ∧ 0 < e ∧
      t = { s with idx := descend s.idx e bit, resp := some ⟨false, 0⟩ }
  | .dres => ∃ e, (s.model.entries s.cfg)[s.idx]? = some e ∧ e ≤ 0 ∧
      t = { s with resp := some ⟨false, (-e).toNat⟩ }
  | .eld symbol => symbol < s.model.n ∧ ∃ p, s.model.etab[symbol]? = some p ∧
      t = { s with path := p, resp := some ⟨false, 0⟩ }
  | .ehas => t = { s with resp := some ⟨false, (has s).toNat⟩ }
  | .eget => s.path ≠ 1 ∧ t = { s with resp := some ⟨false, (s.path.testBit 0).toNat⟩ }
  | .enxt => s.path ≠ 1 ∧ t = { s with path := s.path / 2, resp := some ⟨false, 0⟩ }
  | .rdhuf c => (s.cur c).v = true ∧
      ∃ q sym k, walk s (s.model.dtab.length + 1) 0 (s.cur c) = .next (q, sym, k) ∧
        t = { { s with idx := q }.setCur c k with resp := some ⟨false, sym⟩ }
  | .wrhuf c symbol => (s.cur c).v = true ∧ symbol < s.model.n ∧ ∃ p buf k, s.model.etab[symbol]? = some p ∧
      emit s.cfg s.cfg.pw p s.buf (s.cur c) = .next (buf, k) ∧
        t = { { s with path := 1, buf := buf }.setCur c k with resp := some ⟨false, 0⟩ }
  | .getst => ∃ st, statusWord s = .next st ∧ t = { s with resp := some ⟨s.flt, st⟩ }

/-- The contract fault a command raises, with the violation that raised it (60 R232). -/
def Violation (s : State) (x : Cause) : Instr → Prop
  | .cset _ _ => False
  | .rdbit c => x = .cursorInvalid ∧ (s.cur c).v = false
  | .wrbit c _ => x = .cursorInvalid ∧ (s.cur c).v = false
  | .rdraw c n => x = .cursorInvalid ∧ (s.cur c).v = false ∨ (s.cur c).v = true ∧ x = .rawWidth ∧ s.cfg.tw < n
  | .wrraw c _ n => x = .cursorInvalid ∧ (s.cur c).v = false ∨ (s.cur c).v = true ∧ x = .rawWidth ∧ s.cfg.tw < n
  | .elsz c start => x = .cursorInvalid ∧ (s.cur c).v = false ∨
      (s.cur c).v = true ∧ x = .startRange ∧ (s.cur c).wp < start
  | .btsz c start => x = .cursorInvalid ∧ (s.cur c).v = false ∨
      (s.cur c).v = true ∧ x = .startRange ∧ (s.cur c).wp < start
  | .drst => False
  | .dneed => False
  | .dbit _ => x = .decProtocol ∧ need s = .next false
  | .dres => x = .decProtocol ∧ need s = .next true
  | .eld symbol => x = .symbolRange ∧ s.model.n ≤ symbol
  | .ehas => False
  | .eget => x = .encProtocol ∧ s.path = 1
  | .enxt => x = .encProtocol ∧ s.path = 1
  | .rdhuf c => x = .cursorInvalid ∧ (s.cur c).v = false
  | .wrhuf c symbol => x = .cursorInvalid ∧ (s.cur c).v = false ∨
      (s.cur c).v = true ∧ x = .symbolRange ∧ s.model.n ≤ symbol
  | .getst => False

theorem raise_violation {x : Cause} {s t : State} (h : raise x s = .next t) (i : Instr) (hv : Violation s x i) :
    ∃ x, Violation s x i ∧ t = { s with flt := true, cause := x, resp := some ⟨true, 0⟩ } :=
  ⟨x, hv, raise_eq h⟩

theorem dtabAt_next {s : State} {i : Nat} {e : Int} (h : dtabAt s i = .next e) :
    (s.model.entries s.cfg)[i]? = some e := by
  rw [dtabAt_eq] at h
  split at h
  · rename_i e' he
    cases h
    exact he
  · cases h

theorem etabAt_next {s : State} {i p : Nat} (h : etabAt s i = .next p) : s.model.etab[i]? = some p := by
  unfold etabAt at h
  split at h
  · rename_i he
    cases h
    exact he
  · cases h

theorem need_next {s : State} {b : Bool} (h : need s = .next b) :
    ∃ e, (s.model.entries s.cfg)[s.idx]? = some e ∧ b = decide (0 < e) := by
  obtain ⟨e, he, hb⟩ := andThen_eq_next.mp h
  exact ⟨e, dtabAt_next he, by simpa using hb.symm⟩

/-- Everything a command can do when it answers a next state. -/
theorem exec_cases {i : Instr} {s t : State} (h : exec i s = .next t) :
    (s.flt = true ∧ i ≠ .getst ∧ t = { s with resp := some ⟨true, 0⟩ }) ∨
    (s.flt = false ∧ ∃ x, Violation s x i ∧ t = { s with flt := true, cause := x, resp := some ⟨true, 0⟩ }) ∨
    ((s.flt = false ∨ i = .getst) ∧ Effect s t i) := by
  cases i with
  | cset c ptr =>
    obtain ⟨hf, ht⟩ | ⟨hf, h⟩ := whenClear_cases h
    · exact Or.inl ⟨hf, by simp, ht⟩
    · exact Or.inr (Or.inr ⟨Or.inl hf, respond_eq h⟩)
  | rdbit c =>
    obtain ⟨hf, ht⟩ | ⟨hf, h⟩ := whenClear_cases h
    · exact Or.inl ⟨hf, by simp, ht⟩
    obtain ⟨hv, h⟩ | ⟨hv, h⟩ := whenValid_cases h
    · exact Or.inr (Or.inl ⟨hf, raise_violation h _ ⟨rfl, hv⟩⟩)
    obtain ⟨⟨b, k⟩, h1, h2⟩ := andThen_eq_next.mp h
    exact Or.inr (Or.inr ⟨Or.inl hf, hv, b, k, h1, respond_eq h2⟩)
  | wrbit c bit =>
    obtain ⟨hf, ht⟩ | ⟨hf, h⟩ := whenClear_cases h
    · exact Or.inl ⟨hf, by simp, ht⟩
    obtain ⟨hv, h⟩ | ⟨hv, h⟩ := whenValid_cases h
    · exact Or.inr (Or.inl ⟨hf, raise_violation h _ ⟨rfl, hv⟩⟩)
    obtain ⟨⟨buf, k⟩, h1, h2⟩ := andThen_eq_next.mp h
    exact Or.inr (Or.inr ⟨Or.inl hf, hv, buf, k, h1, respond_eq h2⟩)
  | rdraw c n =>
    obtain ⟨hf, ht⟩ | ⟨hf, h⟩ := whenClear_cases h
    · exact Or.inl ⟨hf, by simp, ht⟩
    obtain ⟨hv, h⟩ | ⟨hv, h⟩ := whenValid_cases h
    · exact Or.inr (Or.inl ⟨hf, raise_violation h _ (Or.inl ⟨rfl, hv⟩)⟩)
    obtain ⟨hn, h⟩ | ⟨hn, h⟩ := whenRawWidth_cases h
    · exact Or.inr (Or.inl ⟨hf, raise_violation h _ (Or.inr ⟨hv, rfl, hn⟩)⟩)
    obtain ⟨⟨v, k⟩, h1, h2⟩ := andThen_eq_next.mp h
    exact Or.inr (Or.inr ⟨Or.inl hf, hv, hn, v, k, h1, respond_eq h2⟩)
  | wrraw c value n =>
    obtain ⟨hf, ht⟩ | ⟨hf, h⟩ := whenClear_cases h
    · exact Or.inl ⟨hf, by simp, ht⟩
    obtain ⟨hv, h⟩ | ⟨hv, h⟩ := whenValid_cases h
    · exact Or.inr (Or.inl ⟨hf, raise_violation h _ (Or.inl ⟨rfl, hv⟩)⟩)
    obtain ⟨hn, h⟩ | ⟨hn, h⟩ := whenRawWidth_cases h
    · exact Or.inr (Or.inl ⟨hf, raise_violation h _ (Or.inr ⟨hv, rfl, hn⟩)⟩)
    obtain ⟨⟨buf, k⟩, h1, h2⟩ := andThen_eq_next.mp h
    exact Or.inr (Or.inr ⟨Or.inl hf, hv, hn, buf, k, h1, respond_eq h2⟩)
  | elsz c start =>
    obtain ⟨hf, ht⟩ | ⟨hf, h⟩ := whenClear_cases h
    · exact Or.inl ⟨hf, by simp, ht⟩
    obtain ⟨hv, h⟩ | ⟨hv, h⟩ := whenValid_cases h
    · exact Or.inr (Or.inl ⟨hf, raise_violation h _ (Or.inl ⟨rfl, hv⟩)⟩)
    obtain ⟨hn, h⟩ | ⟨hn, h⟩ := whenStart_cases h
    · exact Or.inr (Or.inl ⟨hf, raise_violation h _ (Or.inr ⟨hv, rfl, hn⟩)⟩)
    exact Or.inr (Or.inr ⟨Or.inl hf, hv, hn, respond_eq h⟩)
  | btsz c start =>
    obtain ⟨hf, ht⟩ | ⟨hf, h⟩ := whenClear_cases h
    · exact Or.inl ⟨hf, by simp, ht⟩
    obtain ⟨hv, h⟩ | ⟨hv, h⟩ := whenValid_cases h
    · exact Or.inr (Or.inl ⟨hf, raise_violation h _ (Or.inl ⟨rfl, hv⟩)⟩)
    obtain ⟨hn, h⟩ | ⟨hn, h⟩ := whenStart_cases h
    · exact Or.inr (Or.inl ⟨hf, raise_violation h _ (Or.inr ⟨hv, rfl, hn⟩)⟩)
    exact Or.inr (Or.inr ⟨Or.inl hf, hv, hn, respond_eq h⟩)
  | drst =>
    obtain ⟨hf, ht⟩ | ⟨hf, h⟩ := whenClear_cases h
    · exact Or.inl ⟨hf, by simp, ht⟩
    · exact Or.inr (Or.inr ⟨Or.inl hf, respond_eq h⟩)
  | dneed =>
    obtain ⟨hf, ht⟩ | ⟨hf, h⟩ := whenClear_cases h
    · exact Or.inl ⟨hf, by simp, ht⟩
    obtain ⟨b, h1, h2⟩ := andThen_eq_next.mp h
    obtain ⟨e, he, rfl⟩ := need_next h1
    exact Or.inr (Or.inr ⟨Or.inl hf, e, he, respond_eq h2⟩)
  | dbit bit =>
    obtain ⟨hf, ht⟩ | ⟨hf, h⟩ := whenClear_cases h
    · exact Or.inl ⟨hf, by simp, ht⟩
    obtain ⟨e, h1, h2⟩ := andThen_eq_next.mp h
    have he := dtabAt_next h1
    split at h2
    · rename_i hle
      exact Or.inr (Or.inl ⟨hf, raise_violation h2 _ ⟨rfl, by rw [need_of he]; simp [hle]⟩⟩)
    · rename_i hle
      exact Or.inr (Or.inr ⟨Or.inl hf, e, he, by omega, respond_eq h2⟩)
  | dres =>
    obtain ⟨hf, ht⟩ | ⟨hf, h⟩ := whenClear_cases h
    · exact Or.inl ⟨hf, by simp, ht⟩
    obtain ⟨e, h1, h2⟩ := andThen_eq_next.mp h
    have he := dtabAt_next h1
    split at h2
    · rename_i hlt
      exact Or.inr (Or.inl ⟨hf, raise_violation h2 _ ⟨rfl, by rw [need_of he]; simp [hlt]⟩⟩)
    · rename_i hlt
      exact Or.inr (Or.inr ⟨Or.inl hf, e, he, by omega, respond_eq h2⟩)
  | eld symbol =>
    obtain ⟨hf, ht⟩ | ⟨hf, h⟩ := whenClear_cases h
    · exact Or.inl ⟨hf, by simp, ht⟩
    obtain ⟨hn, h⟩ | ⟨hn, h⟩ := whenSymbol_cases h
    · exact Or.inr (Or.inl ⟨hf, raise_violation h _ ⟨rfl, hn⟩⟩)
    obtain ⟨p, h1, h2⟩ := andThen_eq_next.mp h
    exact Or.inr (Or.inr ⟨Or.inl hf, hn, p, etabAt_next h1, respond_eq h2⟩)
  | ehas =>
    obtain ⟨hf, ht⟩ | ⟨hf, h⟩ := whenClear_cases h
    · exact Or.inl ⟨hf, by simp, ht⟩
    · exact Or.inr (Or.inr ⟨Or.inl hf, respond_eq h⟩)
  | eget =>
    obtain ⟨hf, ht⟩ | ⟨hf, h⟩ := whenClear_cases h
    · exact Or.inl ⟨hf, by simp, ht⟩
    split at h
    · rename_i hp
      exact Or.inr (Or.inl ⟨hf, raise_violation h _ ⟨rfl, hp⟩⟩)
    · rename_i hp
      exact Or.inr (Or.inr ⟨Or.inl hf, hp, respond_eq h⟩)
  | enxt =>
    obtain ⟨hf, ht⟩ | ⟨hf, h⟩ := whenClear_cases h
    · exact Or.inl ⟨hf, by simp, ht⟩
    split at h
    · rename_i hp
      exact Or.inr (Or.inl ⟨hf, raise_violation h _ ⟨rfl, hp⟩⟩)
    · rename_i hp
      exact Or.inr (Or.inr ⟨Or.inl hf, hp, respond_eq h⟩)
  | rdhuf c =>
    obtain ⟨hf, ht⟩ | ⟨hf, h⟩ := whenClear_cases h
    · exact Or.inl ⟨hf, by simp, ht⟩
    obtain ⟨hv, h⟩ | ⟨hv, h⟩ := whenValid_cases h
    · exact Or.inr (Or.inl ⟨hf, raise_violation h _ ⟨rfl, hv⟩⟩)
    obtain ⟨⟨q, sym, k⟩, h1, h2⟩ := andThen_eq_next.mp h
    exact Or.inr (Or.inr ⟨Or.inl hf, hv, q, sym, k, h1, respond_eq h2⟩)
  | wrhuf c symbol =>
    obtain ⟨hf, ht⟩ | ⟨hf, h⟩ := whenClear_cases h
    · exact Or.inl ⟨hf, by simp, ht⟩
    obtain ⟨hv, h⟩ | ⟨hv, h⟩ := whenValid_cases h
    · exact Or.inr (Or.inl ⟨hf, raise_violation h _ (Or.inl ⟨rfl, hv⟩)⟩)
    obtain ⟨hn, h⟩ | ⟨hn, h⟩ := whenSymbol_cases h
    · exact Or.inr (Or.inl ⟨hf, raise_violation h _ (Or.inr ⟨hv, rfl, hn⟩)⟩)
    obtain ⟨p, h1, h2⟩ := andThen_eq_next.mp h
    obtain ⟨⟨buf, k⟩, h3, h4⟩ := andThen_eq_next.mp h2
    exact Or.inr (Or.inr ⟨Or.inl hf, hv, hn, p, buf, k, etabAt_next h1, h3, respond_eq h4⟩)
  | getst =>
    obtain ⟨st, h1, h2⟩ := andThen_eq_next.mp h
    refine Or.inr (Or.inr ⟨Or.inr rfl, st, h1, ?_⟩)
    simpa using h2.symm

/-- What the effect of a command leaves unchanged: the columns of the table of 10 R29. -/
theorem effect_frame {i : Instr} {s t : State} (h : Effect s t i) :
    t.cfg = s.cfg ∧ t.model = s.model ∧ t.inbox = s.inbox ∧ t.flt = s.flt ∧ t.cause = s.cause ∧
    (∀ d, i.cursor? ≠ some d → t.cur d = s.cur d) ∧
    (i.opc ∉ [0x01, 0x02, 0x03, 0x04, 0x05, 0x10, 0x11] → ∀ d, t.cur d = s.cur d) ∧
    (i.opc ∉ [0x08, 0x0A, 0x10] → t.idx = s.idx) ∧
    (i.opc ∉ [0x0C, 0x0F, 0x11] → t.path = s.path) ∧
    (i.opc ∉ [0x03, 0x05, 0x11] → t.buf = s.buf) := by
  cases i with
  | cset c _ =>
    simp only [Effect] at h; subst h
    refine ⟨?_, ?_, ?_, ?_, ?_, fun d hd => ?_, ?_, ?_, ?_, ?_⟩
    all_goals first
      | (cases c <;> cases d <;> first | rfl | exact absurd rfl hd)
      | simp [Instr.opc]
  | rdbit c =>
    obtain ⟨_, _, _, _, rfl⟩ := h
    refine ⟨?_, ?_, ?_, ?_, ?_, fun d hd => ?_, ?_, ?_, ?_, ?_⟩
    all_goals first
      | (cases c <;> cases d <;> first | rfl | exact absurd rfl hd)
      | simp [Instr.opc]
  | wrbit c b =>
    obtain ⟨_, _, _, _, rfl⟩ := h
    refine ⟨?_, ?_, ?_, ?_, ?_, fun d hd => ?_, ?_, ?_, ?_, ?_⟩
    all_goals first
      | (cases c <;> cases d <;> first | rfl | exact absurd rfl hd)
      | simp [Instr.opc]
  | rdraw c n =>
    obtain ⟨_, _, _, _, _, rfl⟩ := h
    refine ⟨?_, ?_, ?_, ?_, ?_, fun d hd => ?_, ?_, ?_, ?_, ?_⟩
    all_goals first
      | (cases c <;> cases d <;> first | rfl | exact absurd rfl hd)
      | simp [Instr.opc]
  | wrraw c v n =>
    obtain ⟨_, _, _, _, _, rfl⟩ := h
    refine ⟨?_, ?_, ?_, ?_, ?_, fun d hd => ?_, ?_, ?_, ?_, ?_⟩
    all_goals first
      | (cases c <;> cases d <;> first | rfl | exact absurd rfl hd)
      | simp [Instr.opc]
  | rdhuf c =>
    obtain ⟨_, _, _, _, _, rfl⟩ := h
    refine ⟨?_, ?_, ?_, ?_, ?_, fun d hd => ?_, ?_, ?_, ?_, ?_⟩
    all_goals first
      | (cases c <;> cases d <;> first | rfl | exact absurd rfl hd)
      | simp [Instr.opc]
  | wrhuf c _ =>
    obtain ⟨_, _, _, _, _, _, _, rfl⟩ := h
    refine ⟨?_, ?_, ?_, ?_, ?_, fun d hd => ?_, ?_, ?_, ?_, ?_⟩
    all_goals first
      | (cases c <;> cases d <;> first | rfl | exact absurd rfl hd)
      | simp [Instr.opc]
  | elsz c _ =>
    obtain ⟨_, _, rfl⟩ := h
    refine ⟨rfl, rfl, rfl, rfl, rfl, fun d _ => ?_, fun _ d => ?_, ?_, ?_, ?_⟩
    all_goals first | (cases d <;> rfl) | simp [Instr.opc]
  | btsz c _ =>
    obtain ⟨_, _, rfl⟩ := h
    refine ⟨rfl, rfl, rfl, rfl, rfl, fun d _ => ?_, fun _ d => ?_, ?_, ?_, ?_⟩
    all_goals first | (cases d <;> rfl) | simp [Instr.opc]
  | drst =>
    simp only [Effect] at h; subst h
    refine ⟨rfl, rfl, rfl, rfl, rfl, fun d _ => ?_, fun _ d => ?_, ?_, ?_, ?_⟩
    all_goals first | (cases d <;> rfl) | simp [Instr.opc]
  | dneed =>
    obtain ⟨_, _, rfl⟩ := h
    refine ⟨rfl, rfl, rfl, rfl, rfl, fun d _ => ?_, fun _ d => ?_, ?_, ?_, ?_⟩
    all_goals first | (cases d <;> rfl) | simp [Instr.opc]
  | dbit b =>
    obtain ⟨_, _, _, rfl⟩ := h
    refine ⟨rfl, rfl, rfl, rfl, rfl, fun d _ => ?_, fun _ d => ?_, ?_, ?_, ?_⟩
    all_goals first | (cases d <;> rfl) | simp [Instr.opc]
  | dres =>
    obtain ⟨_, _, _, rfl⟩ := h
    refine ⟨rfl, rfl, rfl, rfl, rfl, fun d _ => ?_, fun _ d => ?_, ?_, ?_, ?_⟩
    all_goals first | (cases d <;> rfl) | simp [Instr.opc]
  | eld b =>
    obtain ⟨_, _, _, rfl⟩ := h
    refine ⟨rfl, rfl, rfl, rfl, rfl, fun d _ => ?_, fun _ d => ?_, ?_, ?_, ?_⟩
    all_goals first | (cases d <;> rfl) | simp [Instr.opc]
  | ehas =>
    simp only [Effect] at h; subst h
    refine ⟨rfl, rfl, rfl, rfl, rfl, fun d _ => ?_, fun _ d => ?_, ?_, ?_, ?_⟩
    all_goals first | (cases d <;> rfl) | simp [Instr.opc]
  | eget =>
    obtain ⟨_, rfl⟩ := h
    refine ⟨rfl, rfl, rfl, rfl, rfl, fun d _ => ?_, fun _ d => ?_, ?_, ?_, ?_⟩
    all_goals first | (cases d <;> rfl) | simp [Instr.opc]
  | enxt =>
    obtain ⟨_, rfl⟩ := h
    refine ⟨rfl, rfl, rfl, rfl, rfl, fun d _ => ?_, fun _ d => ?_, ?_, ?_, ?_⟩
    all_goals first | (cases d <;> rfl) | simp [Instr.opc]
  | getst =>
    obtain ⟨_, _, rfl⟩ := h
    refine ⟨rfl, rfl, rfl, rfl, rfl, fun d _ => ?_, fun _ d => ?_, ?_, ?_, ?_⟩
    all_goals first | (cases d <;> rfl) | simp [Instr.opc]

end Sys2Proof.Machine
end

