-- ==== Sys2Proof/Laws/PerInstr.lean ====
section
/-! SUPPORT. Statements about every command as syntax, one lemma per constructor. `TableRow`: the header a well-formed
command is encoded with is the one its row of the opcode map selects (30 R84, R90). -/

namespace Sys2Proof.Laws.TableRow

/-- The header of the command matches the row of its mnemonic, and its `dat` uses only the row's bits. -/
def Statement (i : Instr) : Prop :=
  ∀ cfg : Cfg, i.wf cfg = true →
    ∃ row ∈ Machine.opcodeMap, row.mnemonic = Machine.mnemonicOf i ∧ i.hdr &&& row.mask = row.pattern ∧
      i.dat < 2 ^ row.datBits cfg

/-- The header of a command with a cursor and no count. -/
theorem header_of_cursor (c : Cur) (p : Nat)
    (h : ∀ d : Cur, (0 * 256 + cursorBit (some d) * 32 + p) &&& 0xFFDF = p ) :
    (0 * 256 + cursorBit (some c) * 32 + p) &&& 0xFFDF = p := h c

/-- The header of a command with neither. -/
theorem header_plain (p : Nat) (h : (0 * 256 + cursorBit none * 32 + p) &&& 0xFFFF = p ) :
    (0 * 256 + cursorBit none * 32 + p) &&& 0xFFFF = p := h

theorem cset (c : Cur) (ptr : Nat) : Statement (.cset c ptr) := fun cfg h =>
  ⟨⟨"CSET", 0x0001, 0xFFDF, Cfg.aw⟩, by simp [Machine.opcodeMap], rfl, header_of_cursor c 0x0001 (by intro d; cases d <;> decide), by simpa [Instr.wf, Instr.dat] using h⟩

theorem rdbit (c : Cur) : Statement (.rdbit c) := fun _ _ =>
  ⟨⟨"RDBIT", 0x0002, 0xFFDF, fun _ => 0⟩, by simp [Machine.opcodeMap], rfl, header_of_cursor c 0x0002 (by intro d; cases d <;> decide), by simp [Instr.dat]⟩

theorem wrbit (c : Cur) (bit : Bool) : Statement (.wrbit c bit) := fun _ _ =>
  ⟨⟨"WRBIT", 0x0003, 0xFFDF, fun _ => 1⟩, by simp [Machine.opcodeMap], rfl, header_of_cursor c 0x0003 (by intro d; cases d <;> decide),
    by cases bit <;> simp [Instr.dat]⟩

theorem count_mask (n c p : Nat) (hc : c ≤ 1) (hp : p < 32) : (n * 256 + c * 32 + p) &&& 0x00DF = p := by
  apply Nat.eq_of_testBit_eq
  intro j
  have e : n * 256 + c * 32 + p = 2 ^ 8 * n + (c * 32 + p) := by omega
  rw [e, Nat.testBit_and, Nat.testBit_two_pow_mul_add _ (by omega)]
  by_cases hj : j < 8
  · simp only [hj, if_true]
    have : ∀ j < 8, ∀ c ≤ 1, ∀ p < 32, ((c * 32 + p).testBit j && (0x00DF).testBit j) = p.testBit j := by decide
    exact this j hj c hc p hp
  · have h1 : (0x00DF).testBit j = false := Nat.testBit_lt_two_pow (by
      have := Nat.pow_le_pow_right (show 0 < 2 by omega) (show 8 ≤ j by omega)
      omega)
    have h2 : p.testBit j = false := Nat.testBit_lt_two_pow (by
      have := Nat.pow_le_pow_right (show 0 < 2 by omega) (show 8 ≤ j by omega)
      omega)
    simp [h1, h2]

theorem cursorBit_le (c : Option Cur) : cursorBit c ≤ 1 := by
  cases c with
  | none => simp [cursorBit]
  | some c => cases c <;> simp [cursorBit]

theorem rdraw (c : Cur) (n : Nat) : Statement (.rdraw c n) := fun _ _ =>
  ⟨⟨"RDRAW", 0x0004, 0x00DF, fun _ => 0⟩, by simp [Machine.opcodeMap], rfl,
    count_mask _ _ _ (cursorBit_le _) (by simp [Instr.opc]), by simp [Instr.dat]⟩

theorem wrraw (c : Cur) (value n : Nat) : Statement (.wrraw c value n) := fun cfg h =>
  ⟨⟨"WRRAW", 0x0005, 0x00DF, Cfg.tw⟩, by simp [Machine.opcodeMap], rfl,
    count_mask _ _ _ (cursorBit_le _) (by simp [Instr.opc]),
    by simp only [Instr.wf, Bool.and_eq_true, decide_eq_true_eq] at h; exact h.1⟩

theorem elsz (c : Cur) (start : Nat) : Statement (.elsz c start) := fun cfg h =>
  ⟨⟨"ELSZ", 0x0006, 0xFFDF, Cfg.aw⟩, by simp [Machine.opcodeMap], rfl, header_of_cursor c 0x0006 (by intro d; cases d <;> decide), by simpa [Instr.wf, Instr.dat] using h⟩

theorem btsz (c : Cur) (start : Nat) : Statement (.btsz c start) := fun cfg h =>
  ⟨⟨"BTSZ", 0x0007, 0xFFDF, Cfg.aw⟩, by simp [Machine.opcodeMap], rfl, header_of_cursor c 0x0007 (by intro d; cases d <;> decide), by simpa [Instr.wf, Instr.dat] using h⟩

theorem drst : Statement .drst := fun _ _ =>
  ⟨⟨"DRST", 0x0008, 0xFFFF, fun _ => 0⟩, by simp [Machine.opcodeMap], rfl, header_plain 0x0008 (by decide), by simp [Instr.dat]⟩

theorem dneed : Statement .dneed := fun _ _ =>
  ⟨⟨"DNEED", 0x0009, 0xFFFF, fun _ => 0⟩, by simp [Machine.opcodeMap], rfl, header_plain 0x0009 (by decide), by simp [Instr.dat]⟩

theorem dbit (bit : Bool) : Statement (.dbit bit) := fun _ _ =>
  ⟨⟨"DBIT", 0x000A, 0xFFFF, fun _ => 1⟩, by simp [Machine.opcodeMap], rfl, header_plain 0x000A (by decide), by cases bit <;> simp [Instr.dat]⟩

theorem dres : Statement .dres := fun _ _ =>
  ⟨⟨"DRES", 0x000B, 0xFFFF, fun _ => 0⟩, by simp [Machine.opcodeMap], rfl, header_plain 0x000B (by decide), by simp [Instr.dat]⟩

theorem eld (symbol : Nat) : Statement (.eld symbol) := fun cfg h =>
  ⟨⟨"ELD", 0x000C, 0xFFFF, Cfg.xw⟩, by simp [Machine.opcodeMap], rfl, header_plain 0x000C (by decide), by simpa [Instr.wf, Instr.dat] using h⟩

theorem ehas : Statement .ehas := fun _ _ =>
  ⟨⟨"EHAS", 0x000D, 0xFFFF, fun _ => 0⟩, by simp [Machine.opcodeMap], rfl, header_plain 0x000D (by decide), by simp [Instr.dat]⟩

theorem eget : Statement .eget := fun _ _ =>
  ⟨⟨"EGET", 0x000E, 0xFFFF, fun _ => 0⟩, by simp [Machine.opcodeMap], rfl, header_plain 0x000E (by decide), by simp [Instr.dat]⟩

theorem enxt : Statement .enxt := fun _ _ =>
  ⟨⟨"ENXT", 0x000F, 0xFFFF, fun _ => 0⟩, by simp [Machine.opcodeMap], rfl, header_plain 0x000F (by decide), by simp [Instr.dat]⟩

theorem rdhuf (c : Cur) : Statement (.rdhuf c) := fun _ _ =>
  ⟨⟨"RDHUF", 0x0010, 0xFFDF, fun _ => 0⟩, by simp [Machine.opcodeMap], rfl, header_of_cursor c 0x0010 (by intro d; cases d <;> decide), by simp [Instr.dat]⟩

theorem wrhuf (c : Cur) (symbol : Nat) : Statement (.wrhuf c symbol) := fun cfg h =>
  ⟨⟨"WRHUF", 0x0011, 0xFFDF, Cfg.xw⟩, by simp [Machine.opcodeMap], rfl, header_of_cursor c 0x0011 (by intro d; cases d <;> decide), by simpa [Instr.wf, Instr.dat] using h⟩

theorem getst : Statement .getst := fun _ _ =>
  ⟨⟨"GETST", 0x0012, 0xFFFF, fun _ => 0⟩, by simp [Machine.opcodeMap], rfl, header_plain 0x0012 (by decide), by simp [Instr.dat]⟩

end Sys2Proof.Laws.TableRow
end

