-- ==== Sys2Proof/Tests/Slice0.lean ====
section
/-! SUPPORT. Tests, each on one step or one word, with the expected result taken from the vector of
spec/95_test_vectors.md that its comment names; and one witness per statement of Certificates/Slice0 that has
hypotheses. -/

namespace Sys2Proof.Tests

open Sys2Proof Sys2Proof.Machine

/-! ### Small states -/

/-- CFG-A and CFG-C of 95, section 0. -/
def cfgA : Cfg := ⟨8, 8, 8, 8, 16, 32, .leastFirst⟩
def cfgC : Cfg := ⟨8, 16, 8, 8, 16, 32, .leastFirst⟩

/-- The Models of 95, section 0, as 8-bit patterns (T18 gives those of M5, V1 those of M4). -/
def m1 : Model := ⟨1, [0], [1]⟩
def m2 : Model := ⟨2, [2, 0, 0xFF], [2, 3]⟩
def m4 : Model := ⟨4, [6, 2, 0xFF, 2, 0xFE, 0xFD, 0], [3, 4, 10, 14]⟩
def m5 : Model := ⟨5, [8, 6, 4, 2, 0, 0xFF, 0xFE, 0xFD, 0xFC], [16, 24, 12, 6, 3]⟩

/-- "Fresh" of 95, section 0, with the Model loaded and the listed words in EXTENT. -/
def fresh (m : Model) (buf : List Cell) : State := { State.reset with cfg := cfgA, model := m, buf := buf }

/-- A cursor that CSET created and that has moved to `(wp, bo)`. -/
def at_ (wp bo : Nat) : Cursor := ⟨wp, bo, true⟩

/-- The outcome is a next state of which the check holds. -/
def gives (r : Res State) (p : State → Bool) : Bool :=
  match r with
  | .next t => p t
  | .fault _ => false
  | .refused _ => false

/-- The outcome is the model-level fault UB_EXTENT. -/
def runsOff (r : Res State) : Bool :=
  match r with
  | .next _ => false
  | .fault .ubExtent => true
  | .refused _ => false

/-- The response is `(flt = 0, res = v)`. -/
def answers (v : Nat) (t : State) : Bool := decide (t.resp = some ⟨false, v⟩)

/-- The response and the registers of a contract fault. -/
def faulted (x : Cause) (t : State) : Bool := decide (t.resp = some ⟨true, 0⟩ ∧ t.flt = true ∧ t.cause = x)

/-! ### WellFormed refuses an ill-formed term for each of its checks (30 R82, R88) -/

theorem test_wf_cset : Instr.wf cfgA (.cset .c0 0xFFFF) = true ∧ Instr.wf cfgA (.cset .c0 0x10000) = false := by decide
theorem test_wf_rdraw : Instr.wf cfgA (.rdraw .c0 255) = true ∧ Instr.wf cfgA (.rdraw .c0 256) = false := by decide
theorem test_wf_wrraw : Instr.wf cfgA (.wrraw .c0 255 255) = true ∧ Instr.wf cfgA (.wrraw .c0 256 7) = false ∧
    Instr.wf cfgA (.wrraw .c0 255 256) = false := by decide
theorem test_wf_start : Instr.wf cfgA (.elsz .c1 0x10000) = false ∧ Instr.wf cfgA (.btsz .c1 0x10000) = false := by decide
theorem test_wf_symbol : Instr.wf cfgA (.eld 0xFFFFFFFF) = true ∧ Instr.wf cfgA (.eld 0x100000000) = false ∧
    Instr.wf cfgA (.wrhuf .c0 0x100000000) = false := by decide

/-! ### Words written out from 30 R81, R84, R90 and what they stand for -/

/-- X1 to X6, X22 and the words of 43 R183, R184, R187, R191, R192: the cursor commands. -/
theorem test_decode_cursor :
    decode cfgA 0x000001000021 = .ok (.cset .c1 0x0100) ∧ decode cfgA 0x000000000002 = .ok (.rdbit .c0) ∧
    decode cfgA 0x000000010023 = .ok (.wrbit .c1 true) ∧ decode cfgA 0x000000000304 = .ok (.rdraw .c0 3) ∧
    decode cfgA 0x00000000FF04 = .ok (.rdraw .c0 255) ∧ decode cfgA 0x0000005B0725 = .ok (.wrraw .c1 0x5B 7) ∧
    decode cfgA 0x000000DB0725 = .ok (.wrraw .c1 0xDB 7) ∧ decode cfgA 0x000001000026 = .ok (.elsz .c1 0x0100) ∧
    decode cfgA 0x000001000027 = .ok (.btsz .c1 0x0100) ∧ decode cfgA 0x000000000010 = .ok (.rdhuf .c0) ∧
    decode cfgA 0x000000030031 = .ok (.wrhuf .c1 3) := by decide

/-- X8 and the words of 41 R140, R141, R143: the decoder commands. -/
theorem test_decode_decoder :
    decode cfgA 0x000000000008 = .ok .drst ∧ decode cfgA 0x000000000009 = .ok .dneed ∧
    decode cfgA 0x00000001000A = .ok (.dbit true) ∧ decode cfgA 0x00000000000B = .ok .dres := by decide

/-- X7, X9 and the words of 42 R161 to R163: the encoder commands and GETST. -/
theorem test_decode_encoder :
    decode cfgA 0xFFFFFFFF000C = .ok (.eld 0xFFFFFFFF) ∧ decode cfgA 0x00000000000D = .ok .ehas ∧
    decode cfgA 0x00000000000E = .ok .eget ∧ decode cfgA 0x00000000000F = .ok .enxt ∧
    decode cfgA 0x000000000012 = .ok .getst := by decide

/-- X10 to X12, X13, X14: reserved opcodes and `rsv`. -/
theorem test_decode_reserved :
    decode cfgA 0x0000 = .error .reservedOpcode ∧ decode cfgA 0x0013 = .error .reservedOpcode ∧
    decode cfgA 0x001F = .error .reservedOpcode ∧ decode cfgA 0x0042 = .error .rsvNotZero ∧
    decode cfgA 0x0082 = .error .rsvNotZero := by decide

/-- X15 to X21, X23, X24: must-be-zero fields. -/
theorem test_decode_zeros :
    decode cfgA 0x0028 = .error .cursorNotZero ∧ decode cfgA 0x0108 = .error .countNotZero ∧
    decode cfgA 0x0102 = .error .countNotZero ∧ decode cfgA 0x000100000001 = .error .datNotZero ∧
    decode cfgA 0x000000020003 = .error .datNotZero ∧ decode cfgA 0x000000010002 = .error .datNotZero ∧
    decode cfgA 0x000001000825 = .error .datNotZero ∧ decode cfgA 0x000000010012 = .error .datNotZero ∧
    decode cfgA 0x00000002000A = .error .datNotZero := by decide

/-- P6, step 3, an 80-bit command word of CFG-B; and the example of 30 R90. -/
theorem test_encode :
    encode (.wrraw .c1 0xDEADBEEF 32) = 0x00000000DEADBEEF2025 ∧ Instr.hdr (.wrraw .c1 0x5B 7) = 0x0725 := by decide

/-- The 16-bit headers of the opcode table, read as the table numbers them. -/
theorem test_decodeTableWord :
    decodeTableWord 16 0x0012 = some .getst ∧ decodeTableWord 16 0x0021 = some (.cset .c1 0) ∧
    decodeTableWord 16 0x0013 = none := by decide

/-! ### bit_stream_cursor -/

/-- K7: legal although 0x0100 is outside EXTENT. -/
theorem test_cset : gives (exec (.cset .c1 0x0100) (fresh m4 [])) (fun t => decide (t.c1 = at_ 0x100 0) && answers 0 t) := by
  decide

/-- K8: the old position is discarded. -/
theorem test_cset_again :
    gives (exec (.cset .c1 0x0400) { fresh m4 [] with c1 := at_ 0x101 2 }) (fun t => decide (t.c1 = at_ 0x400 0)) := by decide

/-- K2: lazy advance. -/
theorem test_rdbit_advance :
    gives (exec (.rdbit .c0) { fresh m4 [(0x101, 0x03)] with c0 := at_ 0x100 8 })
      (fun t => answers 1 t && decide (t.c0 = at_ 0x101 1)) := by decide

/-- K27: the word pointer wraps to 0. -/
theorem test_rdbit_wrap :
    gives (exec (.rdbit .c0) { fresh m4 [(0, 0x01), (0xFFFF, 0)] with c0 := at_ 0xFFFF 8 })
      (fun t => answers 1 t && decide (t.c0 = at_ 0 1)) := by decide

/-- K4: OR never clears. -/
theorem test_wrbit_or :
    gives (exec (.wrbit .c1 false) { fresh m4 [(0x200, 0xFF)] with c1 := at_ 0x200 3 })
      (fun t => decide (t.buf = [(0x200, 0xFF)] ∧ t.c1 = at_ 0x200 4)) := by decide

/-- K6: the write of a 0 accesses the word. -/
theorem test_wrbit_off : runsOff (exec (.wrbit .c1 false) { fresh m4 [(0x200, 0)] with c1 := at_ 0x200 8 }) := by decide

/-- K11: first bit read is bit 0, across a word boundary. -/
theorem test_rdraw :
    gives (exec (.rdraw .c0 7) { fresh m4 [(0x100, 0x60), (0x101, 0x0B)] with c0 := at_ 0x100 5 })
      (fun t => answers 0x5B t && decide (t.c0 = at_ 0x101 4)) := by decide

/-- F10: the third bit needs 0x0101. -/
theorem test_rdraw_off : runsOff (exec (.rdraw .c0 4) { fresh m4 [(0x100, 0x40)] with c0 := at_ 0x100 6 }) := by decide

/-- K12: `value[7]` is ignored. -/
theorem test_wrraw :
    gives (exec (.wrraw .c1 0xDB 7) { fresh m4 [(0x100, 0), (0x101, 0)] with c1 := at_ 0x100 5 })
      (fun t => decide (t.buf = [(0x100, 0x60), (0x101, 0x0B)] ∧ t.c1 = at_ 0x101 4)) := by decide

/-- K14: three words, `TW > W`. -/
theorem test_wrraw_wide :
    gives (exec (.wrraw .c1 0xBEEF 16)
        { fresh m4 [(0x100, 0), (0x101, 0), (0x102, 0)] with cfg := cfgC, c1 := at_ 0x100 3 })
      (fun t => decide (t.buf = [(0x100, 0x78), (0x101, 0xF7), (0x102, 0x05)] ∧ t.c1 = at_ 0x102 3)) := by decide

/-- K22 and K23: the two forms of one position agree. -/
theorem test_elsz :
    gives (exec (.elsz .c1 0x0200) { fresh m4 [] with c1 := at_ 0x200 8 }) (answers 1) ∧
    gives (exec (.elsz .c1 0x0200) { fresh m4 [] with c1 := at_ 0x201 0 }) (answers 1) := by decide

/-- K21. -/
theorem test_elsz_rounds_up : gives (exec (.elsz .c1 0x0100) { fresh m4 [] with c1 := at_ 0x101 2 }) (answers 2) := by decide

/-- K26: a wrong start below WP is not detected. -/
theorem test_btsz : gives (exec (.btsz .c0 0) { fresh m4 [] with c0 := at_ 0x105 3 }) (answers 2091) := by decide

/-- K25. -/
theorem test_btsz_fault :
    gives (exec (.btsz .c0 0x0101) { fresh m4 [] with c0 := at_ 0x100 0 }) (faulted .startRange) := by decide

/-! ### huffman_decoder -/

/-- D9. -/
theorem test_drst : gives (exec .drst { fresh m4 [] with idx := 5 }) (fun t => decide (t.idx = 0) && answers 0 t) := by decide

/-- D19: refused in the fault state. -/
theorem test_drst_refused :
    gives (exec .drst { fresh m4 [] with idx := 5, flt := true, cause := .rawWidth })
      (fun t => faulted .rawWidth t && decide (t.idx = 5)) := by decide

/-- D6 and D3: 1 at an internal node, 0 at the leaf whose entry is 0. -/
theorem test_dneed :
    gives (exec .dneed { fresh m4 [] with idx := 3 }) (answers 1) ∧
    gives (exec .dneed { fresh m4 [] with idx := 6 }) (answers 0) := by decide

/-- D6 and D4. -/
theorem test_dbit :
    gives (exec (.dbit true) { fresh m4 [] with idx := 1 }) (fun t => decide (t.idx = 3)) ∧
    gives (exec (.dbit false) (fresh m4 [])) (fun t => decide (t.idx = 1)) := by decide

/-- D11: a bit at a leaf. -/
theorem test_dbit_fault :
    gives (exec (.dbit false) { fresh m4 [] with idx := 6 }) (fun t => faulted .decProtocol t && decide (t.idx = 6)) := by
  decide

/-- D7: the entry -2 is symbol 2, and IDX keeps pointing at the leaf. -/
theorem test_dres : gives (exec .dres { fresh m4 [] with idx := 4 }) (fun t => answers 2 t && decide (t.idx = 4)) := by decide

/-- D13: never the negated skip distance. -/
theorem test_dres_fault : gives (exec .dres { fresh m4 [] with idx := 3 }) (faulted .decProtocol) := by decide

/-! ### huffman_encoder -/

/-- E2. -/
theorem test_eld : gives (exec (.eld 2) (fresh m4 [])) (fun t => decide (t.path = 10) && answers 0 t) := by decide

/-- E10: the whole of `dat` is the symbol. -/
theorem test_eld_fault : gives (exec (.eld 0xFFFFFFFF) (fresh m4 [])) (fun t => faulted .symbolRange t && decide (t.path = 1)) := by
  decide

/-- E1 and E2. -/
theorem test_ehas :
    gives (exec .ehas (fresh m4 [])) (answers 0) ∧ gives (exec .ehas { fresh m4 [] with path := 10 }) (answers 1) := by decide

/-- E3. -/
theorem test_eget :
    gives (exec .eget { fresh m4 [] with path := 10 }) (answers 0) ∧
    gives (exec .eget { fresh m4 [] with path := 5 }) (fun t => answers 1 t && decide (t.path = 5)) := by decide

/-- E6. -/
theorem test_eget_fault : gives (exec .eget (fresh m4 [])) (faulted .encProtocol) := by decide

/-- E3. -/
theorem test_enxt : gives (exec .enxt { fresh m4 [] with path := 10 }) (fun t => decide (t.path = 5)) := by decide

/-- E7: PATH never becomes 0. -/
theorem test_enxt_fault : gives (exec .enxt (fresh m4 [])) (fun t => faulted .encProtocol t && decide (t.path = 1)) := by decide

/-! ### RDHUF, WRHUF, GETST -/

/-- K15. -/
theorem test_rdhuf :
    gives (exec (.rdhuf .c0) { fresh m4 [(0x100, 0x91)] with c0 := at_ 0x100 3 })
      (fun t => answers 2 t && decide (t.c0 = at_ 0x100 6 ∧ t.idx = 4)) := by decide

/-- K29: one symbol, no bit, no access, no lazy advance. -/
theorem test_rdhuf_one_symbol :
    gives (exec (.rdhuf .c0) { fresh m1 [(0x100, 0)] with c0 := at_ 0x100 8 })
      (fun t => answers 0 t && decide (t.c0 = at_ 0x100 8)) := by decide

/-- K16. -/
theorem test_wrhuf :
    gives (exec (.wrhuf .c1 3) { fresh m4 [(0x100, 0x11), (0x101, 0)] with c1 := at_ 0x100 6 })
      (fun t => decide (t.buf = [(0x100, 0x91), (0x101, 0x01)] ∧ t.c1 = at_ 0x101 1 ∧ t.path = 1)) := by decide

/-- K18: the cursor check comes before the symbol check. -/
theorem test_wrhuf_fault : gives (exec (.wrhuf .c1 9) (fresh m4 [])) (faulted .cursorInvalid) := by decide

/-- S3 and S2. -/
theorem test_getst :
    gives (exec .getst { fresh m4 [] with path := 10 }) (answers 0x180) ∧ gives (exec .getst (fresh m1 [])) (answers 0) := by
  decide

/-- S6: in the fault state, `flt = 1` with a nonzero `res`. -/
theorem test_getst_faulted :
    gives (exec .getst { fresh m4 [] with c0 := at_ 0x100 0, idx := 6, flt := true, cause := .decProtocol })
      (fun t => decide (t.resp = some ⟨true, 0x02D⟩)) := by decide

/-! ### Host moves -/

/-- F1 with X10: an illegal word from the host. -/
theorem test_step_illegal : gives (step ((fresh m4 []).withFetchWord 16 0x0000)) (faulted .illegalCmd) := by decide

/-- F7: an illegal word in the fault state keeps the first cause. -/
theorem test_step_illegal_refused :
    gives (step ({ fresh m4 [] with flt := true, cause := .cursorInvalid }.withFetchWord 16 0)) (faulted .cursorInvalid) := by
  decide

/-- S1, from the reset state with nothing placed but the command: STATUS is 0x080 for N = 4. -/
theorem test_step_from_reset : gives (step (State.reset.withFetchWord 16 0x0012)) (answers 0x080) := by decide

/-- H1: RST keeps BUF and the tables. -/
theorem test_rst :
    gives (step { fresh m4 [(0x100, 0x91)] with
        c0 := at_ 0x100 3, idx := 6, path := 10, flt := true, cause := .decProtocol, inbox := [.rst none] })
      (fun t => decide (t.c0.v = false ∧ t.idx = 0 ∧ t.path = 1 ∧ t.flt = false ∧ t.cause = .none ∧
        t.buf = [(0x100, 0x91)] ∧ t.model = m4)) := by decide

/-- 20 R62: a host write between commands. -/
theorem test_host_write :
    gives (step { fresh m4 [(0x100, 0x91)] with inbox := [.write 0x80 7] })
      (fun t => decide (t.buf = [(0x80, 7), (0x100, 0x91)])) := by decide

/-! ### Model tables and the Builder -/

/-- T1, T2, T3, V1: the reference builder. -/
theorem test_builder_small :
    compileReference cfgA 1 [(0, 1)] = some m1 ∧ compileReference cfgA 2 [(0, 1), (1, 1)] = some m2 ∧
    compileReference cfgA 3 [(0, 1), (1, 1), (2, 1)] = some ⟨3, [2, 0xFE, 2, 0, 0xFF], [5, 7, 2]⟩ ∧
    compileReference cfgA 4 [(0, 5), (1, 2), (2, 1), (3, 1)] = some m4 := by decide

/-- T4, T5, T5z. -/
theorem test_builder_ties :
    compileReference cfgA 4 [(0, 3), (1, 3), (2, 3), (3, 3)] = some ⟨4, [4, 2, 0, 0xFF, 2, 0xFE, 0xFD], [4, 6, 5, 7]⟩ ∧
    compileReference cfgA 5 [(0, 1), (1, 2), (2, 4), (3, 8), (4, 16)] = some m5 ∧
    compileReference cfgA 3 [(0, 0), (1, 0), (2, 1)] = some ⟨3, [4, 2, 0, 0xFF, 0xFE], [4, 6, 3]⟩ := by decide

/-- T10, T11: code lengths 4, 4, 3, 2, 1, so no Model with `PW` = 4 and one with `PW` = 8 (log entry 23 on T11's tables); T17: a
wrong number of outputs, a duplicate. -/
theorem test_builder_rejects :
    compileReference { cfgA with pw := 4 } 5 [(0, 1), (1, 1), (2, 2), (3, 4), (4, 8)] = none ∧
    (compileReference cfgA 5 [(0, 1), (1, 1), (2, 2), (3, 4), (4, 8)]).map (fun m => m.etab.map Nat.log2) =
      some [4, 4, 3, 2, 1] ∧
    outputsOk 4 [(0, 1), (1, 1), (2, 1)] = false ∧ outputsOk 4 [(0, 1), (1, 1), (2, 1), (2, 1)] = false := by decide

/-- V1, 40 R125: code lengths 1, 2, 3, 3, so the cost is 5*1 + 2*2 + 1*3 + 1*3. Those terms add up to 15; the source's
literal 12 is not their sum (log entry 22). -/
theorem test_worked_example :
    weightedCost cfgA m4 [(0, 5), (1, 2), (2, 1), (3, 1)] = 5 * 1 + 2 * 2 + 1 * 3 + 1 * 3 ∧
    m4.etab.map Nat.log2 = [1, 2, 3, 3] := by decide

/-- T12 to T16: tables that are not well-formed. -/
theorem test_ill_formed :
    launchOk cfgA ⟨2, [2, 0, 0], [2, 3]⟩ = false ∧ launchOk cfgA ⟨2, [3, 0, 0xFF], [2, 3]⟩ = false ∧
    launchOk cfgA ⟨2, [1, 0, 0xFF], [2, 3]⟩ = false ∧ launchOk cfgA ⟨2, [2, 0, 0xFF], [3, 2]⟩ = false ∧
    launchOk cfgA ⟨2, [2, 0, 0xFF], [0, 3]⟩ = false ∧ launchOk cfgA m2 = true := by decide

/-- The codes of M4 (95, section 0): A = 1, B = 00, C = 010, D = 011. -/
theorem test_codes :
    m4.code cfgA 0 = some [true] ∧ m4.code cfgA 1 = some [false, false] ∧
    m4.code cfgA 2 = some [false, true, false] ∧ m4.code cfgA 3 = some [false, true, true] ∧
    m4.code cfgA 4 = none := by decide

/-- K32: the byte image of a word in either byte order. -/
theorem test_byte_image :
    byteImage Cfg.initial 0xF56DF77B = some [0x7B, 0xF7, 0x6D, 0xF5] ∧
    byteImage { Cfg.initial with hostByteOrder := .mostFirst } 0xF56DF77B = some [0xF5, 0x6D, 0xF7, 0x7B] := by decide

/-! ### Witnesses: concrete states and operands that meet the hypotheses of each statement -/

/-- A state in the middle of a pass: both cursors created, `C[1]` at the end of its word. -/
def ready : State :=
  { fresh m4 [(0x100, 0x91), (0x101, 0x03), (0x200, 0)] with c0 := at_ 0x100 3, c1 := at_ 0x100 8 }

/-- Both cursors at one position in its two forms, before three zero words, the last at the top of the address space. -/
def twin : State :=
  { fresh m4 [(0xFFFC, 0), (0xFFFD, 0), (0xFFFE, 0), (0xFFFF, 0)] with c0 := at_ 0xFFFC 8, c1 := at_ 0xFFFD 0 }

theorem witness_ready (c : Cur) : ReadyCursor c ready :=
  ⟨⟨⟨by decide, by decide, by decide, by decide, by decide, by decide, by decide, by decide⟩, by decide⟩,
    by cases c <;> decide⟩

theorem witness_twin (c : Cur) : ReadyCursor c twin :=
  ⟨⟨⟨by decide, by decide, by decide, by decide, by decide, by decide, by decide, by decide⟩, by decide⟩,
    by cases c <;> decide⟩

/-- A state with `IDX` elsewhere is as ready. -/
theorem witness_at_index (i : Nat) (h : i ≤ 6) : Ready { ready with idx := i } :=
  have inv := (witness_ready .c0).ready.inv
  ⟨⟨inv.launched, inv.cursor0, inv.cursor1, h, inv.path, inv.cause, inv.memory, inv.response⟩, rfl⟩

/-- A state with `C[0]` elsewhere is as ready. -/
theorem witness_at_cursor (wp bo : Nat) (h : wp < 2 ^ 16 ∧ bo ≤ 8) : ReadyCursor .c0 { ready with c0 := at_ wp bo } :=
  have inv := (witness_ready .c0).ready.inv
  ⟨⟨⟨inv.launched, decide_eq_true h, inv.cursor1, inv.index, inv.path, inv.cause, inv.memory, inv.response⟩, rfl⟩, rfl⟩

theorem witness_DecodeOfEncodeIsTheCommand :
    cfgA.ok 4 = true ∧ Instr.wf cfgA (.wrraw .c1 0xFF 255) = true ∧ Instr.wf cfgA (.cset .c1 0xFFFF) = true ∧
    Instr.wf cfgA (.eld 0xFFFFFFFF) = true ∧ Instr.wf cfgA .getst = true := by decide

theorem witness_EncodeOfDecodeIsTheWord :
    cfgA.ok 4 = true ∧ decode cfgA 0x000000DB0725 = .ok (.wrraw .c1 0xDB 7) := by decide

theorem witness_WordsSelectRowsOfTheOpcodeMap :
    cfgA.ok 4 = true ∧ 0xFFFFFFFF0031 < 2 ^ (16 + cfgA.xw) ∧ decode cfgA 0xFFFFFFFF0031 = .ok (.wrhuf .c1 0xFFFFFFFF) ∧
    ∃ row ∈ opcodeMap, hdrOf 0xFF24 &&& row.mask = row.pattern ∧ datOf cfgA 0xFF24 < 2 ^ row.datBits cfgA := by decide

theorem witness_ReservedOpcodeRaisesIllegalCmd :
    0xFFE0 < 2 ^ (16 + ready.cfg.xw) ∧ ready.flt = false ∧ 0xFFE0 % 32 = 0 ∧ 0x13 ≤ 0x0013 % 32 ∧ 0x13 ≤ 0x001F % 32 := by decide

/-- One word per clause: `rsv`, `c`, `cnt`, and the lowest `dat` bit that must be 0 of WRBIT and of CSET. -/
theorem witness_MustBeZeroFieldRaisesIllegalCmd :
    0x100000001 < 2 ^ (16 + ready.cfg.xw) ∧ ready.flt = false ∧ 0x0042 / 64 % 4 ≠ 0 ∧ (0x0028 / 32 % 2 = 1 ∧ 0x08 ≤ 0x0028 % 32 ∧ 0x0028 % 32 ≤ 0x0F) ∧
    (0x0032 / 32 % 2 = 1 ∧ 0x0032 % 32 = 0x12) ∧
    (0x0106 / 256 % 256 ≠ 0 ∧ 0x0106 % 32 ≠ 0x04 ∧ 0x0106 % 32 ≠ 0x05) ∧
    (∃ row ∈ opcodeMap, hdrOf 0x20003 &&& row.mask = row.pattern ∧ 2 ^ row.datBits ready.cfg ≤ datOf ready.cfg 0x20003) ∧
    (∃ row ∈ opcodeMap, hdrOf 0x100000001 &&& row.mask = row.pattern ∧
      2 ^ row.datBits ready.cfg ≤ datOf ready.cfg 0x100000001) := by decide

theorem witness_StepRunsTheDecodedCommand :
    launchOk ready.cfg ready.model = true ∧ { ready with inbox := [.command 0x12, .rst none] }.inbox = [.command 0x12, .rst none] ∧
    decode ready.cfg 0x12 = .ok .getst ∧ decode ready.cfg (0xFFFF0021 % 2 ^ 16) = .ok (.cset .c1 0) := by decide

theorem witness_IdleBlockHoldsAndIllFormedLaunchIsRefused :
    (launchOk ready.cfg ready.model = true ∧ ready.inbox = []) ∧
    launchOk ready.cfg { fresh ⟨2, [2, 0, 0xFF], [0, 3]⟩ [] with flt := true }.model = false := by decide

theorem witness_RstRelaunchesAndKeepsTheBuffer :
    launchOk ready.cfg ready.model = true ∧ launchOk ready.cfg ((none : Option Model).getD ready.model) = true ∧
    launchOk ready.cfg ((some m5).getD ready.model) = true ∧
    launchOk ready.cfg ((some ⟨2, [2, 0, 0], [2, 3]⟩ : Option Model).getD ready.model) = false := by decide

theorem witness_HostStoreChangesOneWord :
    Inv { twin with inbox := [.write 0xFFFF 0xFF] } ∧ 0xFFFF < 2 ^ twin.cfg.aw ∧ 0xFF < 2 ^ twin.cfg.w :=
  ⟨⟨by decide, by decide, by decide, by decide, by decide, by decide, by decide, by decide⟩, by decide⟩

/-- A command that executes, one that faults, a host store and a reset. -/
theorem witness_EveryStepKeepsTheInvariant :
    Inv ready ∧ gives (step (ready.withFetchWord 16 0x0010)) (answers 2) ∧
    gives (step (ready.withFetchWord 16 0)) (faulted .illegalCmd) ∧
    gives (step { ready with inbox := [.write 0 0xFF] }) (fun t => decide (t.buf.length = 4)) ∧
    gives (step { ready with inbox := [.rst (some m5)] }) (fun t => decide (t.model = m5)) :=
  ⟨(witness_ready .c0).ready.inv, by decide⟩

theorem witness_CommandsStopOnlyOffTheExtent :
    Inv { ready with c0 := at_ 0x101 1 } ∧ runsOff (exec (.rdraw .c0 8) { ready with c0 := at_ 0x101 1 }) :=
  ⟨(witness_at_cursor 0x101 1 (by decide)).ready.inv, by decide⟩

theorem witness_CsetCreatesAFreshCursor : ready.flt = false ∧ 0xFFFF < 2 ^ ready.cfg.aw := by decide

/-- In the middle of a word, and at the end of one. -/
theorem witness_RdbitReadsTheStreamBit :
    (ReadyCursor .c0 ready ∧ streamBit ready.cfg ready.buf ((ready.cur .c0).pos ready.cfg) = some false) ∧
    (ReadyCursor .c1 ready ∧ streamBit ready.cfg ready.buf ((ready.cur .c1).pos ready.cfg) = some true) :=
  ⟨⟨witness_ready _, by decide⟩, witness_ready _, by decide⟩

theorem witness_WrbitOrsOneBit :
    ReadyCursor .c1 ready ∧ bitAddr ready.cfg ((ready.cur .c1).pos ready.cfg) ∈ extent ready.buf :=
  ⟨witness_ready _, by decide⟩

/-- `n = 0`, and `n = TW` across a word boundary. -/
theorem witness_RdrawReadsTheNumber :
    ReadyCursor .c0 ready ∧ (0 ≤ ready.cfg.tw ∧ reaches ready.cfg ready.buf ((ready.cur .c0).pos ready.cfg) 0) ∧
    (8 ≤ ready.cfg.tw ∧ reaches ready.cfg ready.buf ((ready.cur .c0).pos ready.cfg) 8) :=
  ⟨witness_ready _, by unfold reaches; decide⟩

theorem witness_WrrawOrsTheLowBits :
    ReadyCursor .c1 ready ∧ (0 ≤ ready.cfg.tw ∧ reaches ready.cfg ready.buf ((ready.cur .c1).pos ready.cfg) 0) ∧
    (8 ≤ ready.cfg.tw ∧ reaches ready.cfg ready.buf ((ready.cur .c1).pos ready.cfg) 8) :=
  ⟨witness_ready _, by unfold reaches; decide⟩

/-- `start = WP`, and `start = 0`. -/
theorem witness_ElszReportsWordsRoundedUp :
    ReadyCursor .c1 ready ∧ 0x100 ≤ (ready.cur .c1).wp ∧ 0 ≤ (ready.cur .c1).wp := ⟨witness_ready _, by decide⟩

theorem witness_BtszReportsBits :
    ReadyCursor .c0 ready ∧ 0x100 ≤ (ready.cur .c0).wp ∧ 0 ≤ (ready.cur .c0).wp := ⟨witness_ready _, by decide⟩

/-- K15. -/
theorem witness_RdhufDecodesTheCode :
    ReadyCursor .c0 ready ∧ leafOf ready 2 4 [false, true, false] ∧
    spells ready.cfg ready.buf ((ready.cur .c0).pos ready.cfg) [false, true, false] :=
  ⟨witness_ready _, by unfold leafOf spells; decide⟩

theorem witness_AnyStreamDecodes :
    ReadyCursor .c0 ready ∧ reaches ready.cfg ready.buf ((ready.cur .c0).pos ready.cfg) (ready.model.n - 1) :=
  ⟨witness_ready _, by unfold reaches; decide⟩

theorem witness_WrhufEmitsTheCode :
    ReadyCursor .c1 ready ∧ 3 < ready.model.n ∧ ready.model.code ready.cfg 3 = some [false, true, true] ∧
    reaches ready.cfg ready.buf ((ready.cur .c1).pos ready.cfg) 3 :=
  ⟨witness_ready _, by unfold reaches; decide⟩

/-- Each clause on both sides: in EXTENT, and one bit short of it at the end of the last word. -/
theorem witness_UbExtentExactlyOffTheExtent :
    (ReadyCursor .c0 { ready with c0 := at_ 0x101 8 } ∧ runsOff (exec (.rdbit .c0) { ready with c0 := at_ 0x101 8 }) ∧
      runsOff (exec (.wrbit .c0 false) { ready with c0 := at_ 0x101 8 }) ∧
      runsOff (exec (.rdhuf .c0) { ready with c0 := at_ 0x101 8 })) ∧
    (ReadyCursor .c0 { ready with c0 := at_ 0x101 1 } ∧ 8 ≤ ready.cfg.tw ∧
      runsOff (exec (.rdraw .c0 8) { ready with c0 := at_ 0x101 1 }) ∧
      runsOff (exec (.wrraw .c0 0 8) { ready with c0 := at_ 0x101 1 })) ∧
    (ReadyCursor .c0 { ready with c0 := at_ 0x101 6 } ∧ 3 < ready.model.n ∧
      ready.model.code ready.cfg 3 = some [false, true, true] ∧
      runsOff (exec (.wrhuf .c0 3) { ready with c0 := at_ 0x101 6 })) ∧
    (ReadyCursor .c0 ready ∧ reaches ready.cfg ready.buf ((ready.cur .c0).pos ready.cfg) 8) :=
  ⟨⟨witness_at_cursor _ _ (by decide), by decide⟩, ⟨witness_at_cursor _ _ (by decide), by decide⟩,
    ⟨witness_at_cursor _ _ (by decide), by decide⟩, witness_ready _, by unfold reaches; decide⟩

/-- `n = 0`, and `n = TW` into zero bits. -/
theorem witness_RawNumberRoundTrip :
    ReadyCursor .c0 twin ∧ (twin.cur .c1).v = true ∧ (twin.cur .c1).pos twin.cfg = (twin.cur .c0).pos twin.cfg ∧
    (0 ≤ twin.cfg.tw ∧ 0 < 2 ^ 0) ∧ (8 ≤ twin.cfg.tw ∧ 0xFF < 2 ^ 8) ∧
    (twin.cur .c0).pos twin.cfg + 8 ≤ twin.cfg.w * 2 ^ twin.cfg.aw ∧
    reaches twin.cfg twin.buf ((twin.cur .c0).pos twin.cfg) 8 ∧
    ∀ i < 8, streamBit twin.cfg twin.buf ((twin.cur .c0).pos twin.cfg + i) = some false :=
  ⟨witness_twin _, by unfold reaches; decide⟩

theorem witness_HuffmanSymbolRoundTrip :
    ReadyCursor .c1 twin ∧ (twin.cur .c0).v = true ∧ (twin.cur .c0).pos twin.cfg = (twin.cur .c1).pos twin.cfg ∧
    3 < twin.model.n ∧ twin.model.code twin.cfg 3 = some [false, true, true] ∧
    (twin.cur .c1).pos twin.cfg + 3 ≤ twin.cfg.w * 2 ^ twin.cfg.aw ∧
    ∀ i < 3, streamBit twin.cfg twin.buf ((twin.cur .c1).pos twin.cfg + i) = some false :=
  ⟨witness_twin _, by decide⟩

/-- The record of P3, as far as it fits: it ends at the last bit of the address space. -/
theorem witness_MixedStreamRoundTrip :
    ReadyCursor .c0 twin ∧ (twin.cur .c1).v = true ∧ (twin.cur .c1).pos twin.cfg = (twin.cur .c0).pos twin.cfg ∧
    (∀ f ∈ [Field.raw 6 4, .symbol 2, .symbol 0, .symbol 0, .symbol 3, .symbol 1, .symbol 0, .raw 0x2A 6, .raw 0 0, .raw 7 3],
      f.fits twin = true) ∧
    24 = ([Field.raw 6 4, .symbol 2, .symbol 0, .symbol 0, .symbol 3, .symbol 1, .symbol 0, .raw 0x2A 6, .raw 0 0,
      .raw 7 3].map (Field.length twin)).sum ∧
    (twin.cur .c0).pos twin.cfg + 24 ≤ twin.cfg.w * 2 ^ twin.cfg.aw ∧
    ∀ i < 24, streamBit twin.cfg twin.buf ((twin.cur .c0).pos twin.cfg + i) = some false :=
  ⟨witness_twin _, by decide⟩

/-- A pass that writes and reads: WRBIT, WRHUF, RDHUF, RDRAW, WRRAW; and the empty pass. -/
theorem witness_ExtentAccuracyOfAPass :
    Ready ready ∧ 0x100 < 2 ^ ready.cfg.aw ∧
    gives (exec (.cset .c0 0x100) ready) (fun u =>
      decide (passBits .c0 [] u = some 0) &&
      decide (passBits .c0 [.wrbit .c0 true, .wrhuf .c0 3, .rdhuf .c0, .rdraw .c0 2, .wrraw .c0 5 4] u = some 11) &&
      gives (runCommands [.wrbit .c0 true, .wrhuf .c0 3, .rdhuf .c0, .rdraw .c0 2, .wrraw .c0 5 4] u)
        (fun t => decide (t.flt = false))) ∧
    0x100 * ready.cfg.w + 11 ≤ ready.cfg.w * 2 ^ ready.cfg.aw :=
  ⟨(witness_ready .c0).ready, by decide⟩

theorem witness_DrstReturnsToTheRoot : { ready with idx := 5 }.flt = false := by decide

/-- An internal node and the leaf of symbol 0. -/
theorem witness_DneedReportsNeed :
    ready.flt = false ∧ (ready.model.entries ready.cfg)[3]? = some 2 ∧ (ready.model.entries ready.cfg)[6]? = some 0 := by
  decide

theorem witness_DbitDescends : Ready { ready with idx := 3 } ∧ (ready.model.entries ready.cfg)[3]? = some 2 :=
  ⟨witness_at_index 3 (by decide), by decide⟩

theorem witness_DresReturnsTheSymbol :
    Ready { ready with idx := 5 } ∧ (ready.model.entries ready.cfg)[5]? = some (-3) ∧
    Ready { ready with idx := 6 } ∧ (ready.model.entries ready.cfg)[6]? = some 0 :=
  ⟨witness_at_index 5 (by decide), by decide, witness_at_index 6 (by decide), by decide⟩

/-- To an internal node, and to the leaf of symbol 3 (T8). -/
theorem witness_WalkLaw :
    Ready ready ∧ gives (runCommands (.drst :: [false, true].map .dbit) ready) (fun t => decide (t.flt = false ∧ t.idx = 3)) ∧
    gives (runCommands (.drst :: [false, true, true].map .dbit) ready) (fun t =>
      decide (t.flt = false ∧ (ready.model.entries ready.cfg)[t.idx]? = some (-3))) :=
  ⟨(witness_ready .c0).ready, by decide⟩

theorem witness_EldLoadsThePathWord : Ready ready ∧ 3 < ready.model.n := ⟨(witness_ready .c0).ready, by decide⟩

theorem witness_EhasReportsHas : ready.flt = false ∧ ready.path = 1 ∧ { ready with path := 10 }.path ≠ 1 := by decide

theorem witness_EgetReturnsTheLowestBit : { ready with path := 10 }.flt = false ∧ { ready with path := 10 }.path ≠ 1 := by decide

theorem witness_EnxtShiftsThePathWord : { ready with path := 3 }.flt = false ∧ { ready with path := 3 }.path ≠ 1 := by decide

theorem witness_ReaderDecodesTheWritersBits :
    Ready ready ∧ 2 < ready.model.n ∧ ready.model.code ready.cfg 2 = some [false, true, false] :=
  ⟨(witness_ready .c0).ready, by decide⟩

/-- With and without a recorded fault. -/
theorem witness_GetstReportsStatus :
    Inv ready ∧ (ready.model.entries ready.cfg)[0]? = some 6 ∧
    Inv { ready with flt := true, cause := .decProtocol, idx := 6, resp := some ⟨true, 0⟩ } ∧
    (ready.model.entries ready.cfg)[6]? = some 0 :=
  ⟨(witness_ready .c0).ready.inv, by decide,
    ⟨by decide, by decide, by decide, by decide, by decide, by decide, by decide, by decide⟩, by decide⟩

theorem witness_InvalidCursorFaults :
    (fresh m4 []).flt = false ∧ ((fresh m4 []).cur .c1).v = false ∧ (Instr.wrhuf .c1 9).cursor? = some .c1 ∧
    (Instr.wrhuf .c1 9).opc ≠ 0x01 := by decide

/-- `n = TW + 1`, and `n = 0` and `n = TW`. -/
theorem witness_RawWidthFaults :
    ready.flt = false ∧ (ready.cur .c0).v = true ∧ ready.cfg.tw < 9 ∧ 0 ≤ ready.cfg.tw ∧ 8 ≤ ready.cfg.tw ∧
    gives (exec (.rdraw .c0 8) ready) (fun _ => true) ∧ gives (exec (.wrraw .c0 0 0) ready) (fun _ => true) := by decide

theorem witness_SymbolRangeFaults : ready.flt = false ∧ ready.model.n ≤ 4 ∧ (ready.cur .c1).v = true := by decide

theorem witness_StartRangeFaults :
    ready.flt = false ∧ (ready.cur .c0).v = true ∧ (ready.cur .c0).wp < 0x101 := by decide

theorem witness_DecProtocolFaults :
    ready.flt = false ∧ (ready.model.entries ready.cfg)[6]? = some 0 ∧ (ready.model.entries ready.cfg)[0]? = some 6 ∧
    gives (exec (.rdhuf .c0) ready) (fun _ => true) := by decide

theorem witness_EncProtocolFaults :
    ready.flt = false ∧ ready.path = 1 ∧ gives (exec (.wrhuf .c0 3) ready) (fun _ => true) := by decide

theorem witness_FaultEntryIsPrecise :
    0x0013 < 2 ^ (16 + ready.cfg.xw) ∧
    gives (issue 0x000E ready) (fun t => decide (ready.flt = false ∧ t.flt = true)) ∧
    gives (issue 0x0013 ready) (fun t => decide (ready.flt = false ∧ t.flt = true)) := by decide

/-- One word for each of the seven causes. -/
theorem witness_CauseNamesTheViolation :
    Inv ready ∧ 0x1010006 < 2 ^ (16 + ready.cfg.xw) ∧
    gives (issue 0x0000 ready) (fun t => decide (ready.flt = false ∧ t.flt = true ∧ t.cause.code = 1)) ∧
    gives (issue 0x0002 (fresh m4 [])) (fun t => decide ((fresh m4 []).flt = false ∧ t.flt = true ∧ t.cause.code = 2)) ∧
    gives (issue 0x0904 ready) (fun t => decide (t.flt = true ∧ t.cause.code = 3)) ∧
    gives (issue 0x4000C ready) (fun t => decide (t.flt = true ∧ t.cause.code = 4)) ∧
    gives (issue 0x1010006 ready) (fun t => decide (t.flt = true ∧ t.cause.code = 5)) ∧
    gives (issue 0x000B ready) (fun t => decide (t.flt = true ∧ t.cause.code = 6)) ∧
    gives (issue 0x000E ready) (fun t => decide (t.flt = true ∧ t.cause.code = 7)) :=
  ⟨(witness_ready .c0).ready.inv, by decide⟩

theorem witness_FaultStateRefusesCommands :
    Inv { ready with flt := true, cause := .rawWidth, resp := some ⟨true, 0⟩ } ∧
    Instr.drst ≠ .getst ∧ 0 < 2 ^ (16 + ready.cfg.xw) ∧ decode ready.cfg 0 = .error .reservedOpcode :=
  ⟨⟨by decide, by decide, by decide, by decide, by decide, by decide, by decide, by decide⟩, by decide⟩

theorem witness_OnlyResetUndoesFaultsCursorsAndModel :
    gives (step { ready with flt := true, cause := .rawWidth, inbox := [.command 0x0001] }) (fun t => decide (t.flt = true)) ∧
    resetIsNext { ready with flt := true, cause := .rawWidth, inbox := [.command 0x0001] } = false ∧
    (ready.cur .c0).v = true := by decide

/-- A command of each kind of row of the table: a cursor command, one of the decoder, one of the encoder, a pure one. -/
theorem witness_CommandsWriteOnlyTheirRegisters :
    gives (exec (.wrhuf .c1 3) ready) (fun t => decide (t.buf ≠ ready.buf)) ∧
    gives (exec (.dbit true) ready) (fun t => decide (t.idx = 6)) ∧ gives (exec (.eld 2) ready) (fun t => decide (t.path = 10)) ∧
    gives (exec .getst ready) (fun _ => true) := by decide

theorem witness_WritesTouchOnlyTheirWords :
    ReadyCursor .c1 ready ∧ (Instr.wrraw .c1 0xFF 8).cursor? = some .c1 ∧
    writtenBits ready (.wrraw .c1 0xFF 8) = some (lowBits 0xFF 8) ∧
    gives (exec (.wrraw .c1 0xFF 8) ready) (fun _ => true) ∧
    ∀ j < 8, bitAddr ready.cfg ((ready.cur .c1).pos ready.cfg + j) ≠ 0x100 := ⟨witness_ready _, by decide⟩

theorem witness_CommandsOnlySetBitsOfAllocatedWords :
    gives (exec (.wrbit .c0 true) ready) (fun _ => true) ∧ bufRead ready.buf 0x100 = some 0x91 ∧
    Nat.testBit 0x91 0 = true ∧ bufRising ready.buf = true := by decide

/-- Two different states with nothing to tell them apart. -/
theorem witness_InvalidCursorIsUnobservable :
    observable (fresh m4 []) = observable { fresh m4 [] with c0 := ⟨7, 3, false⟩ } ∧
    fresh m4 [] ≠ { fresh m4 [] with c0 := ⟨7, 3, false⟩ } := by decide

theorem witness_WellFormedTablesAreWalkClosed :
    launchOk cfgA m5 = true ∧ (m5.entries cfgA)[0]? = some 8 ∧ 2 ≤ m5.n ∧ launchOk cfgA m1 = true := by decide

theorem witness_CodesArePrefixFree :
    launchOk cfgA m5 = true ∧ (0 : Nat) ≠ 1 ∧ m5.code cfgA 0 = some [false, false, false, false] ∧
    m5.code cfgA 1 = some [false, false, false, true] := by decide

theorem witness_KraftEquality : launchOk cfgA m4 = true ∧ launchOk cfgA m1 = true ∧ 3 < m4.n := by decide

theorem witness_PathWordsAreInRange : (launchOk cfgA m4 = true ∧ 3 < m4.n) ∧ launchOk cfgA m1 = true ∧ 0 < m1.n := by decide

/-- T2. -/
theorem witness_EveryBuilderMakesAWellFormedModel :
    cfgA.ok 2 = true ∧ outputsOk 2 [(0, 1), (1, 1)] = true ∧
    Merges (leavesOf [(0, 1), (1, 1)]) (.node (.leaf 0) (.leaf 1)) ∧
    flatten cfgA 2 (.node (.leaf 0) (.leaf 1)) = some m2 :=
  ⟨by decide, by decide,
    .step _ _ _ (.merge _ [] ⟨1, 0, .leaf 0⟩ ⟨1, 1, .leaf 1⟩ 2 (List.Perm.refl _) (by simp)) (.done ⟨2, 2, .node (.leaf 0) (.leaf 1)⟩),
    by decide⟩

theorem witness_ReferenceBuilderMergesTheLowest :
    outputsOk 1 [(0, 7)] = true ∧ outputsOk 4 [(0, 5), (1, 2), (2, 1), (3, 1)] = true := by decide

end Sys2Proof.Tests
end

section
/-! SUPPORT. The decoder read through the opcode map (30 R84 to R87, R92): a row selects a header exactly when `opc` names
the row and the fields the command does not use are 0, and a word decodes exactly when a row selects its header and `dat`
fits that row. Which words are illegal follows from the map alone. -/

namespace Sys2Proof.Machine

/-! ### The fields of a header -/

@[simp] theorem opcOf_hdrOf (word : Nat) : opcOf (hdrOf word) = word % 32 := by
  unfold opcOf hdrOf; omega

@[simp] theorem rsvOf_hdrOf (word : Nat) : rsvOf (hdrOf word) = word / 64 % 4 := by
  unfold rsvOf hdrOf; omega

@[simp] theorem cntOf_hdrOf (word : Nat) : cntOf (hdrOf word) = word / 256 % 256 := by
  unfold cntOf hdrOf; omega

theorem curOf_eq_c0 {hdr : Nat} : curOf hdr = .c0 ↔ hdr / 32 % 2 = 0 := by simp [curOf]

theorem curOf_hdrOf_eq_c0 {word : Nat} : curOf (hdrOf word) = .c0 ↔ word / 32 % 2 = 0 := by
  rw [curOf_eq_c0, hdrOf]; omega

theorem hdrOf_lt (word : Nat) : hdrOf word < 2 ^ 16 := Nat.mod_lt _ (Nat.two_pow_pos _)

theorem datOf_lt (cfg : Cfg) (word : Nat) : datOf cfg word < 2 ^ cfg.xw := Nat.mod_lt _ (Nat.two_pow_pos _)

/-- A bitwise AND acts on the `k` bits from bit `a` by itself. -/
theorem and_field (x y a k : Nat) : (x &&& y) / 2 ^ a % 2 ^ k = (x / 2 ^ a % 2 ^ k) &&& (y / 2 ^ a % 2 ^ k) := by
  rw [Nat.and_div_two_pow, Nat.and_mod_two_pow]

/-- The four fields of 30 R81 make up a header, so `h & mask = match` is one equation per field. -/
theorem and_eq_iff_fields {h m p : Nat} (hh : h < 2 ^ 16) (hp : p < 2 ^ 16) :
    h &&& m = p ↔ opcOf h &&& opcOf m = opcOf p ∧ h / 32 % 2 &&& m / 32 % 2 = p / 32 % 2 ∧
      rsvOf h &&& rsvOf m = rsvOf p ∧ cntOf h &&& cntOf m = cntOf p := by
  have hopc := and_field h m 0 5
  have hc := and_field h m 5 1
  have hrsv := and_field h m 6 2
  have hcnt := and_field h m 8 8
  have hlt : h &&& m < 2 ^ 16 := Nat.lt_of_le_of_lt Nat.and_le_left hh
  norm_num at hopc hc hrsv hcnt
  simp only [opcOf, rsvOf, cntOf, ← hopc, ← hc, ← hrsv, ← hcnt]
  omega

/-! ### What a row of the opcode map asks of a header -/

/-- The opcodes of the commands that use no cursor (30 R84, column "uses c"). -/
def usesNoCursor (opc : Nat) : Bool := decide (0x08 ≤ opc ∧ opc ≤ 0x0F ∨ opc = 0x12)

/-- The opcodes of the commands that use no count (30 R84, column "uses cnt"). -/
def usesNoCount (opc : Nat) : Bool := decide (opc ≠ 0x04 ∧ opc ≠ 0x05)

/-- `rsv` is 0, and so are `c` and `cnt` where the opcode does not use them (30 R81, R86). -/
def UnusedFieldsZero (hdr : Nat) : Prop :=
  rsvOf hdr = 0 ∧ (usesNoCursor (opcOf hdr) → curOf hdr = .c0) ∧ (usesNoCount (opcOf hdr) → cntOf hdr = 0)

theorem opcodeMap_pattern_range : ∀ row ∈ opcodeMap, 0x01 ≤ row.pattern ∧ row.pattern ≤ 0x12 := by decide

theorem opcodeMap_pattern_injective {row row' : MapRow} (hrow : row ∈ opcodeMap) (hrow' : row' ∈ opcodeMap)
    (h : row.pattern = row'.pattern) : row = row' :=
  List.inj_on_of_nodup_map (by decide : (opcodeMap.map MapRow.pattern).Nodup) hrow hrow' h

/-- A match is its row's opcode in the field `opc` and 0 in the other fields. -/
theorem opcodeMap_pattern_fields : ∀ row ∈ opcodeMap,
    row.pattern < 2 ^ 16 ∧ opcOf row.pattern = row.pattern ∧ row.pattern / 32 % 2 = 0 ∧ rsvOf row.pattern = 0 ∧
      cntOf row.pattern = 0 := by decide

/-- A mask compares `opc` and `rsv` always, `c` and `cnt` where they are unused (30 R84, after the table). -/
theorem opcodeMap_mask_fields : ∀ row ∈ opcodeMap,
    opcOf row.mask = 31 ∧ rsvOf row.mask = 3 ∧ row.mask / 32 % 2 = (usesNoCursor row.pattern).toNat ∧
      cntOf row.mask = if usesNoCount row.pattern then 255 else 0 := by decide

theorem row_selects_iff {row : MapRow} (hrow : row ∈ opcodeMap) {hdr : Nat} (hh : hdr < 2 ^ 16) :
    hdr &&& row.mask = row.pattern ↔ opcOf hdr = row.pattern ∧ UnusedFieldsZero hdr := by
  obtain ⟨hopc, hrsv, hc, hcnt⟩ := opcodeMap_mask_fields row hrow
  obtain ⟨hp, opc_pattern, c_pattern, rsv_pattern, cnt_pattern⟩ := opcodeMap_pattern_fields row hrow
  have keep_opc : opcOf hdr &&& 31 = opcOf hdr := Nat.and_two_pow_sub_one_of_lt_two_pow (Nat.mod_lt _ (by decide)) (n := 5)
  have keep_rsv : rsvOf hdr &&& 3 = rsvOf hdr := Nat.and_two_pow_sub_one_of_lt_two_pow (Nat.mod_lt _ (by decide)) (n := 2)
  have keep_cnt : cntOf hdr &&& 255 = cntOf hdr := Nat.and_two_pow_sub_one_of_lt_two_pow (Nat.mod_lt _ (by decide)) (n := 8)
  rw [and_eq_iff_fields hh hp, hopc, hrsv, hc, hcnt, opc_pattern, c_pattern, rsv_pattern, cnt_pattern, keep_opc,
    keep_rsv, UnusedFieldsZero, curOf_eq_c0]
  refine and_congr_right fun hsame => ?_
  rw [hsame]
  cases usesNoCursor row.pattern <;> cases usesNoCount row.pattern <;> simp [keep_cnt, and_comm, and_assoc]

/-! ### The decoder, row by row -/

theorem noCursor_eq_ok {hdr : Nat} {r : Except Illegal Instr} {i : Instr} :
    noCursor hdr r = .ok i ↔ curOf hdr = .c0 ∧ r = .ok i := by
  unfold noCursor; split <;> simp [*]

theorem noCount_eq_ok {hdr : Nat} {r : Except Illegal Instr} {i : Instr} :
    noCount hdr r = .ok i ↔ cntOf hdr = 0 ∧ r = .ok i := by
  unfold noCount; split <;> simp [*]

theorem datUses_eq_ok {k dat : Nat} {r : Except Illegal Instr} {i : Instr} :
    datUses k dat r = .ok i ↔ dat < 2 ^ k ∧ r = .ok i := by
  unfold datUses; split <;> simp_all

theorem opc_of_decodeFields {cfg : Cfg} {hdr dat : Nat} {i : Instr} (h : decodeFields cfg hdr dat = .ok i) :
    i.opc = opcOf hdr := by
  unfold decodeFields at h
  split at h
  · cases h
  · split at h <;> grind [noCursor_eq_ok, noCount_eq_ok, datUses_eq_ok, Instr.opc]

/-- On the opcode of a row the decoder answers a command exactly when the fields that must be 0 are 0. -/
theorem decodeFields_ok_iff {cfg : Cfg} {hdr dat : Nat} (hdat : dat < 2 ^ cfg.xw) : ∀ row ∈ opcodeMap,
    opcOf hdr = row.pattern →
      ((∃ i, decodeFields cfg hdr dat = .ok i) ↔ UnusedFieldsZero hdr ∧ dat < 2 ^ row.datBits cfg) := by
  by_cases hrsv : rsvOf hdr = 0
  · simp only [opcodeMap, List.forall_mem_cons, List.not_mem_nil, false_implies, implies_true, and_true]
    and_intros <;> intro hopc <;>
      simp [decodeFields, hopc, hrsv, noCursor_eq_ok, noCount_eq_ok, datUses_eq_ok, UnusedFieldsZero, usesNoCursor,
        usesNoCount, hdat, and_assoc]
  · simp [decodeFields, UnusedFieldsZero, hrsv]

/-- Every command has its row, and the row's match is its opcode (30 R84). -/
theorem opcodeMap_row_of_instr (i : Instr) : ∃ row ∈ opcodeMap, row.mnemonic = mnemonicOf i ∧ row.pattern = i.opc := by
  cases i <;> simp [opcodeMap, mnemonicOf, Instr.opc]

theorem row_of_decode {cfg : Cfg} {word : Nat} {i : Instr} (h : decode cfg word = .ok i) :
    ∃ row ∈ opcodeMap, row.mnemonic = mnemonicOf i ∧ opcOf (hdrOf word) = row.pattern ∧
      UnusedFieldsZero (hdrOf word) ∧ datOf cfg word < 2 ^ row.datBits cfg := by
  obtain ⟨row, hrow, hname, hpattern⟩ := opcodeMap_row_of_instr i
  have hopc : opcOf (hdrOf word) = row.pattern := by rw [hpattern, opc_of_decodeFields h]
  exact ⟨row, hrow, hname, hopc, (decodeFields_ok_iff (datOf_lt cfg word) row hrow hopc).mp ⟨i, h⟩⟩

theorem decode_of_row {cfg : Cfg} {word : Nat} {row : MapRow} (hrow : row ∈ opcodeMap)
    (hopc : opcOf (hdrOf word) = row.pattern) (hzero : UnusedFieldsZero (hdrOf word))
    (hdat : datOf cfg word < 2 ^ row.datBits cfg) : ∃ i, decode cfg word = .ok i ∧ mnemonicOf i = row.mnemonic := by
  obtain ⟨i, hi⟩ := (decodeFields_ok_iff (datOf_lt cfg word) row hrow hopc).mpr ⟨hzero, hdat⟩
  obtain ⟨row', hrow', hname, hopc', -⟩ := row_of_decode hi
  obtain rfl : row' = row := opcodeMap_pattern_injective hrow' hrow (hopc'.symm.trans hopc)
  exact ⟨i, hi, hname.symm⟩

/-! ### Illegal words -/

/-- A word that decodes to no command raises ILLEGAL_CMD (60 R233). -/
theorem issue_of_not_decoded {s : State} {word : Nat} (hclear : s.flt = false) (h : ∀ i, decode s.cfg word ≠ .ok i) :
    issue word s = .next { s with flt := true, cause := .illegalCmd, resp := some ⟨true, 0⟩ } := by
  unfold issue
  cases hd : decode s.cfg word with
  | ok i => exact absurd hd (h i)
  | error _ => exact whenClear_of_clear hclear

/-- Settles O3: a row selects a header through the fields its mask compares, and the decoder checks the same fields. -/
theorem wordsSelectRowsOfTheOpcodeMap : Obligations.WordsSelectRowsOfTheOpcodeMap := by
  intro cfg _ word _ _
  constructor
  · intro i hi
    obtain ⟨row, hrow, hname, hopc, hzero, hdat⟩ := row_of_decode hi
    exact ⟨row, hrow, hname, (row_selects_iff hrow (hdrOf_lt word)).mpr ⟨hopc, hzero⟩, hdat⟩
  · intro row hrow hselects hdat
    obtain ⟨hopc, hzero⟩ := (row_selects_iff hrow (hdrOf_lt word)).mp hselects
    exact decode_of_row hrow hopc hzero hdat

/-- Settles O4: the rows of the opcode map leave these opcodes out. -/
theorem reservedOpcodeRaisesIllegalCmd : Obligations.ReservedOpcodeRaisesIllegalCmd := by
  intro s word _ hclear hreserved
  refine issue_of_not_decoded hclear fun i hi => ?_
  obtain ⟨row, hrow, -, hopc, -⟩ := row_of_decode hi
  have hrange := opcodeMap_pattern_range row hrow
  rw [opcOf_hdrOf] at hopc
  omega

/-- Settles O5: a word that decodes has its unused fields 0, and its `dat` fits the one row of its opcode. -/
theorem mustBeZeroFieldRaisesIllegalCmd : Obligations.MustBeZeroFieldRaisesIllegalCmd := by
  intro s word _ hclear hnonzero
  refine issue_of_not_decoded hclear fun i hi => ?_
  obtain ⟨row, hrow, -, hopc, ⟨hrsv, hc, hcnt⟩, hdat⟩ := row_of_decode hi
  simp only [opcOf_hdrOf, rsvOf_hdrOf, cntOf_hdrOf, curOf_hdrOf_eq_c0, usesNoCursor, usesNoCount, decide_eq_true_eq]
    at hrsv hc hcnt
  rcases hnonzero with hrsv' | ⟨hc', hno⟩ | ⟨hcnt', hno⟩ | ⟨row', hrow', hselects, hdat'⟩
  · exact hrsv' hrsv
  · have := hc hno
    omega
  · exact hcnt' (hcnt hno)
  · have hopc' := ((row_selects_iff hrow' (hdrOf_lt word)).mp hselects).1
    obtain rfl : row' = row := opcodeMap_pattern_injective hrow' hrow (hopc'.symm.trans hopc)
    omega

end Sys2Proof.Machine
end

section
/-! SUPPORT. The Writer and the Reader against each other (40 R117, 41 R146, 42 R166): the Writer's register holds the path
word of the code bits still to come, the Reader's register the node that the bits so far lead to, each kept by one
command and so by a run of them. -/

namespace Sys2Proof.Machine

/-! ### Path words and table walks -/

/-- Dropping code bits from the front of a code shifts its path word right (42 R166). -/
theorem pathWord_shiftRight {code : List Bool} {j : Nat} (hj : j ≤ code.length) :
    pathWord code >>> j = pathWord (code.drop j) := by
  induction j generalizing code with
  | zero => rfl
  | succ j ih =>
    cases code with
    | nil => simp at hj
    | cons b bs =>
      rw [Nat.shiftRight_succ_inside, pathWord_cons_div, List.drop_succ_cons]
      exact ih (by simpa using hj)

/-- A walk takes its first bit exactly at an internal position, and goes on from the child the bit selects. -/
theorem nodeAt_cons_eq_some {d : List Int} {p q : Nat} {b : Bool} {bs : List Bool} :
    nodeAt d p (b :: bs) = some q ↔ ∃ e, d[p]? = some e ∧ 0 < e ∧ nodeAt d (descend p e b) bs = some q := by
  rw [nodeAt]
  cases d[p]? with
  | none => simp
  | some e => by_cases he : 0 < e <;> simp [he]

/-- A walk that takes more bits stands at an internal position before each of them. -/
theorem nodeAt_take {d : List Int} {p q j : Nat} {bits : List Bool} (h : nodeAt d p bits = some q)
    (hj : j < bits.length) : ∃ r e, nodeAt d p (bits.take j) = some r ∧ d[r]? = some e ∧ 0 < e := by
  induction j generalizing p bits with
  | zero =>
    obtain ⟨b, bs, rfl⟩ := List.exists_cons_of_length_pos hj
    obtain ⟨e, he, hpos, -⟩ := nodeAt_cons_eq_some.mp h
    exact ⟨p, e, rfl, he, hpos⟩
  | succ j ih =>
    obtain ⟨b, bs, rfl⟩ := List.exists_cons_of_length_pos (Nat.zero_lt_of_lt hj)
    obtain ⟨e, he, hpos, hnext⟩ := nodeAt_cons_eq_some.mp h
    obtain ⟨r, e', hr, hinternal⟩ := ih hnext (by simpa using hj)
    exact ⟨r, e', nodeAt_cons_eq_some.mpr ⟨e, he, hpos, hr⟩, hinternal⟩

/-! ### Runs -/

theorem runCommands_cons {i : Instr} {is : List Instr} {s t : State} (h : exec i s = .next t) :
    runCommands (i :: is) s = runCommands is t := by
  rw [runCommands, h, andThen_next]

theorem runCommands_append (is js : List Instr) (s : State) :
    runCommands (is ++ js) s = andThen (runCommands is s) (runCommands js) := by
  induction is generalizing s with
  | nil => rfl
  | cons i is ih => simp only [List.cons_append, runCommands, andThen_assoc, funext ih]

/-! ### The Writer -/

theorem has_eq_true_iff {s : State} {code : List Bool} (hpath : s.path = pathWord code) :
    has s = true ↔ 0 < code.length := by
  rw [has, hpath]
  cases code with
  | nil => simp [pathWord_nil]
  | cons b bs => simp [pathWord_cons_ne_one b bs]

/-- ELD loads the path word of the code (42 R160, WF4 of 40 R114). -/
theorem exec_eld_of_code {s : State} {sym : Nat} {code : List Bool} (h : Ready s) (hsym : sym < s.model.n)
    (hcode : s.model.code s.cfg sym = some code) :
    exec (.eld sym) s = .next { s with path := pathWord code, resp := some ⟨false, 0⟩ } := by
  obtain ⟨c, hc, hetab, -⟩ := h.inv.launch.code hsym
  obtain rfl : c = code := Option.some.inj (hc.symm.trans hcode)
  simp [exec, execEld, whenClear_of_clear h.clear, whenSymbol, Nat.not_le.mpr hsym, etabAt_of hetab, respond]

/-- EGET answers the first code bit still to come (42 R162). -/
theorem exec_eget_of_path {s : State} {b : Bool} {bs : List Bool} (hclear : s.flt = false)
    (hpath : s.path = pathWord (b :: bs)) : exec .eget s = .next { s with resp := some ⟨false, b.toNat⟩ } := by
  simp only [exec, execEget, whenClear_of_clear hclear, hpath, pathWord_cons_ne_one, if_false,
    pathWord_cons_testBit, respond]

/-- ENXT drops the first code bit still to come (42 R163). -/
theorem exec_enxt_of_path {s : State} {b : Bool} {bs : List Bool} (hclear : s.flt = false)
    (hpath : s.path = pathWord (b :: bs)) :
    exec .enxt s = .next { s with path := pathWord bs, resp := some ⟨false, 0⟩ } := by
  simp only [exec, execEnxt, whenClear_of_clear hclear, hpath, pathWord_cons_ne_one, if_false,
    pathWord_cons_div, respond]

/-- `j` ENXT commands drop `j` code bits (42 R166). -/
theorem run_enxt {s : State} {code : List Bool} {j : Nat} (hclear : s.flt = false) (hpath : s.path = pathWord code)
    (hj : j ≤ code.length) :
    ∃ t, runCommands (List.replicate j .enxt) s = .next t ∧ t.flt = false ∧ t.path = pathWord (code.drop j) := by
  induction j generalizing s code with
  | zero => exact ⟨s, rfl, hclear, hpath⟩
  | succ j ih =>
    obtain ⟨b, bs, rfl⟩ := List.exists_cons_of_length_pos (Nat.zero_lt_of_lt hj)
    rw [List.replicate_succ, runCommands_cons (exec_enxt_of_path hclear hpath), List.drop_succ_cons]
    exact ih hclear rfl (by simpa using hj)

/-- The Writer after ELD and `j` ENXT commands (42 R166). -/
theorem run_eld_enxt {s : State} {sym j : Nat} {code : List Bool} (h : Ready s) (hsym : sym < s.model.n)
    (hcode : s.model.code s.cfg sym = some code) (hj : j ≤ code.length) :
    ∃ t, runCommands (.eld sym :: List.replicate j .enxt) s = .next t ∧ t.flt = false ∧
      t.path = pathWord (code.drop j) := by
  rw [runCommands_cons (exec_eld_of_code h hsym hcode)]
  exact run_enxt h.clear rfl hj

/-! ### The Reader -/

theorem exec_drst_of_clear {s : State} (hclear : s.flt = false) :
    exec .drst s = .next { s with idx := 0, resp := some ⟨false, 0⟩ } :=
  whenClear_of_clear hclear

/-- DBIT at an internal node descends by the bit (41 R142). -/
theorem exec_dbit_of_internal {s : State} {e : Int} (b : Bool) (hclear : s.flt = false)
    (he : (s.model.entries s.cfg)[s.idx]? = some e) (hpos : 0 < e) :
    exec (.dbit b) s = .next { s with idx := descend s.idx e b, resp := some ⟨false, 0⟩ } := by
  simp [exec, execDbit, whenClear_of_clear hclear, dtabAt_of he, Int.not_le.mpr hpos, respond]

/-- DRES at the leaf of a symbol answers the symbol (41 R143). -/
theorem exec_dres_of_leaf {s : State} {sym : Nat} (hclear : s.flt = false)
    (he : (s.model.entries s.cfg)[s.idx]? = some (-(sym : Int))) :
    exec .dres s = .next { s with resp := some ⟨false, sym⟩ } := by
  simp [exec, execDres, whenClear_of_clear hclear, dtabAt_of he, respond]

/-- DBITs along a walk of the table lead the Reader to the walk's end (41 R146); apart from IDX and the response the
state is kept. -/
theorem run_dbit {s : State} {bits : List Bool} {q : Nat} (hclear : s.flt = false)
    (hwalk : nodeAt (s.model.entries s.cfg) s.idx bits = some q) :
    ∃ r, runCommands (bits.map .dbit) s = .next { s with idx := q, resp := r } := by
  induction bits generalizing s with
  | nil =>
    obtain rfl : s.idx = q := Option.some.inj hwalk
    exact ⟨s.resp, rfl⟩
  | cons b bs ih =>
    obtain ⟨e, he, hpos, hnext⟩ := nodeAt_cons_eq_some.mp hwalk
    rw [List.map_cons, runCommands_cons (exec_dbit_of_internal b hclear he hpos)]
    exact ih hclear hnext

/-- DRST and DBITs along a walk from the root lead the Reader to the walk's end. -/
theorem run_drst_dbit {s : State} {bits : List Bool} {q : Nat} (hclear : s.flt = false)
    (hwalk : nodeAt (s.model.entries s.cfg) 0 bits = some q) :
    ∃ r, runCommands (.drst :: bits.map .dbit) s = .next { s with idx := q, resp := r } := by
  rw [runCommands_cons (exec_drst_of_clear hclear)]
  exact run_dbit (s := { s with idx := 0, resp := some ⟨false, 0⟩ }) hclear hwalk

/-- On the way to a leaf NEED is true exactly while bits of the walk are left (40 R117). -/
theorem run_drst_dbit_need {s : State} {code : List Bool} {q j : Nat} {sym : Nat} (hclear : s.flt = false)
    (hwalk : nodeAt (s.model.entries s.cfg) 0 code = some q)
    (hleaf : (s.model.entries s.cfg)[q]? = some (-(sym : Int))) (hj : j ≤ code.length) :
    ∃ t, runCommands (.drst :: (code.take j).map .dbit) s = .next t ∧ need t = .next (decide (j < code.length)) := by
  rcases Nat.lt_or_eq_of_le hj with hlt | rfl
  · obtain ⟨p, e, htake, he, hpos⟩ := nodeAt_take hwalk hlt
    obtain ⟨r, hrun⟩ := run_drst_dbit hclear htake
    exact ⟨_, hrun, by rw [need_of he, decide_eq_true hpos, decide_eq_true hlt]⟩
  · obtain ⟨r, hrun⟩ := run_drst_dbit hclear hwalk
    exact ⟨_, by rw [List.take_length, hrun], by rw [need_of hleaf]; simp⟩

/-- The Reader fed a whole walk to a leaf answers the symbol of the leaf (40 R117). -/
theorem run_drst_dbit_dres {s : State} {code : List Bool} {q sym : Nat} (hclear : s.flt = false)
    (hwalk : nodeAt (s.model.entries s.cfg) 0 code = some q)
    (hleaf : (s.model.entries s.cfg)[q]? = some (-(sym : Int))) :
    ∃ t, runCommands (.drst :: code.map .dbit ++ [.dres]) s = .next t ∧ t.resp = some ⟨false, sym⟩ := by
  obtain ⟨r, hrun⟩ := run_drst_dbit hclear hwalk
  rw [runCommands_append, hrun, andThen_next,
    runCommands_cons (exec_dres_of_leaf (s := { s with idx := q, resp := r }) hclear hleaf)]
  exact ⟨_, rfl, rfl⟩

/-- Settles O39: the Writer's register is the path word of the bits still to come, and the code leads the Reader from the
root to the leaf of the symbol, through internal nodes only. -/
theorem readerDecodesTheWritersBits : Obligations.ReaderDecodesTheWritersBits := by
  intro s sym code hready hsym hcode
  obtain ⟨q, c, ⟨hc, hwalk, hleaf⟩, -⟩ := hready.inv.launch.leafOf hsym
  obtain rfl : c = code := Option.some.inj (hc.symm.trans hcode)
  refine ⟨fun j hj => ?_, fun j hj => run_drst_dbit_need hready.clear hwalk hleaf hj,
    run_drst_dbit_dres hready.clear hwalk hleaf⟩
  obtain ⟨t, hrun, hclear, hpath⟩ := run_eld_enxt hready hsym hcode hj
  refine ⟨t, hrun, by rw [hpath, pathWord_shiftRight hj], hpath, ?_, fun b hb => ?_⟩
  · rw [has_eq_true_iff hpath, List.length_drop, Nat.sub_pos_iff_lt]
  · obtain ⟨hlt, rfl⟩ := List.getElem?_eq_some_iff.mp hb
    exact exec_eget_of_path hclear (hpath.trans (by rw [List.drop_eq_getElem_cons hlt]))

end Sys2Proof.Machine
end

section
/-! SUPPORT. The walk law (41 R146), from a run back to the walk it made: DBITs that ended outside the fault state went
along a walk of the table, and in a table that is the pre-order of a tree a walk to a leaf spells the code of its symbol. -/

namespace Sys2Proof

/-- In the pre-order of a tree whose symbols differ, a walk from the root to the leaf of a symbol takes the bits of its
code (40 R113). -/
theorem Tree.code?_of_nodeAt (t : Tree) (hdistinct : t.symbols.Nodup) {d rest : List Int} {p q sym : Nat}
    {bits : List Bool} (hd : d.drop p = t.entries ++ rest) (hwalk : Machine.nodeAt d p bits = some q)
    (hleaf : d[q]? = some (-(sym : Int))) : t.code? sym = some bits := by
  induction t generalizing p bits rest with
  | leaf x =>
    have hp : d[p]? = some (-(x : Int)) := by rw [← List.head?_drop, hd]; rfl
    cases bits with
    | nil =>
      obtain rfl : p = q := Option.some.inj hwalk
      obtain rfl : x = sym := by simpa [hp] using hleaf
      simp [Tree.code?]
    | cons b bs =>
      obtain ⟨e, he, hpos, -⟩ := Machine.nodeAt_cons_eq_some.mp hwalk
      obtain rfl : -(x : Int) = e := Option.some.inj (hp.symm.trans he)
      omega
  | node a b iha ihb =>
    obtain ⟨hp, hfirst, hsecond⟩ := Tree.drop_left hd
    obtain ⟨ha, hb, hdisjoint⟩ := List.nodup_append.mp hdistinct
    cases bits with
    | nil =>
      obtain rfl : p = q := Option.some.inj hwalk
      have := Option.some.inj (hp.symm.trans hleaf)
      omega
    | cons bit bs =>
      obtain ⟨e, he, -, hnext⟩ := Machine.nodeAt_cons_eq_some.mp hwalk
      obtain rfl := Option.some.inj (hp.symm.trans he)
      cases bit with
      | false => simp [Tree.code?, iha ha hfirst hnext]
      | true =>
        have hcode := ihb hb hsecond hnext
        have hother : a.code? sym = none :=
          Tree.code?_eq_none.mpr fun hmem => hdisjoint _ hmem _ (Tree.code?_isSome.mp ⟨bs, hcode⟩) rfl
        simp [Tree.code?, hother, hcode]

/-- Under the launch premise a walk from the root to the leaf of a symbol takes the bits of its code. -/
theorem Launched.code_of_nodeAt {cfg : Cfg} {m : Model} (h : Launched cfg m) {q sym : Nat} {bits : List Bool}
    (hwalk : Machine.nodeAt (m.entries cfg) 0 bits = some q)
    (hleaf : (m.entries cfg)[q]? = some (-(sym : Int))) : m.code cfg sym = some bits := by
  obtain ⟨t, hentries, hcode, hdistinct, -⟩ := h.tree
  rw [hcode]
  exact t.code?_of_nodeAt hdistinct (rest := []) (by simpa using hentries) hwalk hleaf

namespace Machine

/-- No command returns from the fault state (60 R242, R243). -/
theorem exec_clear {i : Instr} {s t : State} (h : exec i s = .next t) (hclear : t.flt = false) : s.flt = false := by
  obtain ⟨hflt, -, rfl⟩ | ⟨hs, -⟩ | ⟨-, heffect⟩ := exec_cases h
  · exact hclear
  · exact hs
  · obtain ⟨-, -, -, hflt, -⟩ := effect_frame heffect
    rw [← hflt, hclear]

theorem runCommands_clear {is : List Instr} {s t : State} (h : runCommands is s = .next t) (hclear : t.flt = false) :
    s.flt = false := by
  induction is generalizing s with
  | nil =>
    cases h
    exact hclear
  | cons i is ih =>
    obtain ⟨u, hexec, hrun⟩ := andThen_eq_next.mp h
    exact exec_clear hexec (ih hrun)

/-- A DBIT that raised no fault stood at an internal node and descended by its bit (41 R142). -/
theorem exec_dbit_next {s t : State} {b : Bool} (h : exec (.dbit b) s = .next t) (hclear : t.flt = false) :
    ∃ e, (s.model.entries s.cfg)[s.idx]? = some e ∧ 0 < e ∧
      t = { s with idx := descend s.idx e b, resp := some ⟨false, 0⟩ } := by
  obtain ⟨hflt, -⟩ | ⟨-, x, -, rfl⟩ | ⟨-, heffect⟩ := exec_cases h
  · rw [exec_clear h hclear] at hflt
    cases hflt
  · cases hclear
  · exact heffect

/-- DBITs none of which faulted went along a walk of the table (41 R146). -/
theorem nodeAt_of_run_dbit {s t : State} {bits : List Bool} (h : runCommands (bits.map .dbit) s = .next t)
    (hclear : t.flt = false) : ∃ q, nodeAt (s.model.entries s.cfg) s.idx bits = some q := by
  induction bits generalizing s with
  | nil => exact ⟨s.idx, rfl⟩
  | cons b bs ih =>
    obtain ⟨u, hexec, hrun⟩ := andThen_eq_next.mp h
    obtain ⟨e, he, hpos, rfl⟩ := exec_dbit_next hexec (runCommands_clear hrun hclear)
    obtain ⟨q, hq⟩ := ih hrun
    exact ⟨q, nodeAt_cons_eq_some.mpr ⟨e, he, hpos, hq⟩⟩

/-- After DRST and DBITs none of which faulted, the state is the one before it with IDX at the end of the walk. -/
theorem run_drst_dbit_next {s t : State} {bits : List Bool} (hclear : s.flt = false)
    (h : runCommands (.drst :: bits.map .dbit) s = .next t) (hclear' : t.flt = false) :
    ∃ q r, nodeAt (s.model.entries s.cfg) 0 bits = some q ∧ t = { s with idx := q, resp := r } := by
  have hrun := h
  rw [runCommands_cons (exec_drst_of_clear hclear)] at hrun
  obtain ⟨q, hwalk⟩ := nodeAt_of_run_dbit hrun hclear'
  obtain ⟨r, hend⟩ := run_drst_dbit hclear hwalk
  rw [hend] at h
  cases h
  exact ⟨q, r, hwalk, rfl⟩

/-- DNEED at the leaf of a symbol answers 0 (41 R141). -/
theorem exec_dneed_of_leaf {s : State} {sym : Nat} (hclear : s.flt = false)
    (he : (s.model.entries s.cfg)[s.idx]? = some (-(sym : Int))) :
    exec .dneed s = .next { s with resp := some ⟨false, 0⟩ } := by
  simp [exec, execDneed, whenClear_of_clear hclear, need_of he, respond]

/-- Settles O34: the run without a fault went along a walk of the table, and a walk to a leaf spells the leaf's code. -/
theorem walkLaw : Obligations.WalkLaw := by
  intro s t bits hready hrun hclear
  obtain ⟨q, r, hwalk, rfl⟩ := run_drst_dbit_next hready.clear hrun hclear
  exact ⟨hwalk, fun sym hleaf =>
    ⟨hready.inv.launch.code_of_nodeAt hwalk hleaf, exec_dneed_of_leaf hclear hleaf, exec_dres_of_leaf hclear hleaf⟩⟩

end Machine
end Sys2Proof
end

section
/-! SUPPORT. Contract faults (60 R230 to R242): the checks that raise them, and the one inversion the statements go through.
Outside the fault state a command either raised the cause of a violation that held, and changed FLT, CAUSE and the
response only, or left FLT and CAUSE as they were. -/

namespace Sys2Proof.Machine

/-! ### The operand checks, where they raise -/

theorem whenRawWidth_of_gt {n : Nat} {s : State} {r : Res State} (h : s.cfg.tw < n) :
    whenRawWidth n s r = raise .rawWidth s := if_pos h

theorem whenSymbol_of_ge {sym : Nat} {s : State} {r : Res State} (h : s.model.n ≤ sym) :
    whenSymbol sym s r = raise .symbolRange s := if_pos h

theorem whenStart_of_gt {c : Cur} {start : Nat} {s : State} {r : Res State} (h : (s.cur c).wp < start) :
    whenStart c start s r = raise .startRange s := if_pos h

/-! ### What a command outside the fault state does to FLT and CAUSE -/

/-- A command issued outside the fault state raised a violation that held and changed nothing else, or it kept FLT and
CAUSE. -/
theorem exec_violation_or_keeps {i : Instr} {s t : State} (h : exec i s = .next t) (hclear : s.flt = false) :
    (Violation s t.cause i ∧ t = { s with flt := true, cause := t.cause, resp := some ⟨true, 0⟩ }) ∨
    (t.flt = false ∧ t.cause = s.cause) := by
  obtain ⟨hflt, -⟩ | ⟨-, x, hviolation, rfl⟩ | ⟨-, heffect⟩ := exec_cases h
  · rw [hclear] at hflt
    cases hflt
  · exact Or.inl ⟨hviolation, rfl⟩
  · obtain ⟨-, -, -, hflt, hcause, -⟩ := effect_frame heffect
    exact Or.inr ⟨hflt.trans hclear, hcause⟩

theorem exec_cause {i : Instr} {s t : State} (h : exec i s = .next t) (hclear : s.flt = false) :
    t.cause = s.cause ∨ Violation s t.cause i := by
  obtain ⟨hviolation, -⟩ | ⟨-, hcause⟩ := exec_violation_or_keeps h hclear
  · exact Or.inr hviolation
  · exact Or.inl hcause

theorem exec_keeps_clear {i : Instr} {s t : State} (h : exec i s = .next t) (hclear : s.flt = false)
    (hno : ∀ x, ¬ Violation s x i) : t.flt = false := by
  obtain ⟨hviolation, -⟩ | ⟨hflt, -⟩ := exec_violation_or_keeps h hclear
  · exact absurd hviolation (hno _)
  · exact hflt

/-- Fault entry by a command word (60 R231, R233): the word decodes to no command, or its command's violation held. -/
theorem issue_enters_fault {word : Nat} {s t : State} (h : issue word s = .next t) (hclear : s.flt = false)
    (hfault : t.flt = true) :
    t = { s with flt := true, cause := t.cause, resp := some ⟨true, 0⟩ } ∧
    ((t.cause = .illegalCmd ∧ ∃ e, decode s.cfg word = .error e) ∨
      ∃ i, decode s.cfg word = .ok i ∧ Violation s t.cause i) := by
  cases hd : decode s.cfg word with
  | error e =>
    rw [issue_of_not_decoded hclear (by simp [hd])] at h
    cases h
    exact ⟨rfl, Or.inl ⟨rfl, e, rfl⟩⟩
  | ok i =>
    have hexec : exec i s = .next t := by simpa [issue, hd] using h
    obtain ⟨hviolation, ht⟩ | ⟨hflt, -⟩ := exec_violation_or_keeps hexec hclear
    · exact ⟨ht, Or.inr ⟨i, rfl, hviolation⟩⟩
    · rw [hflt] at hfault
      cases hfault

/-! ### The table of causes -/

@[simp] theorem Cause.code_eq_zero {x : Cause} : x.code = 0 ↔ x = .none := by
  cases x <;> simp [Cause.code]

/-- The rows 2 to 7 of the table of causes (60 R232): the code, the opcodes the row lists and its condition. -/
def CauseTable (s : State) (x : Cause) (i : Instr) : Prop :=
  x.code = 2 ∧ i.opc ∈ [0x02, 0x03, 0x04, 0x05, 0x06, 0x07, 0x10, 0x11] ∧
      (∃ c, i.cursor? = some c ∧ (s.cur c).v = false) ∨
    x.code = 3 ∧ i.opc ∈ [0x04, 0x05] ∧ s.cfg.tw < i.count ∨
    x.code = 4 ∧ i.opc ∈ [0x0C, 0x11] ∧ s.model.n ≤ i.dat ∨
    x.code = 5 ∧ i.opc ∈ [0x06, 0x07] ∧ (∃ c, i.cursor? = some c ∧ (s.cur c).wp < i.dat) ∨
    x.code = 6 ∧ (i.opc = 0x0A ∧ need s = .next false ∨ i.opc = 0x0B ∧ need s = .next true) ∨
    x.code = 7 ∧ i.opc ∈ [0x0E, 0x0F] ∧ s.path = 1

theorem causeTable_cursorInvalid {s : State} {c : Cur} {i : Instr} (hc : i.cursor? = some c)
    (hopc : i.opc ∈ [0x02, 0x03, 0x04, 0x05, 0x06, 0x07, 0x10, 0x11]) (hv : (s.cur c).v = false) :
    CauseTable s .cursorInvalid i :=
  Or.inl ⟨rfl, hopc, c, hc, hv⟩

/-- Every violation is a row of the table of causes. -/
theorem causeTable_of_violation {s : State} {x : Cause} {i : Instr} (h : Violation s x i) : CauseTable s x i := by
  cases i with
  | cset | drst | dneed | ehas | getst => exact h.elim
  | rdbit c | wrbit c _ | rdhuf c =>
    obtain ⟨rfl, hv⟩ := h
    exact causeTable_cursorInvalid rfl (by simp [Instr.opc]) hv
  | rdraw c n | wrraw c _ n =>
    obtain ⟨rfl, hv⟩ | ⟨-, rfl, hn⟩ := h
    · exact causeTable_cursorInvalid rfl (by simp [Instr.opc]) hv
    · simpa [CauseTable, Cause.code, Instr.opc, Instr.count] using hn
  | elsz c start | btsz c start =>
    obtain ⟨rfl, hv⟩ | ⟨-, rfl, hstart⟩ := h
    · exact causeTable_cursorInvalid rfl (by simp [Instr.opc]) hv
    · simpa [CauseTable, Cause.code, Instr.opc, Instr.cursor?, Instr.dat] using hstart
  | wrhuf c symbol =>
    obtain ⟨rfl, hv⟩ | ⟨-, rfl, hsym⟩ := h
    · exact causeTable_cursorInvalid rfl (by simp [Instr.opc]) hv
    · simpa [CauseTable, Cause.code, Instr.opc, Instr.dat] using hsym
  | eld symbol =>
    obtain ⟨rfl, hsym⟩ := h
    simpa [CauseTable, Cause.code, Instr.opc, Instr.dat] using hsym
  | dbit | dres =>
    obtain ⟨rfl, hneed⟩ := h
    simpa [CauseTable, Cause.code, Instr.opc] using hneed
  | eget | enxt =>
    obtain ⟨rfl, hpath⟩ := h
    simpa [CauseTable, Cause.code, Instr.opc] using hpath

theorem Violation.cause_ne_none {s : State} {x : Cause} {i : Instr} (h : Violation s x i) : x ≠ .none := by
  rintro rfl
  simpa [CauseTable, Cause.code] using causeTable_of_violation h

/-! ### The fault state -/

theorem exec_of_fault {i : Instr} {s : State} (hfault : s.flt = true) (hi : i ≠ .getst) :
    exec i s = .next { s with resp := some ⟨true, 0⟩ } := by
  cases i with
  | getst => exact absurd rfl hi
  | _ => exact whenClear_of_fault hfault

theorem issue_of_not_decoded_of_fault {s : State} {word : Nat} (hfault : s.flt = true)
    (h : ∀ i, decode s.cfg word ≠ .ok i) : issue word s = .next { s with resp := some ⟨true, 0⟩ } := by
  unfold issue
  cases hd : decode s.cfg word with
  | ok i => exact absurd hd (h i)
  | error _ => exact whenClear_of_fault hfault

/-- Under the invariant IDX is inside the table, so STATUS has a value (10 R27, R28). -/
theorem Inv.status {s : State} (h : Inv s) : ∃ st, statusWord s = .next st := by
  obtain ⟨e, he⟩ := h.entry
  exact ⟨_, by rw [statusWord, need_of he, andThen_next]⟩

/-! ### The protocol of the Reader and the Writer -/

theorem exec_dbit_at_leaf {s : State} {e : Int} (b : Bool) (hclear : s.flt = false)
    (he : (s.model.entries s.cfg)[s.idx]? = some e) (hle : e ≤ 0) :
    exec (.dbit b) s = .next { s with flt := true, cause := .decProtocol, resp := some ⟨true, 0⟩ } := by
  simp [exec, execDbit, whenClear_of_clear hclear, dtabAt_of he, hle, raise]

theorem exec_dres_at_internal {s : State} {e : Int} (hclear : s.flt = false)
    (he : (s.model.entries s.cfg)[s.idx]? = some e) (hpos : 0 < e) :
    exec .dres s = .next { s with flt := true, cause := .decProtocol, resp := some ⟨true, 0⟩ } := by
  simp [exec, execDres, whenClear_of_clear hclear, dtabAt_of he, hpos, raise]

theorem exec_eget_at_sentinel {s : State} (hclear : s.flt = false) (hpath : s.path = 1) :
    exec .eget s = .next { s with flt := true, cause := .encProtocol, resp := some ⟨true, 0⟩ } := by
  simp [exec, execEget, whenClear_of_clear hclear, hpath, raise]

theorem exec_enxt_at_sentinel {s : State} (hclear : s.flt = false) (hpath : s.path = 1) :
    exec .enxt s = .next { s with flt := true, cause := .encProtocol, resp := some ⟨true, 0⟩ } := by
  simp [exec, execEnxt, whenClear_of_clear hclear, hpath, raise]

/-! ### The statements -/

/-- Settles O45: DEC_PROTOCOL is no violation of RDHUF, so RDHUF cannot raise it. -/
theorem decProtocolFaults : Obligations.DecProtocolFaults := by
  intro s e hclear he
  refine ⟨fun hle b => exec_dbit_at_leaf b hclear he hle, fun hpos => exec_dres_at_internal hclear he hpos,
    fun c t h => ?_⟩
  obtain hcause | ⟨hcause, -⟩ := exec_cause h hclear
  · exact Or.inl hcause
  · exact Or.inr hcause

/-- Settles O46: ENC_PROTOCOL is no violation of WRHUF, so WRHUF cannot raise it. -/
theorem encProtocolFaults : Obligations.EncProtocolFaults := by
  intro s hclear
  refine ⟨fun hpath => ⟨exec_eget_at_sentinel hclear hpath, exec_enxt_at_sentinel hclear hpath⟩, fun c sym t h => ?_⟩
  obtain hcause | ⟨hcause, -⟩ | ⟨-, hcause, -⟩ := exec_cause h hclear
  · exact Or.inl hcause
  · exact Or.inr (Or.inl hcause)
  · exact Or.inr (Or.inr hcause)

/-- Settles O47, by what a fault entry is. -/
theorem faultEntryIsPrecise : Obligations.FaultEntryIsPrecise := by
  intro word s t _ h hclear hfault
  obtain ⟨ht, ⟨hcause, -⟩ | ⟨i, -, hviolation⟩⟩ := issue_enters_fault h hclear hfault
  · exact ⟨ht, by simp [hcause], hfault⟩
  · exact ⟨ht, hviolation.cause_ne_none, hfault⟩

/-- Settles O48: code 0 is `none`, which the invariant ties to FLT, and every violation is a row of the table. -/
theorem causeNamesTheViolation : Obligations.CauseNamesTheViolation := by
  refine ⟨fun s hinv => ?_, fun word s t _ h hclear hfault => ?_⟩
  · rw [Cause.code_eq_zero, ← Bool.not_eq_true, hinv.cause, not_not]
  · obtain ⟨ht, ⟨hcause, herror⟩ | ⟨i, hi, hviolation⟩⟩ := issue_enters_fault h hclear hfault
    · exact ⟨ht, Or.inl ⟨by rw [hcause]; rfl, herror⟩⟩
    · exact ⟨ht, Or.inr ⟨i, hi, causeTable_of_violation hviolation⟩⟩

/-- Settles O42: the width check raises exactly for `cnt > TW`, and past it RDRAW and WRRAW have no violation left. -/
theorem rawWidthFaults : Obligations.RawWidthFaults := by
  intro s c v n hclear hvalid
  refine ⟨fun hn => ?_, fun hn t h => ?_⟩
  · simp [exec, execRdraw, execWrraw, whenClear_of_clear hclear, whenValid_of_valid hvalid, whenRawWidth_of_gt hn, raise]
  · rcases h with h | h
    · exact exec_keeps_clear h hclear fun x => by simp [Violation, hvalid, Nat.not_lt.mpr hn]
    · exact exec_keeps_clear h hclear fun x => by simp [Violation, hvalid, Nat.not_lt.mpr hn]

/-- Settles O43: the symbol check comes right after the checks of the fault state and of the cursor. -/
theorem symbolRangeFaults : Obligations.SymbolRangeFaults := by
  intro s sym hclear hsym
  refine ⟨?_, fun c hvalid => ?_⟩
  · simp [exec, execEld, whenClear_of_clear hclear, whenSymbol_of_ge hsym, raise]
  · simp [exec, execWrhuf, whenClear_of_clear hclear, whenValid_of_valid hvalid, whenSymbol_of_ge hsym, raise]

/-- Settles O44: the start check comes right after the checks of the fault state and of the cursor. -/
theorem startRangeFaults : Obligations.StartRangeFaults := by
  intro s c start hclear hvalid hstart
  constructor
  · simp [exec, execElsz, whenClear_of_clear hclear, whenValid_of_valid hvalid, whenStart_of_gt hstart, raise]
  · simp [exec, execBtsz, whenClear_of_clear hclear, whenValid_of_valid hvalid, whenStart_of_gt hstart, raise]

/-- Settles O49: the first check of every command but GETST refuses it, and STATUS has a value. -/
theorem faultStateRefusesCommands : Obligations.FaultStateRefusesCommands := by
  intro s hinv hfault
  obtain ⟨st, hst⟩ := hinv.status
  refine ⟨fun i hi => exec_of_fault hfault hi, fun word _ hword => issue_of_not_decoded_of_fault hfault hword,
    st, hst, ?_⟩
  simp [exec, execGetst, hst, hfault]

end Sys2Proof.Machine
end

section
/-! SUPPORT. The encoder against the decoder (30 R80 to R92): the header of a well-formed command has the command's
opcode, cursor and count in its fields and 0 in `rsv`, and a word that decodes has its fields in the command it decodes
to. -/

namespace Sys2Proof

open Machine

/-! ### The fields of an encoded command -/

theorem Instr.opc_lt (i : Instr) : i.opc < 32 := by cases i <;> simp [Instr.opc]

theorem Instr.count_lt {cfg : Cfg} {i : Instr} (h : i.wf cfg = true) : i.count < 256 := by
  cases i <;> simp_all [Instr.wf, Instr.count]

/-- Every operand that a command puts into `dat` has at most `XW` bits (00 R6, 30 R82). -/
theorem Instr.dat_lt {cfg : Cfg} {n : Nat} {i : Instr} (hok : cfg.ok n = true) (h : i.wf cfg = true) :
    i.dat < 2 ^ cfg.xw := by
  simp only [Cfg.ok, decide_eq_true_eq] at hok
  have widen {k v : Nat} (hk : k ≤ cfg.xw) (hv : v < 2 ^ k) : v < 2 ^ cfg.xw :=
    Nat.lt_of_lt_of_le hv (Nat.pow_le_pow_right (by decide) hk)
  cases i with
  | cset _ _ | elsz _ _ | btsz _ _ => exact widen (k := cfg.aw) (by omega) (of_decide_eq_true h)
  | wrraw _ value n =>
    simp only [Instr.wf, Bool.and_eq_true, decide_eq_true_eq] at h
    exact widen (k := cfg.tw) (by omega) h.1
  | wrbit _ bit | dbit bit => exact widen (k := 1) (by omega) (Bool.toNat_lt bit)
  | eld _ | wrhuf _ _ => exact of_decide_eq_true h
  | _ => exact Nat.two_pow_pos _

theorem Instr.hdr_lt {cfg : Cfg} {i : Instr} (h : i.wf cfg = true) : i.hdr < 2 ^ 16 := by
  have hopc := i.opc_lt
  have hcount := Instr.count_lt h
  have hcursor := Laws.TableRow.cursorBit_le i.cursor?
  unfold Instr.hdr
  omega

theorem Instr.hdr_fields (i : Instr) (hcount : i.count < 256) :
    opcOf i.hdr = i.opc ∧ rsvOf i.hdr = 0 ∧ cntOf i.hdr = i.count ∧ i.hdr / 32 % 2 = cursorBit i.cursor? := by
  have hopc := i.opc_lt
  have hcursor := Laws.TableRow.cursorBit_le i.cursor?
  unfold opcOf rsvOf cntOf Instr.hdr
  omega

theorem hdrOf_encode {cfg : Cfg} {i : Instr} (h : i.wf cfg = true) : hdrOf (encode i) = i.hdr := by
  have hlt := Instr.hdr_lt h
  unfold hdrOf encode
  omega

theorem datOf_encode {cfg : Cfg} {n : Nat} {i : Instr} (hok : cfg.ok n = true) (h : i.wf cfg = true) :
    datOf cfg (encode i) = i.dat := by
  have hhdr := Instr.hdr_lt h
  rw [datOf, encode, show (i.dat * 2 ^ 16 + i.hdr) / 2 ^ 16 = i.dat by omega]
  exact Nat.mod_eq_of_lt (Instr.dat_lt hok h)

/-- The header selects the cursor that the command names, and `C[0]` where it names none. -/
theorem Instr.curOf_hdr {i : Instr} (hcount : i.count < 256) : curOf i.hdr = i.cursor?.getD .c0 := by
  obtain ⟨-, -, -, hcursor⟩ := i.hdr_fields hcount
  rw [curOf, hcursor]
  rcases i.cursor? with _ | _ | _ <;> rfl

theorem testBit_zero_toNat (bit : Bool) : bit.toNat.testBit 0 = bit := by cases bit <;> rfl

theorem toNat_testBit_zero (n : Nat) : (n.testBit 0).toNat = n % 2 := by
  rw [Nat.toNat_testBit, Nat.pow_zero, Nat.div_one]

theorem toNat_testBit_zero_of_lt {n : Nat} (h : n < 2 ^ 1) : (n.testBit 0).toNat = n := by
  rw [toNat_testBit_zero]
  exact Nat.mod_eq_of_lt h

/-- The decoder gives back the command whose fields it is given. -/
theorem decodeFields_fields {cfg : Cfg} {i : Instr} (h : i.wf cfg = true) :
    decodeFields cfg i.hdr i.dat = .ok i := by
  have hcount := Instr.count_lt h
  obtain ⟨hopc, hrsv, hcnt, -⟩ := i.hdr_fields hcount
  have hcur := Instr.curOf_hdr hcount
  unfold decodeFields
  rw [hopc, hrsv]
  cases i <;>
    simp_all [-Nat.testBit_zero, Instr.opc, Instr.wf, Instr.dat, Instr.count, Instr.cursor?, noCursor_eq_ok,
      noCount_eq_ok, datUses_eq_ok, testBit_zero_toNat, Bool.toNat_le]

/-- Settles O1: the fields of the encoded word are the fields of the command. -/
theorem decodeOfEncodeIsTheCommand : Obligations.DecodeOfEncodeIsTheCommand := by
  intro cfg n i hok hwf
  rw [decode, hdrOf_encode hwf, datOf_encode hok hwf]
  exact decodeFields_fields hwf

/-! ### The fields of a word that decodes -/

/-- The fields of a header and a data operand are those of the command, which is well-formed. -/
structure FieldsOf (cfg : Cfg) (hdr dat : Nat) (i : Instr) : Prop where
  opc : i.opc = opcOf hdr
  rsv : rsvOf hdr = 0
  count : i.count = cntOf hdr
  cursor : i.cursor?.getD .c0 = curOf hdr
  dat : i.dat = dat
  wf : i.wf cfg = true

/-- Each branch of the decoder answers the command of its opcode with the fields as operands, behind the checks of the
fields the command does not use. -/
theorem fieldsOf_of_decodeFields {cfg : Cfg} {hdr dat : Nat} {i : Instr} (hdat : dat < 2 ^ cfg.xw)
    (h : decodeFields cfg hdr dat = .ok i) : FieldsOf cfg hdr dat i := by
  have hcnt : cntOf hdr < 256 := Nat.mod_lt _ (by decide)
  have hopc := opc_of_decodeFields h
  unfold decodeFields at h
  split at h
  · cases h
  next hrsv =>
    rw [not_not] at hrsv
    split at h <;> simp only [noCursor_eq_ok, noCount_eq_ok, datUses_eq_ok, Except.ok.injEq, reduceCtorEq] at h
    all_goals
      obtain rfl : _ = i := by tauto
      constructor <;>
        simp_all [-Nat.testBit_zero, Instr.opc, Instr.count, Instr.cursor?, Instr.dat, Instr.wf,
          toNat_testBit_zero_of_lt]

theorem cursorBit_of_curOf {o : Option Cur} {hdr : Nat} (h : o.getD .c0 = curOf hdr) : cursorBit o = hdr / 32 % 2 := by
  have hbit : cursorBit o = if o.getD .c0 = .c0 then 0 else 1 := by rcases o with _ | _ | _ <;> rfl
  have hzero := curOf_eq_c0 (hdr := hdr)
  rw [hbit, h]
  split <;> simp_all

theorem hdr_eq_of_fields {cfg : Cfg} {hdr dat : Nat} {i : Instr} (hlt : hdr < 2 ^ 16) (h : FieldsOf cfg hdr dat i) :
    i.hdr = hdr := by
  have hrsv := h.rsv
  rw [Instr.hdr, h.opc, h.count, cursorBit_of_curOf h.cursor]
  unfold opcOf cntOf rsvOf at *
  omega

theorem word_eq_of_fields (cfg : Cfg) (word : Nat) :
    word % 2 ^ (16 + cfg.xw) = datOf cfg word * 2 ^ 16 + hdrOf word := by
  rw [datOf, hdrOf, Nat.pow_add, Nat.mod_mul]
  omega

/-- Settles O2: a word is its two fields, and both are those of the command. -/
theorem encodeOfDecodeIsTheWord : Obligations.EncodeOfDecodeIsTheWord := by
  intro cfg _ word i _ hdecode
  have hfields := fieldsOf_of_decodeFields (datOf_lt cfg word) hdecode
  refine ⟨?_, hfields.wf⟩
  rw [word_eq_of_fields, encode, hfields.dat, hdr_eq_of_fields (hdrOf_lt word) hfields]

/-- Settles O6, by running the decoder on the nine words. -/
theorem sampleWordsDecodeAsWritten : Obligations.SampleWordsDecodeAsWritten := by
  unfold Obligations.SampleWordsDecodeAsWritten
  decide

end Sys2Proof
end

section
/-! SUPPORT. The cursor commands (43 R182 to R192) past their checks: each is its bit loop and a response, so it answers
what the loop answers where the loop's words are in EXTENT, and stops with UB_EXTENT where one of them is not. -/

namespace Sys2Proof.Machine

/-! ### Past the checks -/

theorem ReadyCursor.w_pos {c : Cur} {s : State} (h : ReadyCursor c s) : 1 ≤ s.cfg.w := h.ready.inv.launch.w_pos

theorem ReadyCursor.inRange {c : Cur} {s : State} (h : ReadyCursor c s) : (s.cur c).inRange s.cfg = true :=
  h.ready.inv.cursor c

/-- The checks of the fault state and of the cursor let a ready cursor's commands through (60 R241). -/
theorem ReadyCursor.passes {c : Cur} {s : State} (h : ReadyCursor c s) (r : Res State) :
    whenClear s (whenValid c s r) = r := by
  rw [whenClear_of_clear h.ready.clear, whenValid_of_valid h.valid]

theorem whenRawWidth_of_le {n : Nat} {s : State} {r : Res State} (h : n ≤ s.cfg.tw) : whenRawWidth n s r = r :=
  if_neg (Nat.not_lt.mpr h)

theorem whenSymbol_of_lt {sym : Nat} {s : State} {r : Res State} (h : sym < s.model.n) : whenSymbol sym s r = r :=
  if_neg (Nat.not_le.mpr h)

theorem whenStart_of_le {c : Cur} {start : Nat} {s : State} {r : Res State} (h : start ≤ (s.cur c).wp) :
    whenStart c start s r = r :=
  if_neg (Nat.not_lt.mpr h)

theorem exec_rdbit_eq {c : Cur} {s : State} (h : ReadyCursor c s) :
    exec (.rdbit c) s =
      andThen (readBit s.cfg s.buf (s.cur c)) fun r => respond r.1.toNat (s.setCur c r.2) :=
  h.passes _

theorem exec_rdraw_eq {c : Cur} {s : State} {n : Nat} (h : ReadyCursor c s) (hn : n ≤ s.cfg.tw) :
    exec (.rdraw c n) s =
      andThen (readRaw s.cfg s.buf n 0 0 (s.cur c)) fun r => respond r.1 (s.setCur c r.2) :=
  (h.passes _).trans (whenRawWidth_of_le hn)

theorem exec_rdhuf_eq {c : Cur} {s : State} (h : ReadyCursor c s) :
    exec (.rdhuf c) s =
      andThen (walk s (s.model.dtab.length + 1) 0 (s.cur c)) fun r =>
        respond r.2.1 ({ s with idx := r.1 }.setCur c r.2.2) :=
  h.passes _

theorem exec_wrbit_eq {c : Cur} {s : State} (b : Bool) (h : ReadyCursor c s) :
    exec (.wrbit c b) s =
      andThen (writeBits s.cfg [b] s.buf (s.cur c)) fun r => respond 0 ({ s with buf := r.1 }.setCur c r.2) := by
  rw [← writeBit_eq_writeBits]
  exact h.passes _

theorem exec_wrraw_eq {c : Cur} {s : State} (value : Nat) {n : Nat} (h : ReadyCursor c s) (hn : n ≤ s.cfg.tw) :
    exec (.wrraw c value n) s =
      andThen (writeBits s.cfg (lowBits value n) s.buf (s.cur c)) fun r =>
        respond 0 ({ s with buf := r.1 }.setCur c r.2) := by
  rw [← writeRaw_eq_lowBits]
  exact (h.passes _).trans (whenRawWidth_of_le hn)

/-- WRHUF writes the bits of the symbol's code (43 R188, WF4 of 40 R114). -/
theorem exec_wrhuf_eq {c : Cur} {s : State} {sym : Nat} {code : List Bool} (h : ReadyCursor c s)
    (hsym : sym < s.model.n) (hcode : s.model.code s.cfg sym = some code) :
    exec (.wrhuf c sym) s =
      andThen (writeBits s.cfg code s.buf (s.cur c)) fun r =>
        respond 0 ({ s with path := 1, buf := r.1 }.setCur c r.2) := by
  obtain ⟨c', hc', hetab, hlen⟩ := h.ready.inv.launch.code hsym
  obtain rfl : c' = code := Option.some.inj (hc'.symm.trans hcode)
  refine ((h.passes _).trans (whenSymbol_of_lt hsym)).trans ?_
  rw [etabAt_of hetab, andThen_next, emit_eq_writeBits _ (by omega)]

/-! ### A list of bit writes, through a ready cursor -/

/-- Writing bits through a ready cursor ORs them into the stream where their words are in EXTENT (43 R181, R189). -/
theorem ReadyCursor.writes {c : Cur} {s : State} {bits : List Bool} (h : ReadyCursor c s)
    (hreach : reaches s.cfg s.buf ((s.cur c).pos s.cfg) bits.length) :
    ∃ buf', Ored s.cfg ((s.cur c).pos s.cfg) bits s.buf buf' ∧
      writeBits s.cfg bits s.buf (s.cur c) = .next (buf', cursorAfter s.cfg (s.cur c) bits.length) := by
  obtain ⟨buf', hrun, hored, -⟩ := writeBits_next h.w_pos bits h.inRange h.ready.inv.memory hreach
  exact ⟨buf', hored, hrun⟩

theorem ReadyCursor.writes_fault {c : Cur} {s : State} {bits : List Bool} (h : ReadyCursor c s)
    (hreach : ¬ reaches s.cfg s.buf ((s.cur c).pos s.cfg) bits.length) :
    writeBits s.cfg bits s.buf (s.cur c) = .fault .ubExtent :=
  writeBits_fault h.w_pos bits h.inRange h.ready.inv.rising hreach

@[simp] theorem lowBits_length (value n : Nat) : (lowBits value n).length = n := by simp [lowBits]

@[simp] theorem reaches_one {cfg : Cfg} {buf : List Cell} {p : Nat} :
    reaches cfg buf p 1 ↔ bitAddr cfg p ∈ extent buf := by
  simp [reaches]

theorem reaches_mono {cfg : Cfg} {buf : List Cell} {p m n : Nat} (h : reaches cfg buf p n) (hmn : m ≤ n) :
    reaches cfg buf p m := fun i hi => h i (Nat.lt_of_lt_of_le hi hmn)

/-! ### The code that the stream spells -/

/-- Some symbol's code agrees with every stream bit that is in EXTENT, as far as the code goes (41 R144). -/
theorem Inv.followed {s : State} (h : Inv s) (p : Nat) :
    ∃ sym q code, sym < s.model.n ∧ code.length ≤ s.model.n - 1 ∧ leafOf s sym q code ∧
      ∀ i < code.length, ∀ b, streamBit s.cfg s.buf (p + i) = some b → code[i]? = some b := by
  obtain ⟨sym, code, hsym, hcode, hlen, hbits⟩ :=
    h.launch.decodes fun i => (streamBit s.cfg s.buf (p + i)).getD false
  obtain ⟨-, q, hwalk, hleaf⟩ := codeFrom_sound hcode
  exact ⟨sym, q, code, hsym, by omega, ⟨hcode, hwalk, hleaf⟩, fun i hi b hb => by rw [hbits i hi, hb]; rfl⟩

theorem spells_of_agrees {cfg : Cfg} {buf : List Cell} {p : Nat} {code : List Bool}
    (hreach : reaches cfg buf p code.length)
    (h : ∀ i < code.length, ∀ b, streamBit cfg buf (p + i) = some b → code[i]? = some b) : spells cfg buf p code := by
  intro i hi
  obtain ⟨b, hb⟩ := streamBit_isSome.mpr (hreach i hi)
  rw [hb, h i hi b hb]

/-- A code is shorter than its table. -/
theorem code_length_lt {s : State} {sym : Nat} {code : List Bool} (h : s.model.code s.cfg sym = some code) :
    code.length < s.model.dtab.length :=
  (codeFrom_sound h).1

/-! ### Where the words are in EXTENT -/

/-- Settles O15: a word address keeps all its bits. -/
theorem csetCreatesAFreshCursor : Obligations.CsetCreatesAFreshCursor := by
  intro s c ptr hclear hptr
  refine (whenClear_of_clear hclear).trans ?_
  rw [Nat.mod_eq_of_lt hptr]
  rfl

/-- Settles O16, by what `read_bit` answers. -/
theorem rdbitReadsTheStreamBit : Obligations.RdbitReadsTheStreamBit := by
  intro s c b h hb
  rw [exec_rdbit_eq h, readBit_eq h.w_pos h.inRange, hb]
  rfl

/-- Settles O17: the one-bit case of a list of bit writes. -/
theorem wrbitOrsOneBit : Obligations.WrbitOrsOneBit := by
  intro s c b h hmem
  obtain ⟨buf', hored, hrun⟩ := h.writes (bits := [b]) (reaches_one.mpr hmem)
  exact ⟨buf', hored, by rw [exec_wrbit_eq b h, hrun]; rfl⟩

/-- Settles O18: the RDRAW loop answers the number that the stream bits denote. -/
theorem rdrawReadsTheNumber : Obligations.RdrawReadsTheNumber := by
  intro s c n h hn hreach
  have hrun := readRaw_eq h.w_pos _ 0 0 h.inRange (spells_of_reaches hreach)
  have hlt := bitsValue_lt ((List.range n).map fun i => (streamBit s.cfg s.buf ((s.cur c).pos s.cfg + i)).getD false)
  simp only [List.length_map, List.length_range, Nat.zero_or, Nat.shiftLeft_zero] at hrun hlt
  exact ⟨hlt, by rw [exec_rdraw_eq h hn, hrun]; rfl⟩

/-- Settles O19: WRRAW writes the low bits of its value. -/
theorem wrrawOrsTheLowBits : Obligations.WrrawOrsTheLowBits := by
  intro s c value n h hn hreach
  obtain ⟨buf', hored, hrun⟩ := h.writes (bits := lowBits value n) (by rwa [lowBits_length])
  exact ⟨buf', hored, by rw [exec_wrraw_eq value h hn, hrun, lowBits_length]; rfl⟩

/-- The bits of `d` whole words and `o` bits of a further one fill `d` words, and one more where `o` is not 0. -/
theorem words_round_up {w o : Nat} (d : Nat) (hw : 1 ≤ w) (ho : o ≤ w) :
    d + (if 0 < o then 1 else 0) = (d * w + o + (w - 1)) / w := by
  symm
  split
  · rw [Nat.div_eq_iff (by omega), Nat.succ_mul]
    omega
  · rw [Nat.div_eq_iff (by omega), Nat.add_zero]
    omega

/-- Settles O20: the offset of a cursor is at most `W`, so it counts for at most one word. -/
theorem elszReportsWordsRoundedUp : Obligations.ElszReportsWordsRoundedUp := by
  intro s c start h hstart
  obtain ⟨-, hbo⟩ := inRange_iff.mp h.inRange
  exact ⟨(h.passes _).trans (whenStart_of_le hstart), words_round_up _ h.w_pos hbo⟩

/-- The bits from a start address to a cursor fit `XW` bits (00 R6). -/
theorem bits_from_start_lt {cfg : Cfg} {m : Model} {k : Cursor} (hl : Launched cfg m) (hk : k.inRange cfg = true)
    (start : Nat) : (k.wp - start) * cfg.w + k.bo < 2 ^ cfg.xw := by
  obtain ⟨hwp, hbo⟩ := inRange_iff.mp hk
  calc (k.wp - start) * cfg.w + k.bo
      ≤ (k.wp - start + 1) * cfg.w := by rw [Nat.succ_mul]; omega
    _ ≤ 2 ^ cfg.aw * 2 ^ clog2 cfg.w := Nat.mul_le_mul (by omega) (le_two_pow_clog2 _)
    _ = 2 ^ (cfg.aw + clog2 cfg.w) := (Nat.pow_add ..).symm
    _ < 2 ^ cfg.xw := Nat.pow_lt_pow_right (by decide) hl.aw_xw

/-- Settles O21: the distance in bits is whole words and an offset, and it fits the result. -/
theorem btszReportsBits : Obligations.BtszReportsBits := by
  intro s c start h hstart
  have hdistance : (s.cur c).pos s.cfg - start * s.cfg.w = ((s.cur c).wp - start) * s.cfg.w + (s.cur c).bo := by
    have := Nat.mul_le_mul_right s.cfg.w hstart
    rw [Cursor.pos, Nat.sub_mul]
    omega
  rw [hdistance]
  exact ⟨(h.passes _).trans (whenStart_of_le hstart), rfl, bits_from_start_lt h.ready.inv.launch h.inRange start⟩

/-- Settles O22, by what the walk answers on the bits of a code. -/
theorem rdhufDecodesTheCode : Obligations.RdhufDecodesTheCode := by
  intro s c sym q code h ⟨hcode, hwalk, hleaf⟩ hspells
  have hlen := code_length_lt hcode
  rw [exec_rdhuf_eq h, walk_eq h.w_pos h.inRange hwalk hleaf hspells (by omega)]
  rfl

/-- Settles O23: the code that agrees with the stream has at most `N - 1` bits, so all of them are in EXTENT. -/
theorem anyStreamDecodes : Obligations.AnyStreamDecodes := by
  intro s c h hreach
  obtain ⟨sym, q, code, hsym, hlen, hleaf, hagrees⟩ := h.ready.inv.followed ((s.cur c).pos s.cfg)
  have hspells := spells_of_agrees (reaches_mono hreach hlen) hagrees
  exact ⟨sym, q, code, hsym, hlen, hleaf, hspells, rdhufDecodesTheCode s c sym q code h hleaf hspells⟩

/-- Settles O24: WRHUF writes the bits of the symbol's code. -/
theorem wrhufEmitsTheCode : Obligations.WrhufEmitsTheCode := by
  intro s c sym code h hsym hcode hreach
  obtain ⟨buf', hored, hrun⟩ := h.writes hreach
  exact ⟨buf', hored, by rw [exec_wrhuf_eq h hsym hcode, hrun]; rfl⟩

/-! ### Where they are not -/

/-- The computation answers where the condition holds, and runs off EXTENT where it fails. -/
structure AnswersWithin (P : Prop) (r : Res State) : Prop where
  next : P → ∃ t, r = .next t
  fault : ¬ P → r = .fault .ubExtent

theorem AnswersWithin.fault_iff {P : Prop} {r : Res State} (h : AnswersWithin P r) : r = .fault .ubExtent ↔ ¬ P := by
  refine ⟨fun hfault hp => ?_, h.fault⟩
  obtain ⟨t, ht⟩ := h.next hp
  cases ht.symm.trans hfault

theorem AnswersWithin.next_or_fault {P : Prop} {r : Res State} (h : AnswersWithin P r) :
    (∃ t, r = .next t) ∨ r = .fault .ubExtent := by
  by_cases hp : P
  · exact Or.inl (h.next hp)
  · exact Or.inr (h.fault hp)

theorem exec_rdbit_within {c : Cur} {s : State} (h : ReadyCursor c s) :
    AnswersWithin (bitAddr s.cfg ((s.cur c).pos s.cfg) ∈ extent s.buf) (exec (.rdbit c) s) where
  next hmem := by
    obtain ⟨b, hb⟩ := streamBit_isSome.mpr hmem
    exact ⟨_, rdbitReadsTheStreamBit s c b h hb⟩
  fault hmem := by
    rw [exec_rdbit_eq h, readBit_eq h.w_pos h.inRange, streamBit_eq_none.mpr hmem]
    rfl

theorem exec_wrbit_within {c : Cur} {s : State} (h : ReadyCursor c s) (b : Bool) :
    AnswersWithin (bitAddr s.cfg ((s.cur c).pos s.cfg) ∈ extent s.buf) (exec (.wrbit c b) s) where
  next hmem := by
    obtain ⟨_, -, hexec⟩ := wrbitOrsOneBit s c b h hmem
    exact ⟨_, hexec⟩
  fault hmem := by
    rw [exec_wrbit_eq b h, h.writes_fault (bits := [b]) (by simpa using hmem)]
    rfl

theorem exec_rdraw_within {c : Cur} {s : State} {n : Nat} (h : ReadyCursor c s) (hn : n ≤ s.cfg.tw) :
    AnswersWithin (reaches s.cfg s.buf ((s.cur c).pos s.cfg) n) (exec (.rdraw c n) s) where
  next hreach := ⟨_, (rdrawReadsTheNumber s c n h hn hreach).2⟩
  fault hreach := by
    rw [exec_rdraw_eq h hn, readRaw_fault h.w_pos n 0 0 h.inRange hreach]
    rfl

theorem exec_wrraw_within {c : Cur} {s : State} {n : Nat} (h : ReadyCursor c s) (hn : n ≤ s.cfg.tw) (value : Nat) :
    AnswersWithin (reaches s.cfg s.buf ((s.cur c).pos s.cfg) n) (exec (.wrraw c value n) s) where
  next hreach := by
    obtain ⟨_, -, hexec⟩ := wrrawOrsTheLowBits s c value n h hn hreach
    exact ⟨_, hexec⟩
  fault hreach := by
    rw [exec_wrraw_eq value h hn, h.writes_fault (by rwa [lowBits_length])]
    rfl

theorem exec_wrhuf_within {c : Cur} {s : State} {sym : Nat} {code : List Bool} (h : ReadyCursor c s)
    (hsym : sym < s.model.n) (hcode : s.model.code s.cfg sym = some code) :
    AnswersWithin (reaches s.cfg s.buf ((s.cur c).pos s.cfg) code.length) (exec (.wrhuf c sym) s) where
  next hreach := by
    obtain ⟨_, -, hexec⟩ := wrhufEmitsTheCode s c sym code h hsym hcode hreach
    exact ⟨_, hexec⟩
  fault hreach := by
    rw [exec_wrhuf_eq h hsym hcode, h.writes_fault hreach]
    rfl

theorem exec_rdhuf_within {c : Cur} {s : State} (h : ReadyCursor c s) :
    AnswersWithin (∃ sym code, s.model.code s.cfg sym = some code ∧ spells s.cfg s.buf ((s.cur c).pos s.cfg) code)
      (exec (.rdhuf c) s) where
  next hspelled := by
    obtain ⟨sym, code, hcode, hspells⟩ := hspelled
    obtain ⟨-, q, hwalk, hleaf⟩ := codeFrom_sound hcode
    exact ⟨_, rdhufDecodesTheCode s c sym q code h ⟨hcode, hwalk, hleaf⟩ hspells⟩
  fault hnone := by
    obtain ⟨sym, q, code, -, -, ⟨hcode, hwalk, -⟩, hagrees⟩ := h.ready.inv.followed ((s.cur c).pos s.cfg)
    have hreach : ¬ reaches s.cfg s.buf ((s.cur c).pos s.cfg) code.length := fun hreach =>
      hnone ⟨sym, code, hcode, spells_of_agrees hreach hagrees⟩
    have hlen := code_length_lt hcode
    rw [exec_rdhuf_eq h, walk_fault h.w_pos h.inRange hwalk hagrees hreach (by omega)]
    rfl

/-- Settles O25: each command answers where its words are in EXTENT, and its loop runs off where one is not. -/
theorem ubExtentExactlyOffTheExtent : Obligations.UbExtentExactlyOffTheExtent := fun _ _ h =>
  ⟨(exec_rdbit_within h).fault_iff, fun b => (exec_wrbit_within h b).fault_iff,
    fun _ hn => (exec_rdraw_within h hn).fault_iff, fun _ hn v => (exec_wrraw_within h hn v).fault_iff,
    fun _ hsym _ hcode => (exec_wrhuf_within h hsym hcode).fault_iff, (exec_rdhuf_within h).fault_iff⟩

/-- Settles O41: the check of the cursor comes right after the check of the fault state, before the other operands. -/
theorem invalidCursorFaults : Obligations.InvalidCursorFaults := by
  intro s c i hclear hinvalid hcursor hopc
  have hraise (r : Res State) : whenClear s (whenValid c s r) =
      .next { s with flt := true, cause := .cursorInvalid, resp := some ⟨true, 0⟩ } := by
    rw [whenClear_of_clear hclear, whenValid_of_invalid hinvalid]
    rfl
  cases i with
  | cset => exact absurd rfl hopc
  | rdbit | wrbit | rdraw | wrraw | elsz | btsz | rdhuf | wrhuf =>
    cases hcursor
    exact hraise _
  | _ => cases hcursor

end Sys2Proof.Machine
end

section
/-! SUPPORT. The Reader's, the Writer's and the system's commands past their checks (41, 42, 44): what each answers on
the table entry at IDX or the path word in PATH. -/

namespace Sys2Proof.Machine

/-! ### The Reader -/

/-- Settles O30, by the meaning of DRST. -/
theorem drstReturnsToTheRoot : Obligations.DrstReturnsToTheRoot := fun _ hclear => exec_drst_of_clear hclear

theorem toNat_decide (P : Prop) [Decidable P] : (decide P).toNat = if P then 1 else 0 := by
  by_cases h : P <;> simp [h]

/-- Settles O31: NEED is the sign of the entry at IDX. -/
theorem dneedReportsNeed : Obligations.DneedReportsNeed := by
  intro s e hclear he
  rw [← toNat_decide]
  refine (whenClear_of_clear hclear).trans ?_
  rw [need_of he]
  rfl

/-- Settles O32: a walk from an internal position goes up, and stays in the table (40 R115 (c)). -/
theorem dbitDescends : Obligations.DbitDescends := by
  intro s b e hready he hpos
  obtain ⟨hfirst, habove, hsecond⟩ := hready.inv.launch.children he hpos
  have hlen := hready.inv.launch.dtab_length
  refine ⟨?_, ?_⟩
  · rw [exec_dbit_of_internal b hready.clear he hpos]
    cases b <;> rfl
  · cases b
    · simp only [Bool.false_eq_true, if_false]
      omega
    · simp only [if_true]
      omega

/-- Settles O33: an entry that is not positive is the leaf of a symbol of the alphabet (WF3 of 40 R114). -/
theorem dresReturnsTheSymbol : Obligations.DresReturnsTheSymbol := by
  intro s e hready he hle
  refine ⟨exec_dres_of_leaf hready.clear ?_, hready.inv.launch.leaf he hle⟩
  rw [he, show -((-e).toNat : Int) = e by omega]

/-! ### The Writer -/

/-- Settles O35: ETAB holds the path word of the symbol's code (WF4, WF5 of 40 R114). -/
theorem eldLoadsThePathWord : Obligations.EldLoadsThePathWord := by
  intro s sym hready hsym
  obtain ⟨code, hcode, -, hlen⟩ := hready.inv.launch.code hsym
  exact ⟨code, hcode, by omega, exec_eld_of_code hready hsym hcode⟩

theorem has_toNat (s : State) : (has s).toNat = if s.path = 1 then 0 else 1 := by
  rw [has, toNat_decide]
  split <;> simp_all

/-- Settles O36: HAS is false exactly at the sentinel. -/
theorem ehasReportsHas : Obligations.EhasReportsHas := by
  intro s hclear
  rw [← has_toNat]
  exact whenClear_of_clear hclear

/-- Settles O37: away from the sentinel EGET answers the lowest bit. -/
theorem egetReturnsTheLowestBit : Obligations.EgetReturnsTheLowestBit := by
  intro s hclear hpath
  rw [← toNat_testBit_zero]
  exact (whenClear_of_clear hclear).trans (if_neg hpath)

/-- Settles O38: away from the sentinel ENXT halves PATH, which is a shift by one bit. -/
theorem enxtShiftsThePathWord : Obligations.EnxtShiftsThePathWord := by
  intro s hclear hpath
  rw [Nat.shiftRight_one]
  exact (whenClear_of_clear hclear).trans (if_neg hpath)

/-! ### STATUS -/

/-- The fields of STATUS do not overlap, so their OR is their sum (10 R28). -/
theorem status_fields_or_eq_add (flt v0 v1 need has : Bool) : ∀ code < 16,
    flt.toNat ||| code <<< 1 ||| v0.toNat <<< 5 ||| v1.toNat <<< 6 ||| need.toNat <<< 7 ||| has.toNat <<< 8 =
      flt.toNat + 2 * code + 32 * v0.toNat + 64 * v1.toNat + 128 * need.toNat + 256 * has.toNat := by
  decide +revert

theorem Cause.code_le (x : Cause) : x.code ≤ 7 := by cases x <;> decide

theorem statusWord_of {s : State} {e : Int} (he : (s.model.entries s.cfg)[s.idx]? = some e) :
    statusWord s = .next (s.flt.toNat + 2 * s.cause.code + 32 * s.c0.v.toNat + 64 * s.c1.v.toNat
      + 128 * (decide (0 < e)).toNat + 256 * (has s).toNat) := by
  have hcode := s.cause.code_le
  rw [statusWord, need_of he, andThen_next, status_fields_or_eq_add _ _ _ _ _ _ (by omega)]

/-- STATUS uses nine bits (10 R28). -/
theorem statusWord_lt {s : State} {e : Int} {st : Nat} (he : (s.model.entries s.cfg)[s.idx]? = some e)
    (h : statusWord s = .next st) : st < 2 ^ 9 := by
  have hcode := s.cause.code_le
  have hbit := Bool.toNat_le
  obtain rfl := Host.Outcome.next.inj ((statusWord_of he).symm.trans h)
  linarith [hbit s.flt, hbit s.c0.v, hbit s.c1.v, hbit (decide (0 < e)), hbit (has s)]

/-- Settles O40: GETST has no check, and answers STATUS. -/
theorem getstReportsStatus : Obligations.GetstReportsStatus := by
  intro s e _ he
  refine ⟨?_, s.cause.code_le⟩
  rw [← has_toNat, ← toNat_decide]
  simp only [exec, execGetst, statusWord_of he, andThen_next]

end Sys2Proof.Machine
end

section
/-! SUPPORT. Steps and the invariant (00 R14, 10 R20, 60 R230, 70 R270): the invariant is kept by each update of one
register within its range, so by the effect of every command, by fault entry, by the host's moves and by reset; and
under it no command is refused. -/

namespace Sys2Proof

open Machine

/-! ### Ranges under the launch premise -/

theorem Launched.lt_xw {cfg : Cfg} {m : Model} (h : Launched cfg m) {sym : Nat} (hsym : sym < m.n) :
    sym < 2 ^ cfg.xw :=
  Nat.lt_of_lt_of_le hsym h.n_xw

theorem Launched.bit_lt_xw {cfg : Cfg} {m : Model} (h : Launched cfg m) (b : Bool) : b.toNat < 2 ^ cfg.xw := by
  refine Nat.lt_of_le_of_lt (Bool.toNat_le b) (Nat.one_lt_two_pow ?_)
  have := h.xw_nine
  omega

theorem Launched.one_lt_pw {cfg : Cfg} {m : Model} (h : Launched cfg m) : 1 < 2 ^ cfg.pw :=
  Nat.one_lt_two_pow (Nat.one_le_iff_ne_zero.mp h.pw_pos)

theorem Launched.path_range {cfg : Cfg} {m : Model} (h : Launched cfg m) {sym : Nat} (hsym : sym < m.n) {p : Nat}
    (hp : m.etab[sym]? = some p) : 1 ≤ p ∧ p < 2 ^ cfg.pw := by
  obtain ⟨code, -, hetab, hlen⟩ := h.code hsym
  obtain rfl := Option.some.inj (hetab.symm.trans hp)
  exact ⟨pathWord_pos code, Nat.lt_of_lt_of_le (pathWord_lt code) (Nat.pow_le_pow_right (by decide) hlen)⟩

/-- A position that the table holds is in the range of IDX (10 R24). -/
theorem Launched.index_le {cfg : Cfg} {m : Model} (h : Launched cfg m) {q : Nat} {e : Int}
    (hq : (m.entries cfg)[q]? = some e) : q ≤ 2 * m.n - 2 := by
  have hlt := (List.getElem?_eq_some_iff.mp hq).1
  rw [entries_length, h.dtab_length] at hlt
  omega

/-- WRHUF with the path word of its symbol writes the bits of the symbol's code (43 R188, WF4). -/
theorem Launched.emit_eq {cfg : Cfg} {m : Model} (h : Launched cfg m) {sym p : Nat} (hsym : sym < m.n)
    (hp : m.etab[sym]? = some p) (buf : List Cell) (k : Cursor) :
    ∃ code, m.code cfg sym = some code ∧ emit cfg cfg.pw p buf k = writeBits cfg code buf k := by
  obtain ⟨code, hcode, hetab, hlen⟩ := h.code hsym
  obtain rfl := Option.some.inj (hetab.symm.trans hp)
  exact ⟨code, hcode, emit_eq_writeBits code (by omega)⟩

end Sys2Proof

namespace Sys2Proof.Machine

/-! ### One step -/

theorem step_of_idle {s : State} (h : launchOk s.cfg s.model = true) (hinbox : s.inbox = []) : step s = .next s := by
  rw [step, nextMove, if_pos h, hinbox]

theorem step_of_move {s : State} {m : HostMove} {rest : List HostMove} (h : launchOk s.cfg s.model = true)
    (hinbox : s.inbox = m :: rest) : step s = perform m { s with inbox := rest } := by
  rw [step, nextMove, if_pos h, hinbox]

theorem step_of_not_launched {s : State} (h : launchOk s.cfg s.model = false) : step s = .refused .refusedLaunch := by
  rw [step, nextMove, h]
  rfl

/-- A step that answers a next state idled, or performed the first host move (00 R14). -/
theorem step_cases {s t : State} (h : step s = .next t) :
    launchOk s.cfg s.model = true ∧
      (s.inbox = [] ∧ t = s ∨
        ∃ m rest, s.inbox = m :: rest ∧ perform m { s with inbox := rest } = .next t) := by
  cases hl : launchOk s.cfg s.model with
  | false =>
    rw [step_of_not_launched hl] at h
    cases h
  | true =>
    refine ⟨rfl, ?_⟩
    cases hinbox : s.inbox with
    | nil =>
      rw [step_of_idle hl hinbox] at h
      exact Or.inl ⟨rfl, (Host.Outcome.next.inj h).symm⟩
    | cons m rest =>
      rw [step_of_move hl hinbox] at h
      exact Or.inr ⟨m, rest, rfl, h⟩

theorem issue_of_decoded {s : State} {word : Nat} {i : Instr} (h : decode s.cfg word = .ok i) :
    issue word s = exec i s := by
  rw [issue, h]

theorem hostWrite_of_lt {s : State} {a v : Nat} (ha : a < 2 ^ s.cfg.aw) (hv : v < 2 ^ s.cfg.w) :
    hostWrite a v s = .next { s with buf := bufPut s.buf a v } := if_pos ⟨ha, hv⟩

theorem launch_of_ok {m : Model} {s : State} (h : launchOk s.cfg m = true) :
    launch m s = .next { s with
      model := m, c0 := Cursor.reset, c1 := Cursor.reset, idx := 0, path := 1, flt := false, cause := .none,
      resp := none } := if_pos h

theorem launch_of_not_ok {m : Model} {s : State} (h : launchOk s.cfg m = false) :
    launch m s = .refused .refusedLaunch := by
  rw [launch, h]
  rfl

/-- Settles O7: a placed word is the first move of the inbox, and `issue` runs what it decodes to. -/
theorem stepRunsTheDecodedCommand : Obligations.StepRunsTheDecodedCommand :=
  ⟨fun s _ rest _ hl hinbox hdecode =>
      (step_of_move hl hinbox).trans (issue_of_decoded (s := { s with inbox := rest }) hdecode),
    fun s nbits word _ hl hdecode =>
      (step_of_move (s := s.withFetchWord nbits word) hl rfl).trans (issue_of_decoded (s := s) hdecode)⟩

/-- Settles O8: `nextMove` looks at the launch premise first and then at the inbox. -/
theorem idleBlockHoldsAndIllFormedLaunchIsRefused : Obligations.IdleBlockHoldsAndIllFormedLaunchIsRefused :=
  ⟨fun _ hl hinbox => step_of_idle hl hinbox, fun _ hl => step_of_not_launched hl⟩

/-- Settles O9, by the values of State.reset. -/
theorem resetLeavesNoCursorAndNoFault : Obligations.ResetLeavesNoCursorAndNoFault :=
  ⟨rfl, rfl, rfl, rfl, rfl, rfl, rfl⟩

/-- Settles O10: RST launches the Model given, or the present one. -/
theorem rstRelaunchesAndKeepsTheBuffer : Obligations.RstRelaunchesAndKeepsTheBuffer := by
  intro s load rest hl hinbox
  rw [step_of_move hl hinbox]
  exact ⟨fun hok => ⟨_, _, _, rfl, rfl, launch_of_ok (s := { s with inbox := rest }) hok⟩,
    fun hno => launch_of_not_ok (s := { s with inbox := rest }) hno⟩

/-- Settles O11: a host store is `bufPut` of a word in range. -/
theorem hostStoreChangesOneWord : Obligations.HostStoreChangesOneWord := by
  intro s a v rest h ha hv hinbox
  refine ⟨bufPut s.buf a v, ?_, memory_wf_put h.memory ha hv, bufRead_put_same _ _ _,
    fun b hb => bufRead_put_other _ _ hb⟩
  rw [step_of_move h.launched hinbox]
  exact hostWrite_of_lt (s := { s with inbox := rest }) ha hv

/-! ### Updates within range keep the invariant -/

/-- The invariant with another response that fits its field and mirrors FLT (30 R83). -/
theorem Inv.with_resp {s : State} (h : Inv s) {r : Response} (hflt : r.flt = s.flt) (hres : r.res < 2 ^ s.cfg.xw) :
    Inv { s with resp := some r } :=
  { h with response := decide_eq_true ⟨hflt, hres⟩ }

theorem Inv.with_inbox {s : State} (h : Inv s) (moves : List HostMove) : Inv { s with inbox := moves } :=
  { h with }

theorem Inv.with_idx {s : State} (h : Inv s) {i : Nat} (hi : i ≤ 2 * s.model.n - 2) : Inv { s with idx := i } :=
  { h with index := hi }

theorem Inv.with_path {s : State} (h : Inv s) {p : Nat} (hp : 1 ≤ p ∧ p < 2 ^ s.cfg.pw) : Inv { s with path := p } :=
  { h with path := hp }

theorem Inv.with_buf {s : State} (h : Inv s) {buf : List Cell} (hm : Memory.wf s.cfg buf = true) :
    Inv { s with buf := buf } :=
  { h with memory := hm }

/-- Fault entry keeps the invariant: CAUSE is written with FLT (10 R26, 60 R231). -/
theorem Inv.with_fault {s : State} (h : Inv s) {x : Cause} (hx : x ≠ .none) :
    Inv { s with flt := true, cause := x, resp := some ⟨true, 0⟩ } :=
  { h with cause := by simpa using hx, response := decide_eq_true ⟨rfl, Nat.two_pow_pos _⟩ }

/-- A response of a command that raised no fault keeps the invariant. -/
theorem Inv.responds {s : State} (h : Inv s) (hclear : s.flt = false) {v : Nat} (hv : v < 2 ^ s.cfg.xw) :
    Inv { s with resp := some ⟨false, v⟩ } :=
  h.with_resp hclear.symm hv

/-- A command that moves one cursor within range and responds keeps the invariant. -/
theorem Inv.moves {s : State} (h : Inv s) (hclear : s.flt = false) {c : Cur} {k : Cursor} {v : Nat}
    (hk : k.inRange s.cfg = true) (hv : v < 2 ^ s.cfg.xw) : Inv { s.setCur c k with resp := some ⟨false, v⟩ } := by
  have hresponds := h.responds hclear hv
  cases c
  · exact { hresponds with cursor0 := hk }
  · exact { hresponds with cursor1 := hk }

/-- A completed write keeps the invariant. -/
theorem Inv.writes {s : State} (h : Inv s) (hclear : s.flt = false) {c : Cur} {bits : List Bool} {buf : List Cell}
    {k : Cursor} (hrun : writeBits s.cfg bits s.buf (s.cur c) = .next (buf, k)) :
    Inv { { s with buf := buf }.setCur c k with resp := some ⟨false, 0⟩ } := by
  have hw := h.launch.w_pos
  obtain ⟨-, rfl, -, hm⟩ := writeBits_cases hw (h.cursor c) h.memory hrun
  exact (h.with_buf hm).moves hclear (cursorAfter_inRange hw (h.cursor c) _) (Nat.two_pow_pos _)

theorem rawNumber_lt (cfg : Cfg) (buf : List Cell) (p n : Nat) : rawNumber cfg buf p n < 2 ^ n := by
  simpa [rawNumber] using bitsValue_lt ((List.range n).map fun i => (streamBit cfg buf (p + i)).getD false)

/-- The effect of a command keeps the invariant. -/
theorem Inv.effect {i : Instr} {s t : State} (h : Inv s) (hclear : s.flt = false ∨ i = .getst) (he : Effect s t i) :
    Inv t := by
  have hl := h.launch
  have hw := hl.w_pos
  have hzero : 0 < 2 ^ s.cfg.xw := Nat.two_pow_pos _
  by_cases hi : i = .getst
  · subst hi
    obtain ⟨st, hst, rfl⟩ := he
    obtain ⟨e, hentry⟩ := h.entry
    exact h.with_resp rfl (Nat.lt_of_lt_of_le (statusWord_lt hentry hst) (Nat.pow_le_pow_right (by decide) hl.xw_nine))
  replace hclear := hclear.resolve_right hi
  cases i with
  | getst => exact absurd rfl hi
  | cset c ptr =>
    subst he
    exact h.moves hclear (inRange_iff.mpr ⟨Nat.mod_lt _ (Nat.two_pow_pos _), Nat.zero_le _⟩) hzero
  | rdbit c =>
    obtain ⟨-, b, k, hread, rfl⟩ := he
    obtain ⟨-, rfl⟩ := readBit_next hw (h.cursor c) hread
    exact h.moves hclear (cursorAfter_inRange hw (h.cursor c) _) (hl.bit_lt_xw b)
  | wrbit c bit =>
    obtain ⟨-, buf, k, hwrite, rfl⟩ := he
    exact h.writes hclear (writeBit_eq_writeBits bit ▸ hwrite)
  | rdraw c n =>
    obtain ⟨-, hn, v, k, hread, rfl⟩ := he
    obtain ⟨-, rfl, rfl⟩ := readRaw_next hw (h.cursor c) hread
    refine h.moves hclear (cursorAfter_inRange hw (h.cursor c) _) (Nat.lt_of_lt_of_le (rawNumber_lt ..) ?_)
    exact Nat.pow_le_pow_right (by decide) (hn.trans hl.tw_xw)
  | wrraw c value n =>
    obtain ⟨-, -, buf, k, hwrite, rfl⟩ := he
    exact h.writes hclear (writeRaw_eq_lowBits value n ▸ hwrite)
  | elsz c start =>
    obtain ⟨-, -, rfl⟩ := he
    obtain ⟨-, hbo⟩ := inRange_iff.mp (h.cursor c)
    refine h.responds hclear (Nat.lt_of_le_of_lt ?_ (bits_from_start_lt hl (h.cursor c) start))
    have := Nat.le_mul_of_pos_right ((s.cur c).wp - start) hw
    split <;> omega
  | btsz c start =>
    obtain ⟨-, -, rfl⟩ := he
    exact h.responds hclear (bits_from_start_lt hl (h.cursor c) start)
  | drst =>
    subst he
    exact (h.with_idx (Nat.zero_le _)).responds hclear hzero
  | dneed =>
    obtain ⟨e, -, rfl⟩ := he
    exact h.responds hclear (hl.bit_lt_xw _)
  | dbit bit =>
    obtain ⟨e, hentry, hpos, rfl⟩ := he
    obtain ⟨-, -, hle⟩ := dbitDescends s bit e ⟨h, hclear⟩ hentry hpos
    exact (h.with_idx (i := descend s.idx e bit) (by cases bit <;> exact hle)).responds hclear hzero
  | dres =>
    obtain ⟨e, hentry, hle, rfl⟩ := he
    exact h.responds hclear (hl.lt_xw (hl.leaf hentry hle))
  | eld symbol =>
    obtain ⟨hsym, p, hp, rfl⟩ := he
    exact (h.with_path (hl.path_range hsym hp)).responds hclear hzero
  | ehas =>
    subst he
    exact h.responds hclear (hl.bit_lt_xw _)
  | eget =>
    obtain ⟨-, rfl⟩ := he
    exact h.responds hclear (hl.bit_lt_xw _)
  | enxt =>
    obtain ⟨hpath, rfl⟩ := he
    obtain ⟨hpos, hlt⟩ := h.path
    exact (h.with_path (p := s.path / 2) (by omega)).responds hclear hzero
  | rdhuf c =>
    obtain ⟨-, q, sym, k, hwalk, rfl⟩ := he
    obtain ⟨code, hsym, ⟨-, -, hleaf⟩, -, -, rfl⟩ := walk_next hl (h.cursor c) hwalk
    exact (h.with_idx (hl.index_le hleaf)).moves hclear (cursorAfter_inRange hw (h.cursor c) _) (hl.lt_xw hsym)
  | wrhuf c symbol =>
    obtain ⟨-, hsym, p, buf, k, hp, hwrite, rfl⟩ := he
    obtain ⟨code, -, hemit⟩ := hl.emit_eq hsym hp s.buf (s.cur c)
    exact (h.with_path ⟨Nat.le_refl 1, hl.one_lt_pw⟩).writes
      (s := { s with path := 1 }) hclear (by rw [cur_with_path]; exact hemit ▸ hwrite)

/-- Every command that answers a next state keeps the invariant. -/
theorem Inv.exec {i : Instr} {s t : State} (h : Inv s) (he : exec i s = .next t) : Inv t := by
  obtain ⟨hflt, -, rfl⟩ | ⟨-, x, hviolation, rfl⟩ | ⟨hclear, heffect⟩ := exec_cases he
  · exact h.with_resp hflt.symm (Nat.two_pow_pos _)
  · exact h.with_fault hviolation.cause_ne_none
  · exact h.effect hclear heffect

/-- What a command word that answers a next state did: the command it decodes to, or nothing of a command. -/
theorem issue_cases {word : Nat} {s t : State} (h : issue word s = .next t) :
    (∃ i, decode s.cfg word = .ok i ∧ exec i s = .next t) ∨
    (s.flt = true ∧ t = { s with resp := some ⟨true, 0⟩ }) ∨
    (s.flt = false ∧ t = { s with flt := true, cause := .illegalCmd, resp := some ⟨true, 0⟩ }) := by
  unfold issue at h
  split at h
  next i hi => exact Or.inl ⟨i, hi, h⟩
  next =>
    obtain ⟨hflt, rfl⟩ | ⟨hflt, hraise⟩ := whenClear_cases h
    · exact Or.inr (Or.inl ⟨hflt, rfl⟩)
    · exact Or.inr (Or.inr ⟨hflt, raise_eq hraise⟩)

theorem Inv.issue {word : Nat} {s t : State} (h : Inv s) (he : issue word s = .next t) : Inv t := by
  obtain ⟨i, -, hexec⟩ | ⟨hflt, rfl⟩ | ⟨-, rfl⟩ := issue_cases he
  · exact h.exec hexec
  · exact h.with_resp hflt.symm (Nat.two_pow_pos _)
  · exact h.with_fault (by decide)

theorem hostWrite_next {a v : Nat} {s t : State} (h : hostWrite a v s = .next t) :
    (a < 2 ^ s.cfg.aw ∧ v < 2 ^ s.cfg.w) ∧ t = { s with buf := bufPut s.buf a v } := by
  unfold hostWrite at h
  split at h
  next hrange => exact ⟨hrange, (Host.Outcome.next.inj h).symm⟩
  next => cases h

theorem launch_next {m : Model} {s t : State} (h : launch m s = .next t) :
    launchOk s.cfg m = true ∧
      t = { s with
        model := m, c0 := Cursor.reset, c1 := Cursor.reset, idx := 0, path := 1, flt := false, cause := .none,
        resp := none } := by
  cases hok : launchOk s.cfg m with
  | false =>
    rw [launch_of_not_ok hok] at h
    cases h
  | true =>
    rw [launch_of_ok hok] at h
    exact ⟨rfl, (Host.Outcome.next.inj h).symm⟩

theorem Cursor.reset_inRange (cfg : Cfg) : Cursor.reset.inRange cfg = true :=
  inRange_iff.mpr ⟨Nat.two_pow_pos _, Nat.zero_le _⟩

/-- A launch keeps the memory and puts every register at its reset value (10 R34). -/
theorem Inv.launches {m : Model} {s t : State} (h : Inv s) (he : Machine.launch m s = .next t) : Inv t := by
  obtain ⟨hok, rfl⟩ := launch_next he
  exact
    { launched := hok
      cursor0 := Cursor.reset_inRange _
      cursor1 := Cursor.reset_inRange _
      index := Nat.zero_le _
      path := ⟨Nat.le_refl 1, (launchOk_iff.mp hok).one_lt_pw⟩
      cause := by simp
      memory := h.memory
      response := rfl }

theorem Inv.perform {m : HostMove} {s t : State} (h : Inv s) (he : perform m s = .next t) : Inv t := by
  cases m with
  | command word => exact h.issue he
  | write a v =>
    obtain ⟨⟨ha, hv⟩, rfl⟩ := hostWrite_next he
    exact h.with_buf (memory_wf_put h.memory ha hv)
  | rst load => exact h.launches he

/-- Settles O12, register by register. -/
theorem resetMeetsTheInvariant : Obligations.ResetMeetsTheInvariant :=
  ⟨by decide, by decide, by decide, by decide, by decide, by decide, by decide, by decide⟩

/-- Settles O13: an idle step changes nothing, and every host move keeps the invariant. -/
theorem everyStepKeepsTheInvariant : Obligations.EveryStepKeepsTheInvariant := by
  intro s t h hstep
  obtain ⟨-, ⟨-, rfl⟩ | ⟨m, rest, -, hperform⟩⟩ := step_cases hstep
  · exact h
  · exact (h.with_inbox rest).perform hperform

/-! ### Where a command stops -/

/-- A command stopped: outside the fault state, as a command that accesses bits, through a valid cursor. -/
def RunsOff (i : Instr) (s : State) : Prop :=
  exec i s = .fault .ubExtent ∧ s.flt = false ∧ i.opc ∈ [0x02, 0x03, 0x04, 0x05, 0x10, 0x11] ∧
    ∃ c, i.cursor? = some c ∧ (s.cur c).v = true

/-- A bit-access command through an invalid cursor answers; through a valid one it may run off EXTENT (60 R241). -/
theorem next_or_runsOff_of_cursor {s : State} {i : Instr} {c : Cur} (h : Ready s) (hc : i.cursor? = some c)
    (hopc : i.opc ∈ [0x02, 0x03, 0x04, 0x05, 0x10, 0x11])
    (hvalid : ReadyCursor c s → (∃ t, exec i s = .next t) ∨ exec i s = .fault .ubExtent) :
    (∃ t, exec i s = .next t) ∨ RunsOff i s := by
  cases hv : (s.cur c).v with
  | false => exact Or.inl ⟨_, invalidCursorFaults s c i h.clear hv hc (by rintro h1; simp [h1] at hopc)⟩
  | true => exact (hvalid ⟨h, hv⟩).imp_right fun hfault => ⟨hfault, h.clear, hopc, c, hc, hv⟩

/-- A size command answers, whatever its cursor and its start address. -/
theorem size_answers {s : State} {c : Cur} {start v : Nat} (hclear : s.flt = false) :
    ∃ t, whenClear s (whenValid c s (whenStart c start s (respond v s))) = .next t := by
  rw [whenClear_of_clear hclear]
  unfold whenValid whenStart
  split
  · split <;> exact ⟨_, rfl⟩
  · exact ⟨_, rfl⟩

/-- Under the invariant a command answers a next state, or it runs off EXTENT. -/
theorem Inv.next_or_runsOff {s : State} (h : Inv s) (i : Instr) : (∃ t, Machine.exec i s = .next t) ∨ RunsOff i s := by
  cases hflt : s.flt with
  | true =>
    obtain ⟨hrefuse, -, st, -, hgetst⟩ := faultStateRefusesCommands s h hflt
    by_cases hi : i = .getst
    · exact Or.inl ⟨_, hi ▸ hgetst⟩
    · exact Or.inl ⟨_, hrefuse i hi⟩
  | false =>
    have hready : Ready s := ⟨h, hflt⟩
    obtain ⟨e, he⟩ := h.entry
    cases i with
    | cset c ptr => exact Or.inl ⟨_, whenClear_of_clear hflt⟩
    | rdbit c =>
      exact next_or_runsOff_of_cursor hready rfl (by simp [Instr.opc]) fun hc => (exec_rdbit_within hc).next_or_fault
    | wrbit c bit =>
      exact next_or_runsOff_of_cursor hready rfl (by simp [Instr.opc]) fun hc =>
        (exec_wrbit_within hc bit).next_or_fault
    | rdraw c n =>
      refine next_or_runsOff_of_cursor hready rfl (by simp [Instr.opc]) fun hc => ?_
      rcases Nat.lt_or_ge s.cfg.tw n with hn | hn
      · exact Or.inl ⟨_, ((rawWidthFaults s c 0 n hflt hc.valid).1 hn).1⟩
      · exact (exec_rdraw_within hc hn).next_or_fault
    | wrraw c value n =>
      refine next_or_runsOff_of_cursor hready rfl (by simp [Instr.opc]) fun hc => ?_
      rcases Nat.lt_or_ge s.cfg.tw n with hn | hn
      · exact Or.inl ⟨_, ((rawWidthFaults s c value n hflt hc.valid).1 hn).2⟩
      · exact (exec_wrraw_within hc hn value).next_or_fault
    | elsz c start => exact Or.inl (size_answers hflt)
    | btsz c start => exact Or.inl (size_answers hflt)
    | drst => exact Or.inl ⟨_, drstReturnsToTheRoot s hflt⟩
    | dneed => exact Or.inl ⟨_, dneedReportsNeed s e hflt he⟩
    | dbit bit =>
      rcases lt_or_ge 0 e with hpos | hle
      · exact Or.inl ⟨_, exec_dbit_of_internal bit hflt he hpos⟩
      · exact Or.inl ⟨_, exec_dbit_at_leaf bit hflt he hle⟩
    | dres =>
      rcases lt_or_ge 0 e with hpos | hle
      · exact Or.inl ⟨_, exec_dres_at_internal hflt he hpos⟩
      · exact Or.inl ⟨_, (dresReturnsTheSymbol s e hready he hle).1⟩
    | eld symbol =>
      rcases Nat.lt_or_ge symbol s.model.n with hsym | hsym
      · obtain ⟨code, -, -, hexec⟩ := eldLoadsThePathWord s symbol hready hsym
        exact Or.inl ⟨_, hexec⟩
      · exact Or.inl ⟨_, (symbolRangeFaults s symbol hflt hsym).1⟩
    | ehas => exact Or.inl ⟨_, ehasReportsHas s hflt⟩
    | eget =>
      by_cases hpath : s.path = 1
      · exact Or.inl ⟨_, exec_eget_at_sentinel hflt hpath⟩
      · exact Or.inl ⟨_, egetReturnsTheLowestBit s hflt hpath⟩
    | enxt =>
      by_cases hpath : s.path = 1
      · exact Or.inl ⟨_, exec_enxt_at_sentinel hflt hpath⟩
      · exact Or.inl ⟨_, enxtShiftsThePathWord s hflt hpath⟩
    | rdhuf c =>
      exact next_or_runsOff_of_cursor hready rfl (by simp [Instr.opc]) fun hc => (exec_rdhuf_within hc).next_or_fault
    | wrhuf c symbol =>
      refine next_or_runsOff_of_cursor hready rfl (by simp [Instr.opc]) fun hc => ?_
      rcases Nat.lt_or_ge symbol s.model.n with hsym | hsym
      · obtain ⟨code, hcode, -⟩ := h.launch.code hsym
        exact (exec_wrhuf_within hc hsym hcode).next_or_fault
      · exact Or.inl ⟨_, (symbolRangeFaults s symbol hflt hsym).2 c hc.valid⟩
    | getst => exact Or.inl ⟨_, (getstReportsStatus s e h he).1⟩

/-- Settles O14: the only stop of a command is to run off EXTENT. -/
theorem commandsStopOnlyOffTheExtent : Obligations.CommandsStopOnlyOffTheExtent := by
  intro i s h
  obtain ⟨t, ht⟩ | ⟨hfault, hrest⟩ := h.next_or_runsOff i
  · simp [ht]
  · rw [hfault]
    exact ⟨by simp, fun f hf => ⟨(Host.Outcome.fault.inj hf).symm, hrest⟩⟩

end Sys2Proof.Machine
end

section
/-! SUPPORT. What no step changes (10 R23, R29, 43 R181, 60 R243): every write to BUF is a list of bit writes, in any
state, and a bit write clears no bit, frees no word and keeps the valid bit of its cursor. Below it, what no step
observes: the registers of an invalid cursor. -/

namespace Sys2Proof.Machine

variable {cfg : Cfg} {buf buf' : List Cell} {k k' : Cursor}

/-! ### Bit accesses keep the valid bit -/

@[simp] theorem advance_v : (advance cfg k).v = k.v := by
  unfold advance
  split <;> rfl

theorem readBit_v {b : Bool} (h : readBit cfg buf k = .next (b, k')) : k'.v = k.v := by
  obtain ⟨w, -, hw⟩ := andThen_eq_next.mp h
  cases hw
  exact advance_v

theorem readRaw_v {left i v v' : Nat} (h : readRaw cfg buf left i v k = .next (v', k')) : k'.v = k.v := by
  induction left generalizing i v k with
  | zero =>
    cases h
    rfl
  | succ left ih =>
    obtain ⟨⟨b, k1⟩, hread, hrest⟩ := andThen_eq_next.mp h
    exact (ih hrest).trans (readBit_v hread)

theorem walk_v {s : State} {fuel idx q sym : Nat} (h : walk s fuel idx k = .next (q, sym, k')) : k'.v = k.v := by
  induction fuel generalizing idx k with
  | zero => cases h
  | succ fuel ih =>
    obtain ⟨e, -, h⟩ := andThen_eq_next.mp h
    split at h
    · obtain ⟨⟨b, k1⟩, hread, hrest⟩ := andThen_eq_next.mp h
      exact (ih hrest).trans (readBit_v hread)
    · cases h
      rfl

/-! ### What a bit write does to BUF -/

/-- Every bit that was 1 is 1, and a memory in rising order lists the same words. -/
structure Grows (buf buf' : List Cell) : Prop where
  bits : ∀ a w j, bufRead buf a = some w → w.testBit j = true → ∃ w', bufRead buf' a = some w' ∧ w'.testBit j = true
  extent : bufRising buf = true → bufRising buf' = true ∧ extent buf' = extent buf

theorem Grows.refl (buf : List Cell) : Grows buf buf where
  bits _ w _ hw hj := ⟨w, hw, hj⟩
  extent hr := ⟨hr, rfl⟩

theorem Grows.trans {b1 b2 b3 : List Cell} (h : Grows b1 b2) (h' : Grows b2 b3) : Grows b1 b3 where
  bits a w j hw hj := by
    obtain ⟨w', hw', hj'⟩ := h.bits a w j hw hj
    exact h'.bits a w' j hw' hj'
  extent hr := by
    obtain ⟨hr2, he2⟩ := h.extent hr
    obtain ⟨hr3, he3⟩ := h'.extent hr2
    exact ⟨hr3, he3.trans he2⟩

theorem grows_put_or {a w : Nat} (x : Nat) (hw : bufRead buf a = some w) : Grows buf (bufPut buf a (w ||| x)) where
  bits b u j hu hj := by
    by_cases hb : b = a
    · subst hb
      obtain rfl : w = u := Option.some.inj (hw.symm.trans hu)
      exact ⟨_, bufRead_put_same .., by rw [Nat.testBit_or, hj, Bool.true_or]⟩
    · exact ⟨u, (bufRead_put_other _ _ hb).trans hu, hj⟩
  extent hr := ⟨bufPut_rising _ _ hr, extent_put_of_mem _ hr (mem_extent.mpr ⟨w, hw⟩)⟩

theorem memRead_next {a w : Nat} (h : memRead buf a = .next w) : bufRead buf a = some w := by
  unfold memRead at h
  split at h
  next hw =>
    cases h
    exact hw
  next => cases h

theorem memWrite_next {a v : Nat} (h : memWrite buf a v = .next buf') : buf' = bufPut buf a v := by
  unfold memWrite at h
  split at h
  · exact (Host.Outcome.next.inj h).symm
  · cases h

theorem writeBit_next {b : Bool} (h : writeBit cfg b buf k = .next (buf', k')) : Grows buf buf' ∧ k'.v = k.v := by
  obtain ⟨w, hread, h⟩ := andThen_eq_next.mp h
  obtain ⟨buf1, hwrite, h⟩ := andThen_eq_next.mp h
  cases h
  obtain rfl := memWrite_next hwrite
  exact ⟨grows_put_or _ (memRead_next hread), advance_v⟩

theorem writeBits_grows {bits : List Bool} (h : writeBits cfg bits buf k = .next (buf', k')) :
    Grows buf buf' ∧ k'.v = k.v := by
  induction bits generalizing buf k with
  | nil =>
    cases h
    exact ⟨Grows.refl _, rfl⟩
  | cons b bs ih =>
    obtain ⟨⟨buf1, k1⟩, hwrite, hrest⟩ := andThen_eq_next.mp h
    obtain ⟨hgrows, hv⟩ := writeBit_next hwrite
    obtain ⟨hgrows', hv'⟩ := ih hrest
    exact ⟨hgrows.trans hgrows', hv'.trans hv⟩

/-- A WRHUF loop that ends wrote the bits under the sentinel of its path word (43 R188). -/
theorem emit_next_writeBits {fuel path : Nat} {r : List Cell × Cursor} (h : emit cfg fuel path buf k = .next r) :
    ∃ bits, path = pathWord bits ∧ writeBits cfg bits buf k = .next r := by
  induction fuel generalizing path buf k with
  | zero => cases h
  | succ fuel ih =>
    unfold emit at h
    split at h
    next hone => exact ⟨[], hone, h⟩
    next =>
      obtain ⟨⟨buf1, k1⟩, hwrite, hrest⟩ := andThen_eq_next.mp h
      obtain ⟨bits, hbits, hrun⟩ := ih hrest
      refine ⟨path.testBit 0 :: bits, ?_, ?_⟩
      · rw [pathWord_cons, toNat_testBit_zero, ← hbits]
        omega
      · rw [writeBits, hwrite]
        exact hrun

/-- Written words aside, a stretch of bit writes leaves every word as it was. -/
theorem Ored.read_other {p a : Nat} {bits : List Bool} (h : Ored cfg p bits buf buf')
    (ha : ∀ i < bits.length, bitAddr cfg (p + i) ≠ a) : bufRead buf' a = bufRead buf a := by
  obtain ⟨hextent, hwords⟩ := h
  cases hw : bufRead buf a with
  | none => rwa [bufRead_eq_none, hextent, ← bufRead_eq_none]
  | some w =>
    obtain ⟨w', hw', hbits⟩ := hwords a w hw
    have hsame : w' = w := Nat.eq_of_testBit_eq fun j => by
      rw [Bool.eq_iff_iff, hbits j, or_iff_left]
      rintro ⟨i, hi, haddr, -⟩
      exact ha i (List.getElem?_eq_some_iff.mp hi).1 haddr
    rw [hw', hsame]

/-! ### What a command's effect does to BUF and to its cursor -/

/-- The effect of a write command is a list of bit writes through its cursor, in any state; under the invariant they are
the bits the command is to write. -/
theorem effect_writes {i : Instr} {s t : State} (h : Effect s t i) (hopc : i.opc ∈ [0x03, 0x05, 0x11]) :
    ∃ c bits, i.cursor? = some c ∧ writeBits s.cfg bits s.buf (s.cur c) = .next (t.buf, t.cur c) ∧
      (Inv s → writtenBits s i = some bits) := by
  cases i with
  | wrbit c bit =>
    obtain ⟨-, buf, k, hwrite, rfl⟩ := h
    exact ⟨c, [bit], rfl, ((writeBit_eq_writeBits bit).symm.trans hwrite).trans (by cases c <;> rfl), fun _ => rfl⟩
  | wrraw c value n =>
    obtain ⟨-, -, buf, k, hwrite, rfl⟩ := h
    exact ⟨c, lowBits value n, rfl, ((writeRaw_eq_lowBits value n).symm.trans hwrite).trans (by cases c <;> rfl),
      fun _ => rfl⟩
  | wrhuf c symbol =>
    obtain ⟨-, hsym, p, buf, k, hp, hwrite, rfl⟩ := h
    obtain ⟨bits, hbits, hrun⟩ := emit_next_writeBits hwrite
    refine ⟨c, bits, rfl, hrun.trans (by cases c <;> rfl), fun hinv => ?_⟩
    obtain ⟨code, hcode, hetab, -⟩ := hinv.launch.code hsym
    obtain rfl : code = bits := pathWord_injective (Option.some.inj ((hetab.symm.trans hp).trans (congrArg some hbits)))
    exact hcode
  | _ => simp [Instr.opc] at hopc

theorem effect_grows {i : Instr} {s t : State} (h : Effect s t i) : Grows s.buf t.buf := by
  by_cases hopc : i.opc ∈ [0x03, 0x05, 0x11]
  · obtain ⟨c, bits, -, hrun, -⟩ := effect_writes h hopc
    exact (writeBits_grows hrun).1
  · obtain ⟨-, -, -, -, -, -, -, -, -, hbuf⟩ := effect_frame h
    rw [hbuf hopc]
    exact Grows.refl _

/-- Only CSET writes a valid bit (10 R29). -/
theorem effect_valid {i : Instr} {s t : State} (h : Effect s t i) (hopc : i.opc ≠ 0x01) (d : Cur) :
    (t.cur d).v = (s.cur d).v := by
  obtain ⟨-, -, -, -, -, hother, hunmoved, -⟩ := effect_frame h
  by_cases hd : i.cursor? = some d
  · cases i with
    | cset => exact absurd rfl hopc
    | rdbit c =>
      cases hd
      obtain ⟨-, b, k, hread, rfl⟩ := h
      exact Eq.trans (by cases d <;> rfl) (readBit_v hread)
    | rdraw c n =>
      cases hd
      obtain ⟨-, -, v, k, hread, rfl⟩ := h
      exact Eq.trans (by cases d <;> rfl) (readRaw_v hread)
    | rdhuf c =>
      cases hd
      obtain ⟨-, q, sym, k, hwalk, rfl⟩ := h
      exact Eq.trans (by cases d <;> rfl) (walk_v hwalk)
    | wrbit c _ | wrraw c _ _ | wrhuf c _ =>
      obtain ⟨c', bits, hc', hrun, -⟩ := effect_writes h (by simp [Instr.opc])
      cases hd
      cases hc'
      exact (writeBits_grows hrun).2
    | _ => rw [hunmoved (by simp [Instr.opc])]
  · rw [hother d hd]

/-! ### What a command leaves unchanged -/

@[simp] theorem cur_with_status (s : State) (d : Cur) (flt : Bool) (x : Cause) (r : Option Response) :
    ({ s with flt := flt, cause := x, resp := r }).cur d = s.cur d := by cases d <;> rfl

/-- A command that answers changed at most FLT, CAUSE and the response, or had its effect. -/
theorem exec_status_or_effect {i : Instr} {s t : State} (h : exec i s = .next t) :
    (∃ flt x r, t = { s with flt := flt, cause := x, resp := r }) ∨ Effect s t i := by
  obtain ⟨-, -, rfl⟩ | ⟨-, x, -, rfl⟩ | ⟨-, heffect⟩ := exec_cases h
  · exact Or.inl ⟨_, _, _, rfl⟩
  · exact Or.inl ⟨_, _, _, rfl⟩
  · exact Or.inr heffect

/-- Settles O51: outside its effect a command writes FLT, CAUSE and the response only, and its effect has the frame of
10 R29. -/
theorem commandsWriteOnlyTheirRegisters : Obligations.CommandsWriteOnlyTheirRegisters := by
  intro i s t h
  obtain ⟨flt, x, r, rfl⟩ | heffect := exec_status_or_effect h
  · simp
  · obtain ⟨hcfg, hmodel, hinbox, -, -, hother, hmoved, hidx, hpath, hbuf⟩ := effect_frame heffect
    exact ⟨hcfg, hmodel, hinbox, hother, hmoved, effect_valid heffect, hidx, hpath, hbuf⟩

theorem opc_of_writtenBits {i : Instr} {s : State} {bits : List Bool} (h : writtenBits s i = some bits) :
    i.opc ∈ [0x03, 0x05, 0x11] := by
  cases i with
  | wrbit | wrraw | wrhuf => simp [Instr.opc]
  | _ => cases h

/-- Settles O52: a write command ORs its bits into their words, and no command writes BUF in another way. -/
theorem writesTouchOnlyTheirWords : Obligations.WritesTouchOnlyTheirWords := by
  intro i s t c bits h hc hbits hexec a ha
  obtain ⟨flt, x, r, rfl⟩ | heffect := exec_status_or_effect hexec
  · rfl
  · obtain ⟨c', bits', hc', hrun, hwritten⟩ := effect_writes heffect (opc_of_writtenBits hbits)
    obtain rfl : c' = c := Option.some.inj (hc'.symm.trans hc)
    obtain rfl : bits' = bits := Option.some.inj ((hwritten h.ready.inv).symm.trans hbits)
    obtain ⟨-, -, hored, -⟩ := writeBits_cases h.w_pos h.inRange h.ready.inv.memory hrun
    exact hored.read_other ha

/-- Settles O53, by the growth of BUF under every effect. -/
theorem commandsOnlySetBitsOfAllocatedWords : Obligations.CommandsOnlySetBitsOfAllocatedWords := by
  intro i s t h
  have hgrows : Grows s.buf t.buf := by
    obtain ⟨flt, x, r, rfl⟩ | heffect := exec_status_or_effect h
    · exact Grows.refl _
    · exact effect_grows heffect
  exact ⟨hgrows.bits, fun hr => (hgrows.extent hr).2⟩

/-! ### What a step leaves unchanged -/

/-- What every host move but a reset keeps: the configuration, the Model, a recorded fault and the valid cursors. -/
structure Keeps (s t : State) : Prop where
  cfg : t.cfg = s.cfg
  model : t.model = s.model
  fault : s.flt = true → t.flt = true ∧ t.cause = s.cause
  valid : ∀ c, (s.cur c).v = true → (t.cur c).v = true

theorem setCur_cur_v {s : State} {c d : Cur} {k : Cursor} (hk : k.v = true) (hd : (s.cur d).v = true) :
    ((s.setCur c k).cur d).v = true := by
  by_cases h : d = c
  · rw [h, setCur_cur_same, hk]
  · rw [setCur_cur_other s k h, hd]

theorem eq_cset_of_opc {i : Instr} (h : i.opc = 0x01) : ∃ c ptr, i = .cset c ptr := by
  cases i with
  | cset c ptr => exact ⟨c, ptr, rfl⟩
  | _ => cases h

theorem exec_keeps {i : Instr} {s t : State} (h : exec i s = .next t) : Keeps s t where
  cfg := (commandsWriteOnlyTheirRegisters i s t h).1
  model := (commandsWriteOnlyTheirRegisters i s t h).2.1
  fault hflt := by
    obtain ⟨-, -, rfl⟩ | ⟨hclear, -⟩ | ⟨-, heffect⟩ := exec_cases h
    · exact ⟨hflt, rfl⟩
    · rw [hflt] at hclear
      cases hclear
    · obtain ⟨-, -, -, hflt', hcause, -⟩ := effect_frame heffect
      exact ⟨hflt'.trans hflt, hcause⟩
  valid d hd := by
    obtain ⟨flt, x, r, rfl⟩ | heffect := exec_status_or_effect h
    · rwa [cur_with_status]
    by_cases hopc : i.opc = 0x01
    · obtain ⟨c, ptr, rfl⟩ := eq_cset_of_opc hopc
      subst heffect
      rw [cur_with_resp]
      exact setCur_cur_v rfl hd
    · rw [effect_valid heffect hopc, hd]

theorem issue_keeps {word : Nat} {s t : State} (h : issue word s = .next t) : Keeps s t := by
  obtain ⟨i, -, hexec⟩ | ⟨-, rfl⟩ | ⟨hclear, rfl⟩ := issue_cases h
  · exact exec_keeps hexec
  · exact ⟨rfl, rfl, fun hflt => ⟨hflt, rfl⟩, fun c hc => by simpa using hc⟩
  · exact ⟨rfl, rfl, fun hflt => absurd (hclear.symm.trans hflt) (by decide), fun c hc => by simpa using hc⟩

/-- Settles O50: commands and host stores keep all of it, and a reset keeps the configuration. -/
theorem onlyResetUndoesFaultsCursorsAndModel : Obligations.OnlyResetUndoesFaultsCursorsAndModel := by
  intro s t h
  obtain ⟨-, ⟨-, rfl⟩ | ⟨m, rest, hinbox, hperform⟩⟩ := step_cases h
  · exact ⟨rfl, fun _ => ⟨fun hflt => ⟨hflt, rfl⟩, fun _ hc => hc, rfl⟩⟩
  · cases m with
    | command word =>
      obtain ⟨hcfg, hmodel, hfault, hvalid⟩ := issue_keeps hperform
      exact ⟨hcfg, fun _ => ⟨hfault, fun c hc => hvalid c (by simpa using hc), hmodel⟩⟩
    | write a v =>
      obtain ⟨-, rfl⟩ := hostWrite_next hperform
      exact ⟨rfl, fun _ => ⟨fun hflt => ⟨hflt, rfl⟩, fun c hc => by cases c <;> exact hc, rfl⟩⟩
    | rst load =>
      obtain ⟨-, rfl⟩ := launch_next hperform
      refine ⟨rfl, fun hno => ?_⟩
      rw [resetIsNext, hinbox] at hno
      cases hno

/-! ### The registers of an invalid cursor -/

/-- Two results with one observable outcome. -/
def SameOutcome (r r' : Res State) : Prop := observableOutcome r = observableOutcome r'

/-- A cursor with `WP` and `BO` forgotten where it is invalid (10 R23). -/
def Cursor.observable (k : Cursor) : Cursor := if k.v then k else Cursor.reset

theorem Cursor.observable_observable (k : Cursor) : k.observable.observable = k.observable := by
  cases h : k.v <;> simp [Cursor.observable, h, Cursor.reset]

theorem observable_eq (s : State) : observable s = { s with c0 := s.c0.observable, c1 := s.c1.observable } := rfl

theorem observable_observable (s : State) : observable (observable s) = observable s := by
  simp only [observable_eq, Cursor.observable_observable]

theorem observable_cur {s : State} {c : Cur} (h : (s.cur c).v = true) : (observable s).cur c = s.cur c := by
  cases c <;> exact if_pos h

theorem observable_cur_v (s : State) (c : Cur) : ((observable s).cur c).v = (s.cur c).v := by
  cases h : (s.cur c).v with
  | true => rw [observable_cur h, h]
  | false => cases c <;> exact congrArg Cursor.v (if_neg (by simpa using h))

/-- Forgetting the registers of invalid cursors first makes no difference after a cursor is written. -/
theorem observable_setCur (s : State) (c : Cur) (k : Cursor) :
    observable ((observable s).setCur c k) = observable (s.setCur c k) := by
  cases c <;> simp only [observable_eq, State.setCur, Cursor.observable_observable]

/-- A computation on states whose outcome does not depend on the registers of invalid cursors. -/
def Unobserved (f : State → Res State) : Prop := ∀ s, SameOutcome (f (observable s)) (f s)

theorem SameOutcome.andThen {α : Type} {x : Res α} {f g : α → Res State} (h : ∀ a, SameOutcome (f a) (g a)) :
    SameOutcome (andThen x f) (andThen x g) := by
  cases x with
  | next a => exact h a
  | _ => rfl

theorem SameOutcome.response {s t : State} (r : Response) (h : observable s = observable t) :
    SameOutcome (.next { s with resp := some r }) (.next { t with resp := some r }) :=
  congrArg (fun u : State => (Host.Outcome.next { u with resp := some r } : Res State)) h

theorem SameOutcome.respond {s t : State} (v : Nat) (h : observable s = observable t) :
    SameOutcome (respond v s) (respond v t) :=
  SameOutcome.response ⟨false, v⟩ h

theorem SameOutcome.raise (x : Cause) (s : State) : SameOutcome (raise x (observable s)) (raise x s) :=
  congrArg (fun u : State => (Host.Outcome.next { u with flt := true, cause := x, resp := some ⟨true, 0⟩ } : Res State))
    (observable_observable s)

theorem SameOutcome.whenClear {s : State} {r r' : Res State} (h : SameOutcome r' r) :
    SameOutcome (whenClear (observable s) r') (whenClear s r) := by
  cases hflt : s.flt with
  | false => rwa [whenClear_of_clear hflt, whenClear_of_clear (s := observable s) hflt]
  | true =>
    rw [whenClear_of_fault hflt, whenClear_of_fault (s := observable s) hflt]
    exact SameOutcome.response _ (observable_observable s)

theorem SameOutcome.whenValid {c : Cur} {s : State} {r r' : Res State}
    (h : (observable s).cur c = s.cur c → SameOutcome r' r) :
    SameOutcome (whenValid c (observable s) r') (whenValid c s r) := by
  cases hv : (s.cur c).v with
  | true =>
    rw [whenValid_of_valid hv, whenValid_of_valid ((observable_cur_v s c).trans hv)]
    exact h (observable_cur hv)
  | false =>
    rw [whenValid_of_invalid hv, whenValid_of_invalid ((observable_cur_v s c).trans hv)]
    exact SameOutcome.raise _ s

theorem SameOutcome.ite {P : Prop} [Decidable P] {a a' b b' : Res State} (ha : SameOutcome a' a)
    (hb : SameOutcome b' b) : SameOutcome (if P then a' else b') (if P then a else b) := by
  split
  · exact ha
  · exact hb

theorem walk_observable (s : State) (fuel idx : Nat) (k : Cursor) :
    walk (observable s) fuel idx k = walk s fuel idx k := by
  induction fuel generalizing idx k with
  | zero => rfl
  | succ fuel ih =>
    simp only [walk, ih]
    rfl

theorem statusWord_observable (s : State) : statusWord (observable s) = statusWord s := by
  have hv0 : (observable s).c0.v = s.c0.v := observable_cur_v s .c0
  have hv1 : (observable s).c1.v = s.c1.v := observable_cur_v s .c1
  rw [statusWord, hv0, hv1]
  rfl

/-- No command observes the registers of an invalid cursor: it reads them only past the check of the valid bit. -/
theorem exec_unobserved (i : Instr) : Unobserved (exec i) := by
  intro s
  cases i with
  | cset c ptr => exact .whenClear (.respond _ (observable_setCur s c _))
  | rdbit c =>
    refine .whenClear (.whenValid fun hcur => ?_)
    rw [hcur]
    exact .andThen fun r => .respond _ (observable_setCur s c _)
  | wrbit c bit =>
    refine .whenClear (.whenValid fun hcur => ?_)
    rw [hcur]
    exact .andThen fun r => .respond _ (observable_setCur { s with buf := r.1 } c _)
  | rdraw c n =>
    refine .whenClear (.whenValid fun hcur => .ite (.raise _ s) ?_)
    rw [hcur]
    exact .andThen fun r => .respond _ (observable_setCur s c _)
  | wrraw c value n =>
    refine .whenClear (.whenValid fun hcur => .ite (.raise _ s) ?_)
    rw [hcur]
    exact .andThen fun r => .respond _ (observable_setCur { s with buf := r.1 } c _)
  | elsz c start =>
    refine .whenClear (.whenValid fun hcur => ?_)
    rw [hcur, whenStart, hcur]
    exact .ite (.raise _ s) (.respond _ (observable_observable s))
  | btsz c start =>
    refine .whenClear (.whenValid fun hcur => ?_)
    rw [hcur, whenStart, hcur]
    exact .ite (.raise _ s) (.respond _ (observable_observable s))
  | drst => exact .whenClear (.respond _ (observable_observable { s with idx := 0 }))
  | dneed => exact .whenClear (.andThen fun nd => .respond _ (observable_observable s))
  | dbit bit =>
    exact .whenClear (.andThen fun e =>
      .ite (.raise _ s) (.respond _ (observable_observable { s with idx := descend s.idx e bit })))
  | dres => exact .whenClear (.andThen fun e => .ite (.raise _ s) (.respond _ (observable_observable s)))
  | eld symbol =>
    exact .whenClear (.ite (.raise _ s) (.andThen fun p => .respond _ (observable_observable { s with path := p })))
  | ehas => exact .whenClear (.respond _ (observable_observable s))
  | eget => exact .whenClear (.ite (.raise _ s) (.respond _ (observable_observable s)))
  | enxt =>
    exact .whenClear (.ite (.raise _ s) (.respond _ (observable_observable { s with path := s.path / 2 })))
  | rdhuf c =>
    refine .whenClear (.whenValid fun hcur => ?_)
    rw [hcur, walk_observable]
    exact .andThen fun r => .respond _ (observable_setCur { s with idx := r.1 } c _)
  | wrhuf c symbol =>
    refine .whenClear (.whenValid fun hcur => .ite (.raise _ s) (.andThen fun p => ?_))
    rw [hcur]
    exact .andThen fun r => .respond _ (observable_setCur { s with path := 1, buf := r.1 } c _)
  | getst =>
    simp only [exec, execGetst, statusWord_observable]
    exact .andThen fun st => .response _ (observable_observable s)

theorem issue_unobserved (word : Nat) : Unobserved (issue word) := by
  intro s
  cases hd : decode s.cfg word with
  | ok i =>
    rw [issue_of_decoded hd, issue_of_decoded (s := observable s) hd]
    exact exec_unobserved i s
  | error _ =>
    simp only [issue, show decode (observable s).cfg word = _ from hd, hd]
    exact .whenClear (.raise _ s)

theorem perform_unobserved (m : HostMove) : Unobserved (perform m) := by
  intro s
  cases m with
  | command word => exact issue_unobserved word s
  | write a v => exact .ite (congrArg Host.Outcome.next (observable_observable { s with buf := bufPut s.buf a v })) rfl
  | rst load => exact .ite rfl rfl

theorem step_unobserved : Unobserved step := by
  intro s
  cases hl : launchOk s.cfg s.model with
  | false =>
    rw [step_of_not_launched hl, step_of_not_launched (s := observable s) hl]
    rfl
  | true =>
    cases hinbox : s.inbox with
    | nil =>
      rw [step_of_idle hl hinbox, step_of_idle (s := observable s) hl hinbox]
      exact congrArg Host.Outcome.next (observable_observable s)
    | cons m rest =>
      rw [step_of_move hl hinbox, step_of_move (s := observable s) hl hinbox]
      exact perform_unobserved m { s with inbox := rest }

/-- Settles O54: a step of a state has the outcome of the step of its observable part. -/
theorem invalidCursorIsUnobservable : Obligations.InvalidCursorIsUnobservable := by
  intro s s' h
  have hs := step_unobserved s
  have hs' := step_unobserved s'
  rw [SameOutcome] at hs hs'
  rw [← hs, ← hs', h]

end Sys2Proof.Machine
end

section
/-! SUPPORT. The Huffman Model (40 R113 to R116) through the tree its Decode Table denotes: how many entries are leaves,
that no code begins another, and that the codes fill the code space. -/

namespace Sys2Proof

open Machine

/-! ### The entries of a tree -/

theorem Tree.symbols_pos (t : Tree) : 0 < t.symbols.length := by
  have := t.entries_length
  have := t.entries_pos
  omega

theorem Tree.countP_leaf (t : Tree) : t.entries.countP (fun e => decide (e ≤ 0)) = t.symbols.length := by
  induction t with
  | leaf s => simp [Tree.entries, Tree.symbols]
  | node a b iha ihb =>
    have hroot : ¬ ((a.entries.length : Int) + 1 ≤ 0) := by omega
    simp only [Tree.entries, List.countP_cons, List.countP_append, iha, ihb, hroot, Tree.symbols, List.length_append]
    simp

theorem Tree.countP_internal (t : Tree) :
    t.entries.countP (fun e => decide (0 < e)) = t.symbols.length - 1 := by
  have hsplit := List.length_eq_countP_add_countP (fun e : Int => decide (e ≤ 0)) (l := t.entries)
  have hlen := t.entries_length
  rw [t.countP_leaf] at hsplit
  simp only [decide_eq_true_eq, not_le] at hsplit
  omega

/-- An entry of a tree is a leaf of one of its symbols, or a skip distance over a first child and into a second. -/
theorem Tree.entry_cases {t : Tree} {e : Int} (h : e ∈ t.entries) :
    (∃ s ∈ t.symbols, e = -(s : Int)) ∨ (2 ≤ e ∧ e + 1 ≤ t.entries.length) := by
  induction t with
  | leaf s => exact Or.inl ⟨s, by simp [Tree.symbols], by simpa [Tree.entries] using h⟩
  | node a b iha ihb =>
    have ha := a.entries_pos
    have hb := b.entries_pos
    simp only [Tree.entries, List.mem_cons, List.mem_append, Tree.symbols, List.length_cons, List.length_append] at h ⊢
    rcases h with rfl | h | h
    · exact Or.inr (by omega)
    · rcases iha h with ⟨s, hs, rfl⟩ | h
      · exact Or.inl ⟨s, Or.inl hs, rfl⟩
      · exact Or.inr (by omega)
    · rcases ihb h with ⟨s, hs, rfl⟩ | h
      · exact Or.inl ⟨s, Or.inr hs, rfl⟩
      · exact Or.inr (by omega)

/-! ### The codes of a tree -/

theorem Tree.code?_length {t : Tree} {s : Nat} {c : List Bool} (h : t.code? s = some c) :
    c.length + 1 ≤ t.symbols.length := by
  induction t generalizing c with
  | leaf x =>
    simp only [Tree.code?, Option.ite_none_right_eq_some, Option.some.injEq] at h
    simp [← h.2, Tree.symbols]
  | node a b iha ihb =>
    have ha := a.symbols_pos
    have hb := b.symbols_pos
    simp only [Tree.code?] at h
    simp only [Tree.symbols, List.length_append]
    cases hca : a.code? s with
    | some c' =>
      have := iha hca
      rw [hca] at h
      cases h
      simp only [List.length_cons]
      omega
    | none =>
      rw [hca] at h
      obtain ⟨c', hcb, rfl⟩ := Option.map_eq_some_iff.mp h
      have := ihb hcb
      simp only [List.length_cons]
      omega

/-- The share of the code space that a symbol's code takes, over the common denominator `2^k` (40 R115 (e)). -/
def Tree.share (t : Tree) (k s : Nat) : Nat := 2 ^ (k - ((t.code? s).getD []).length)

theorem Tree.share_first {a : Tree} (b : Tree) {k s : Nat} (hs : s ∈ a.symbols) :
    (Tree.node a b).share (k + 1) s = a.share k s := by
  obtain ⟨c, hc⟩ := Tree.code?_isSome.mpr hs
  simp [Tree.share, Tree.code?, hc]

theorem Tree.share_second {a b : Tree} {k s : Nat} (ha : s ∉ a.symbols) (hs : s ∈ b.symbols) :
    (Tree.node a b).share (k + 1) s = b.share k s := by
  obtain ⟨c, hc⟩ := Tree.code?_isSome.mpr hs
  simp [Tree.share, Tree.code?, Tree.code?_eq_none.mpr ha, hc]

/-- Kraft equality for a tree: either child takes half of the code space. -/
theorem Tree.kraft (t : Tree) (hdistinct : t.symbols.Nodup) {k : Nat} (hk : t.symbols.length ≤ k + 1) :
    (t.symbols.map (t.share k)).sum = 2 ^ k := by
  induction t generalizing k with
  | leaf s => simp [Tree.symbols, Tree.share, Tree.code?]
  | node a b iha ihb =>
    obtain ⟨ha, hb, hdisjoint⟩ := List.nodup_append.mp hdistinct
    have hpa := a.symbols_pos
    have hpb := b.symbols_pos
    simp only [Tree.symbols, List.length_append] at hk
    obtain ⟨k, rfl⟩ : ∃ j, k = j + 1 := ⟨k - 1, by omega⟩
    have hfirst : a.symbols.map ((Tree.node a b).share (k + 1)) = a.symbols.map (a.share k) :=
      List.map_congr_left fun s hs => Tree.share_first b hs
    have hsecond : b.symbols.map ((Tree.node a b).share (k + 1)) = b.symbols.map (b.share k) :=
      List.map_congr_left fun s hs => Tree.share_second (fun hsa => hdisjoint s hsa s hs rfl) hs
    rw [Tree.symbols, List.map_append, List.sum_append, hfirst, hsecond, iha ha (by omega), ihb hb (by omega),
      Nat.pow_succ]
    omega

/-! ### The statements -/

/-- Under the launch premise the root of a table of two symbols or more is internal. -/
theorem Launched.root_internal {cfg : Cfg} {m : Model} (h : Launched cfg m) (hn : 2 ≤ m.n) :
    ∃ e, (m.entries cfg)[0]? = some e ∧ 0 < e := by
  obtain ⟨t, hentries, -, -, hlen, -⟩ := h.tree
  cases t with
  | leaf s =>
    simp only [Tree.symbols, List.length_singleton] at hlen
    omega
  | node a b => exact ⟨_, by rw [hentries]; rfl, by omega⟩

/-- Settles O55: the counts are those of the tree's leaves and nodes, and a skip distance leads over a subtree into
another. -/
theorem wellFormedTablesAreWalkClosed : Obligations.WellFormedTablesAreWalkClosed := by
  intro cfg m hok
  have h := launchOk_iff.mp hok
  obtain ⟨t, hentries, -, -, hlen, -⟩ := h.tree
  refine ⟨by rw [hentries, t.countP_leaf, hlen], by rw [hentries, t.countP_internal, hlen], fun p e hp hpos => ?_,
    h.root_internal⟩
  obtain ⟨hfirst, -, hsecond⟩ := h.children hp hpos
  have htable := h.dtab_length
  have htwo : 2 ≤ e := by
    rcases Tree.entry_cases (hentries ▸ List.mem_of_getElem? hp) with ⟨s, -, rfl⟩ | ⟨htwo, -⟩
    · omega
    · exact htwo
  omega

/-- Settles O56: a walk stops at the leaf of a symbol, so no walk goes on from the end of a code. -/
theorem codesArePrefixFree : Obligations.CodesArePrefixFree := by
  intro cfg m a b x y _ hne hx hy hprefix
  obtain ⟨-, p, hwalkx, hleafx⟩ := codeFrom_sound hx
  obtain ⟨-, q, hwalky, hleafy⟩ := codeFrom_sound hy
  have htake : y.take x.length = x := (List.prefix_iff_eq_take.mp hprefix).symm
  rcases Nat.lt_or_ge x.length y.length with hlt | hge
  · obtain ⟨r, e, hr, he, hpos⟩ := nodeAt_take hwalky hlt
    rw [htake, hwalkx] at hr
    obtain rfl := Option.some.inj hr
    obtain rfl := Option.some.inj (hleafx.symm.trans he)
    omega
  · rw [List.take_of_length_le hge] at htake
    subst htake
    obtain rfl := Option.some.inj (hwalkx.symm.trans hwalky)
    have := Option.some.inj (hleafx.symm.trans hleafy)
    omega

/-- Under the launch premise a code has at most `N - 1` bits (40 R115 (g)). -/
theorem Launched.code_length {cfg : Cfg} {m : Model} (h : Launched cfg m) {s : Nat} {code : List Bool}
    (hcode : m.code cfg s = some code) : code.length ≤ m.n - 1 := by
  obtain ⟨t, -, hcodes, -, hlen, -⟩ := h.tree
  have := Tree.code?_length ((hcodes s).symm.trans hcode)
  omega

/-- Settles O57: the alphabet is the symbols of the tree, whose codes fill the code space. -/
theorem kraftEquality : Obligations.KraftEquality := by
  intro cfg m hok
  have h := launchOk_iff.mp hok
  obtain ⟨t, -, hcodes, hdistinct, hlen, hmem⟩ := h.tree
  refine ⟨?_, fun s hs => ?_⟩
  · have hperm : t.symbols.Perm (List.range m.n) :=
      (List.perm_ext_iff_of_nodup hdistinct List.nodup_range).mpr fun s => by rw [hmem, List.mem_range]
    simp only [hcodes]
    exact (hperm.map (t.share m.n)).sum_eq.symm.trans (t.kraft hdistinct (by omega))
  · obtain ⟨code, hcode, -⟩ := h.code hs
    exact ⟨code, hcode, h.code_length hcode⟩

/-- A code is empty exactly where the root is a leaf. -/
theorem Launched.code_nil_iff {cfg : Cfg} {m : Model} (h : Launched cfg m) {s : Nat} {code : List Bool}
    (hcode : m.code cfg s = some code) : code = [] ↔ m.n = 1 := by
  have hlen := h.code_length hcode
  refine ⟨fun hnil => ?_, fun hone => List.eq_nil_of_length_eq_zero (by omega)⟩
  subst hnil
  obtain ⟨-, q, hwalk, hleaf⟩ := codeFrom_sound hcode
  obtain rfl : 0 = q := Option.some.inj hwalk
  by_contra hne
  have hn := h.n_pos
  obtain ⟨e, he, hpos⟩ := h.root_internal (by omega)
  obtain rfl := Option.some.inj (hleaf.symm.trans he)
  omega

/-- Settles O58: ETAB holds the path word of the code, and the sentinel alone is the path word of the empty code. -/
theorem pathWordsAreInRange : Obligations.PathWordsAreInRange := by
  intro cfg m s hok hs
  have h := launchOk_iff.mp hok
  obtain ⟨code, hcode, hetab, -⟩ := h.code hs
  obtain ⟨hpos, hlt⟩ := h.path_range hs hetab
  refine ⟨_, hetab, hpos, hlt, ?_⟩
  rw [← h.code_nil_iff hcode, ← pathWord_nil]
  exact ⟨fun heq => pathWord_injective heq, fun heq => by rw [heq]⟩

end Sys2Proof
end

section
/-! SUPPORT. The Builder (40 R119 to R122): every merge keeps the symbols of its queue, so the tree it ends with has
each symbol of the alphabet once; the flattened tables denote that tree; and the reference builder's pops are pops of
lowest frequency. -/

namespace Sys2Proof

open Machine

/-! ### Merging -/

/-- The symbols of the trees of a queue. -/
def queueSymbols (queue : List MergeNode) : List Nat := queue.flatMap fun node => node.tree.symbols

theorem MergeStep.symbols {queue next : List MergeNode} (h : MergeStep queue next) :
    (queueSymbols next).Perm (queueSymbols queue) := by
  obtain ⟨rest, a, b, seq, popped, -⟩ := h
  simpa [queueSymbols, Tree.symbols] using (popped.flatMap_right fun node => node.tree.symbols).symm

/-- The tree a merge phase ends with has the symbols of the queue it began with. -/
theorem Merges.symbols {queue : List MergeNode} {t : Tree} (h : Merges queue t) :
    t.symbols.Perm (queueSymbols queue) := by
  induction h with
  | done root => simp [queueSymbols]
  | step queue next t first later ih => exact ih.trans first.symbols

theorem queueSymbols_leavesOf (outputs : List (Nat × Nat)) :
    queueSymbols (leavesOf outputs) = outputs.map Prod.fst := by
  induction outputs with
  | nil => rfl
  | cons o outputs ih => simpa [queueSymbols, leavesOf, Tree.symbols] using ih

/-- The outputs that the precondition of `compile()` accepts register the alphabet (40 R119). -/
theorem outputs_perm_range {n : Nat} {outputs : List (Nat × Nat)} (h : outputsOk n outputs = true) :
    (outputs.map Prod.fst).Perm (List.range n) := by
  obtain ⟨-, hlen, hcount⟩ := of_decide_eq_true h
  have hsub : List.range n ⊆ outputs.map Prod.fst := fun s hs => by
    rw [← List.count_pos_iff, hcount s hs]
    exact Nat.one_pos
  refine ((List.nodup_range.subperm hsub).perm_of_length_le ?_).symm
  rw [List.length_map, hlen, List.length_range]

/-! ### Flattening -/

/-- Looking a symbol up in the paths of a tree finds its code under the path of the tree's root. -/
theorem Tree.pathOf_paths (t : Tree) (pre : List Bool) (rest : List (Nat × List Bool)) (s : Nat) :
    pathOf (t.paths pre ++ rest) s = ((t.code? s).map (pre ++ ·)).getD (pathOf rest s) := by
  induction t generalizing pre rest with
  | leaf x => by_cases h : x = s <;> simp [Tree.paths, Tree.code?, pathOf, h]
  | node a b iha ihb =>
    rw [Tree.paths, List.append_assoc, iha, ihb, Tree.code?]
    cases a.code? s <;> cases b.code? s <;> simp

theorem Tree.mem_paths {t : Tree} {pre code : List Bool} {s : Nat} (h : t.code? s = some code) :
    (s, pre ++ code) ∈ t.paths pre := by
  induction t generalizing pre code with
  | leaf x =>
    simp only [Tree.code?, Option.ite_none_right_eq_some, Option.some.injEq] at h
    simp [Tree.paths, h.1, ← h.2]
  | node a b iha ihb =>
    rw [Tree.paths, List.mem_append]
    simp only [Tree.code?] at h
    cases hca : a.code? s with
    | some c =>
      rw [hca] at h
      cases h
      exact Or.inl (by simpa using iha hca (pre := pre ++ [false]))
    | none =>
      rw [hca] at h
      obtain ⟨c, hcb, rfl⟩ := Option.map_eq_some_iff.mp h
      exact Or.inr (by simpa using ihb hcb (pre := pre ++ [true]))

/-- The entries of a tree over the alphabet fit `DW` bits, so their patterns read back as them (20 R65, 40 R111). -/
theorem Tree.sext_entries {t : Tree} {n dw : Nat} (hsymbols : ∀ s ∈ t.symbols, s < n) (hlen : t.symbols.length = n)
    (hdw : 1 ≤ dw) (hfits : 2 * n - 2 ≤ 2 ^ (dw - 1) - 1) :
    (t.entries.map (toPattern dw)).map (sext dw) = t.entries := by
  have hpow : ((2 ^ (dw - 1) : Nat) : Int) = 2 ^ (dw - 1) := by push_cast; rfl
  have hpos : 0 < 2 ^ (dw - 1) := Nat.two_pow_pos _
  have hentries := t.entries_length
  rw [List.map_map]
  refine (List.map_congr_left fun e he => ?_).trans (List.map_id _)
  refine sext_toPattern hdw ?_ ?_ <;> rw [← hpow]
  · rcases Tree.entry_cases he with ⟨s, hs, rfl⟩ | ⟨htwo, -⟩
    · have := hsymbols s hs
      omega
    · omega
  · rcases Tree.entry_cases he with ⟨s, hs, rfl⟩ | ⟨-, hle⟩ <;> omega

/-- The tables that flattening makes of a tree over the alphabet denote that tree (40 R121). -/
theorem flatten_launched {cfg : Cfg} {n : Nat} {t : Tree} {m : Model} (hok : cfg.ok n = true)
    (hperm : t.symbols.Perm (List.range n)) (h : flatten cfg n t = some m) : Launched cfg m := by
  obtain ⟨h1, h2, h3, h4, h5, h6, h7, h8, h9, h10, h11, h12, h13⟩ := of_decide_eq_true hok
  obtain ⟨⟨hpaths, -⟩, hm⟩ := Option.ite_none_right_eq_some.mp h
  obtain rfl := Option.some.inj hm
  have hlen : t.symbols.length = n := by simpa using hperm.length_eq
  have hmem : ∀ s, s ∈ t.symbols ↔ s < n := fun s => by rw [hperm.mem_iff, List.mem_range]
  have hsize : t.entries.length = 2 * n - 1 := by
    have := t.entries_length
    omega
  have hentries : (t.entries.map (toPattern cfg.dw)).map (sext cfg.dw) = t.entries :=
    Tree.sext_entries (fun s hs => (hmem s).mp hs) hlen h5 h6
  have hcode (s : Nat) : codeFrom t.entries s t.entries.length 0 = t.code? s :=
    codeFrom_tree t s (rest := []) (by simp) (Nat.le_refl _)
  exact
    { w_pos := h1, tw_pos := h2, tw_le := h3, pw_pos := h4, dw_pos := h5, dw_fits := h6, aw_pos := h7, tw_xw := h8
      aw_xw := h9, n_xw_log := h10, xw_nine := h11, n_pos := h12, n_xw := h13
      dtab_length := by simpa using hsize
      etab_length := by simp
      whole := by
        have hend := endOf_tree t (d := t.entries) (rest := []) (p := 0) (by simp) (Nat.le_refl _)
        simpa [Model.entries, hentries, ← hsize] using hend
      leaf_range := fun e he => by
        rw [Model.entries, hentries] at he
        rcases Tree.entry_cases he with ⟨s, hs, rfl⟩ | ⟨htwo, -⟩
        · have := (hmem s).mp hs
          exact Or.inr (by simpa)
        · exact Or.inl (by omega)
      leaf_once := fun s hs => by
        rw [Model.entries, hentries, t.count_entries, hperm.count_eq]
        exact List.count_eq_one_of_mem List.nodup_range (List.mem_range.mpr hs)
      symbol := fun s hs => by
        obtain ⟨code, hc⟩ := Tree.code?_isSome.mpr ((hmem s).mpr hs)
        have hpath : pathOf (t.paths []) s = code := by simpa [hc, pathOf] using t.pathOf_paths [] [] s
        have hfits : code.length + 1 ≤ cfg.pw := hpaths _ (Tree.mem_paths hc (pre := []))
        simp [Model.symbolOk, Model.code, Model.entries, hentries, hcode, hc, hs, hpath, hfits]
      pattern := fun p hp => by
        obtain ⟨e, -, rfl⟩ := List.mem_map.mp hp
        exact toPattern_lt cfg.dw e }

/-- Settles O59: the merged tree has each symbol of the alphabet once. -/
theorem everyBuilderMakesAWellFormedModel : Obligations.EveryBuilderMakesAWellFormedModel := by
  intro cfg n outputs t m hok houtputs hmerges hflatten
  have hperm := hmerges.symbols
  rw [queueSymbols_leavesOf] at hperm
  exact launchOk_iff.mpr (flatten_launched hok (hperm.trans (outputs_perm_range houtputs)) hflatten)

/-! ### The reference builder -/

theorem MergeNode.freq_le_of_before {x y : MergeNode} (h : x.before y = true) : x.freq ≤ y.freq := by
  have := of_decide_eq_true h
  omega

theorem MergeNode.freq_le_of_not_before {x y : MergeNode} (h : ¬ x.before y = true) : y.freq ≤ x.freq := by
  have := of_decide_eq_false (Bool.eq_false_of_not_eq_true h)
  omega

theorem popFirst_perm (m : MergeNode) (xs : List MergeNode) :
    ((popFirst m xs).1 :: (popFirst m xs).2).Perm (m :: xs) := by
  induction xs generalizing m with
  | nil => exact List.Perm.refl _
  | cons x xs ih =>
    rw [popFirst]
    split
    · exact (List.Perm.swap ..).trans ((ih x).cons m)
    · exact (List.Perm.swap ..).trans (((ih m).cons x).trans (List.Perm.swap ..))

/-- The node popped has a lowest frequency of the queue. -/
theorem popFirst_lowest (m : MergeNode) (xs : List MergeNode) : ∀ y ∈ m :: xs, (popFirst m xs).1.freq ≤ y.freq := by
  induction xs generalizing m with
  | nil => simp [popFirst]
  | cons x xs ih =>
    rw [popFirst]
    split
    next hbefore =>
      intro y hy
      rcases List.mem_cons.mp hy with rfl | hy
      · exact (ih x x (List.mem_cons_self ..)).trans (MergeNode.freq_le_of_before hbefore)
      · exact ih x y hy
    next hbefore =>
      intro y hy
      rcases List.mem_cons.mp hy with rfl | hy
      · exact ih _ _ (List.mem_cons_self ..)
      rcases List.mem_cons.mp hy with rfl | hy
      · exact (ih m m (List.mem_cons_self ..)).trans (MergeNode.freq_le_of_not_before hbefore)
      · exact ih m y (List.mem_cons_of_mem _ hy)

/-- Two pops in a row are one merge of 40 R120. -/
theorem mergeStep_of_pops {m x y a b : MergeNode} {xs ys rest : List MergeNode} (seq : Nat)
    (hfirst : popFirst m (x :: xs) = (a, y :: ys)) (hsecond : popFirst y ys = (b, rest)) :
    MergeStep (m :: x :: xs) (⟨a.freq + b.freq, seq, .node a.tree b.tree⟩ :: rest) := by
  have hperm := popFirst_perm m (x :: xs)
  have hperm' := popFirst_perm y ys
  have hlow := popFirst_lowest m (x :: xs)
  have hlow' := popFirst_lowest y ys
  rw [hfirst] at hperm hlow
  rw [hsecond] at hperm' hlow'
  have hall : (a :: b :: rest).Perm (m :: x :: xs) := (hperm'.cons a).trans hperm
  refine .merge _ rest a b seq hall.symm fun z hz => ⟨hlow z ?_, hlow' z ?_⟩
  · exact hall.subset (List.mem_cons_of_mem _ (List.mem_cons_of_mem _ hz))
  · exact hperm'.subset (List.mem_cons_of_mem _ hz)

theorem mergeReference_spec (fuel seq : Nat) {queue : List MergeNode} (hne : queue ≠ []) (hfuel : queue.length ≤ fuel) :
    ∃ t, mergeReference fuel seq queue = some t ∧ Merges queue t := by
  induction fuel generalizing seq queue with
  | zero => exact absurd (List.eq_nil_of_length_eq_zero (by omega)) hne
  | succ fuel ih =>
    match queue with
    | [] => exact absurd rfl hne
    | [root] => exact ⟨root.tree, rfl, .done root⟩
    | m :: x :: xs =>
      have hlen := (popFirst_perm m (x :: xs)).length_eq
      cases hfirst : popFirst m (x :: xs) with
      | mk a others =>
      cases others with
      | nil => simp [hfirst] at hlen
      | cons y ys =>
        cases hsecond : popFirst y ys with
        | mk b rest =>
        have hlen' := (popFirst_perm y ys).length_eq
        simp only [hfirst, hsecond, List.length_cons] at hlen hlen' hfuel
        obtain ⟨t, ht, hmerges⟩ := ih (seq + 1) (queue := ⟨a.freq + b.freq, seq, .node a.tree b.tree⟩ :: rest)
          (List.cons_ne_nil _ _) (by rw [List.length_cons]; omega)
        exact ⟨t, by simp only [mergeReference, hfirst, hsecond, ht],
          .step _ _ _ (mergeStep_of_pops seq hfirst hsecond) hmerges⟩

/-- Settles O60: a merge makes the queue shorter by one, so as many rounds as there are leaves are enough. -/
theorem referenceBuilderMergesTheLowest : Obligations.ReferenceBuilderMergesTheLowest := by
  intro n outputs h
  obtain ⟨hn, hlen, -⟩ := of_decide_eq_true h
  refine mergeReference_spec n n (fun hnil => ?_) (by simp [leavesOf, hlen])
  rw [leavesOf, List.map_eq_nil_iff] at hnil
  rw [hnil, List.length_nil] at hlen
  omega

end Sys2Proof
end

section
/-! SUPPORT. Passes of cursor commands (43 R189, R193 to R195): a bit-access command that raised no fault moved its
cursor by its accesses and left the other cursor, the configuration and the Model; so a field written through one cursor
is read back through the other, and so is a list of fields. -/

namespace Sys2Proof.Machine

variable {cfg : Cfg} {buf buf' : List Cell} {k : Cursor}

/-! ### Several accesses in a row -/

/-- The position after `n` accesses is `n` more, modulo the size of the address space (43 R189). -/
theorem pos_cursorAfter_mod (n i : Nat) :
    ((cursorAfter cfg k n).pos cfg + i) % (cfg.w * 2 ^ cfg.aw) = (k.pos cfg + n + i) % (cfg.w * 2 ^ cfg.aw) := by
  induction n generalizing k i with
  | zero => rw [cursorAfter_zero, Nat.add_zero]
  | succ n ih =>
    rw [← cursorAfter_cursorAfter_one, ih, Nat.add_assoc, pos_cursorAfter_one]
    congr 1
    omega

theorem cursorAfter_cursorAfter (m n : Nat) : cursorAfter cfg (cursorAfter cfg k m) n = cursorAfter cfg k (m + n) := by
  induction m generalizing k with
  | zero => rw [cursorAfter_zero, Nat.zero_add]
  | succ m ih => rw [← cursorAfter_cursorAfter_one, ih, cursorAfter_cursorAfter_one, Nat.add_right_comm]

theorem spells_append {p : Nat} {as bs : List Bool} :
    spells cfg buf p (as ++ bs) ↔ spells cfg buf p as ∧ spells cfg buf (p + as.length) bs := by
  induction as generalizing p with
  | nil => simp
  | cons a as ih =>
    rw [List.cons_append, spells_cons, ih, spells_cons, and_assoc, List.length_cons,
      show p + 1 + as.length = p + (as.length + 1) by omega]

theorem reaches_add {p m n : Nat} :
    reaches cfg buf p (m + n) ↔ reaches cfg buf p m ∧ reaches cfg buf (p + m) n := by
  induction m generalizing p with
  | zero => simp [reaches]
  | succ m ih =>
    rw [Nat.add_right_comm, reaches_succ, ih, reaches_succ, and_assoc, show p + 1 + m = p + (m + 1) by omega]

/-- Writing some bits and then, from where they end, others. -/
theorem Ored.append {p : Nat} {as bs : List Bool} {buf1 buf2 : List Cell} (h : Ored cfg p as buf buf1)
    (h' : Ored cfg (p + as.length) bs buf1 buf2) : Ored cfg p (as ++ bs) buf buf2 := by
  obtain ⟨hextent, hwords⟩ := h
  obtain ⟨hextent', hwords'⟩ := h'
  refine ⟨hextent'.trans hextent, fun a w hw => ?_⟩
  obtain ⟨w1, hw1, hbits1⟩ := hwords a w hw
  obtain ⟨w2, hw2, hbits2⟩ := hwords' a w1 hw1
  refine ⟨w2, hw2, fun j => ?_⟩
  rw [hbits2, hbits1, or_assoc]
  refine or_congr_right ⟨?_, ?_⟩
  · rintro (⟨i, hi, hplace⟩ | ⟨i, hi, hplace⟩)
    · refine ⟨i, ?_, hplace⟩
      rw [List.getElem?_append_left (List.getElem?_eq_some_iff.mp hi).1, hi]
    · refine ⟨as.length + i, ?_, by rwa [← Nat.add_assoc]⟩
      rw [List.getElem?_append_right (Nat.le_add_right ..), Nat.add_sub_cancel_left, hi]
  · rintro ⟨i, hi, hplace⟩
    rcases Nat.lt_or_ge i as.length with hlt | hge
    · exact Or.inl ⟨i, by rwa [List.getElem?_append_left hlt] at hi, hplace⟩
    · refine Or.inr ⟨i - as.length, by rwa [List.getElem?_append_right hge] at hi, ?_⟩
      rwa [show p + as.length + (i - as.length) = p + i by omega]

/-- Bits written into zeros, in a stretch that does not wrap, are what the stream spells there (43 R193). -/
theorem Ored.spells {p : Nat} {bits : List Bool} (h : Ored cfg p bits buf buf')
    (hwrap : p + bits.length ≤ cfg.w * 2 ^ cfg.aw)
    (hzero : ∀ i < bits.length, streamBit cfg buf (p + i) = some false) : spells cfg buf' p bits := by
  intro i hi
  rw [h.stream hwrap hi (hzero i hi), Bool.false_or, List.getElem?_eq_getElem hi]

theorem reaches_of_zeros {p n : Nat} (hzero : ∀ i < n, streamBit cfg buf (p + i) = some false) :
    reaches cfg buf p n :=
  fun i hi => streamBit_isSome.mp ⟨false, hzero i hi⟩

theorem reaches_of_extent {p n : Nat} (h : extent buf' = extent buf) :
    reaches cfg buf' p n ↔ reaches cfg buf p n := by
  unfold reaches
  rw [h]

/-! ### Raw numbers -/

theorem testBit_rawNumber (p n j : Nat) :
    (rawNumber cfg buf p n).testBit j = (decide (j < n) && (streamBit cfg buf (p + j)).getD false) := by
  rw [rawNumber, testBit_bitsValue]
  by_cases h : j < n <;> simp [h]

theorem bitsValue_lowBits {v n : Nat} (h : v < 2 ^ n) : bitsValue (lowBits v n) = v := by
  rw [lowBits, bitsValue_range, Nat.mod_eq_of_lt h]

/-- The raw number that known stream bits denote. -/
theorem rawNumber_of_spells {p : Nat} {bits : List Bool} (h : spells cfg buf p bits) :
    rawNumber cfg buf p bits.length = bitsValue bits := by
  refine Nat.eq_of_testBit_eq fun j => ?_
  rw [testBit_rawNumber, testBit_bitsValue]
  by_cases hj : j < bits.length
  · simp [hj, h j hj]
  · simp [hj]

/-- A number written over a stretch that does not wrap reads as the number ORed with what the bits held (43 R193). -/
theorem Ored.rawNumber {p v n : Nat} (h : Ored cfg p (lowBits v n) buf buf') (hv : v < 2 ^ n)
    (hwrap : p + n ≤ cfg.w * 2 ^ cfg.aw) (hreach : reaches cfg buf p n) :
    rawNumber cfg buf' p n = v ||| rawNumber cfg buf p n := by
  refine Nat.eq_of_testBit_eq fun j => ?_
  rw [Nat.testBit_or, testBit_rawNumber, testBit_rawNumber]
  by_cases hj : j < n
  · obtain ⟨b, hb⟩ := streamBit_isSome.mpr (hreach j hj)
    rw [h.stream (by rwa [lowBits_length]) (by rwa [lowBits_length]) hb, hb]
    simp [hj, lowBits, Bool.or_comm]
  · have hbit : v.testBit j = false :=
      Nat.testBit_lt_two_pow (Nat.lt_of_lt_of_le hv (Nat.pow_le_pow_right (by decide) (Nat.not_lt.mp hj)))
    simp [hj, hbit]

/-! ### A command of a pass -/

/-- What `n` bit accesses through a cursor leave: the cursor `n` accesses on and ready for more, the other cursor, the
configuration and the Model as they were. -/
structure Advanced (c : Cur) (n : Nat) (s t : State) : Prop where
  ready : ReadyCursor c t
  cfg : t.cfg = s.cfg
  model : t.model = s.model
  cursor : t.cur c = cursorAfter s.cfg (s.cur c) n
  other : ∀ d ≠ c, t.cur d = s.cur d

theorem Advanced.refl {c : Cur} {s : State} (h : ReadyCursor c s) : Advanced c 0 s s :=
  ⟨h, rfl, rfl, cursorAfter_zero.symm, fun _ _ => rfl⟩

theorem Advanced.trans {c : Cur} {m n : Nat} {s t u : State} (h : Advanced c m s t) (h' : Advanced c n t u) :
    Advanced c (m + n) s u where
  ready := h'.ready
  cfg := h'.cfg.trans h.cfg
  model := h'.model.trans h.model
  cursor := by rw [h'.cursor, h.cfg, h.cursor, cursorAfter_cursorAfter]
  other d hd := (h'.other d hd).trans (h.other d hd)

/-- The position of the cursor after the accesses, where they do not wrap past the last address (43 R189). -/
theorem Advanced.pos {c : Cur} {n : Nat} {s t : State} (h : Advanced c n s t)
    (hwrap : (s.cur c).pos s.cfg + n ≤ s.cfg.w * 2 ^ s.cfg.aw) :
    (t.cur c).pos s.cfg = (s.cur c).pos s.cfg + n := by
  rw [h.cursor, pos_cursorAfter (h.cfg ▸ h.ready.w_pos) hwrap]

section Advanced

variable {c : Cur} {n : Nat} {s t : State}

theorem Advanced.reaches_iff (h : Advanced c n s t) {m : Nat} :
    reaches t.cfg buf ((t.cur c).pos t.cfg) m ↔ reaches s.cfg buf ((s.cur c).pos s.cfg + n) m := by
  rw [h.cfg, h.cursor]
  exact forall₂_congr fun i _ => by rw [bitAddr_congr (pos_cursorAfter_mod n i)]

theorem Advanced.spells_iff (h : Advanced c n s t) {bits : List Bool} :
    spells t.cfg buf ((t.cur c).pos t.cfg) bits ↔ spells s.cfg buf ((s.cur c).pos s.cfg + n) bits := by
  rw [h.cfg, h.cursor]
  exact spells_congr fun i => streamBit_congr (pos_cursorAfter_mod n i)

theorem Advanced.ored_iff (h : Advanced c n s t) {bits : List Bool} :
    Ored t.cfg ((t.cur c).pos t.cfg) bits buf buf' ↔ Ored s.cfg ((s.cur c).pos s.cfg + n) bits buf buf' := by
  rw [h.cfg, h.cursor]
  simp only [Ored, bitAddr_congr (pos_cursorAfter_mod n _), bitOffset_congr (pos_cursorAfter_mod n _)]

end Advanced

/-- The cursor of a bit-access command whose checks passed is as many accesses on as the command made (43 R189). -/
theorem effect_cursor {i : Instr} {s t : State} {c : Cur} {n : Nat} (hinv : Inv s) (h : Effect s t i)
    (hc : i.cursor? = some c) (hn : accessedBits t i = some n) : t.cur c = cursorAfter s.cfg (s.cur c) n := by
  have hw := hinv.launch.w_pos
  have hwrites (hopc : i.opc ∈ [0x03, 0x05, 0x11]) :
      ∃ bits, writtenBits s i = some bits ∧ t.cur c = cursorAfter s.cfg (s.cur c) bits.length := by
    obtain ⟨c', bits, hc', hrun, hbits⟩ := effect_writes h hopc
    obtain rfl : c' = c := Option.some.inj (hc'.symm.trans hc)
    exact ⟨bits, hbits hinv, (writeBits_cases hw (hinv.cursor c') hinv.memory hrun).2.1⟩
  cases i with
  | rdbit c' =>
    cases hc
    cases hn
    obtain ⟨-, b, k, hread, rfl⟩ := h
    obtain ⟨-, rfl⟩ := readBit_next hw (hinv.cursor c) hread
    cases c <;> rfl
  | rdraw c' m =>
    cases hc
    cases hn
    obtain ⟨-, -, v, k, hread, rfl⟩ := h
    obtain ⟨-, -, rfl⟩ := readRaw_next hw (hinv.cursor c) hread
    cases c <;> rfl
  | rdhuf c' =>
    cases hc
    obtain ⟨-, q, sym, k, hwalk, rfl⟩ := h
    obtain ⟨code, -, ⟨hcode, -⟩, -, -, rfl⟩ := walk_next hinv.launch (hinv.cursor c) hwalk
    obtain rfl : code.length = n := by simpa [accessedBits, hcode] using hn
    cases c <;> rfl
  | wrbit c' bit =>
    obtain ⟨bits, hbits, hcursor⟩ := hwrites (by simp [Instr.opc])
    cases hbits
    cases hn
    exact hcursor
  | wrraw c' value m =>
    obtain ⟨bits, hbits, hcursor⟩ := hwrites (by simp [Instr.opc])
    cases hbits
    cases hn
    rwa [lowBits_length] at hcursor
  | wrhuf c' symbol =>
    obtain ⟨bits, hbits, hcursor⟩ := hwrites (by simp [Instr.opc])
    obtain ⟨hcfg, hmodel, -⟩ := effect_frame h
    obtain rfl : bits.length = n := by
      simpa [accessedBits, hcfg, hmodel, show s.model.code s.cfg symbol = some bits from hbits] using hn
    exact hcursor
  | _ => cases hn

/-- A bit-access command through a ready cursor that raised no fault advanced the cursor. -/
theorem advanced_of_exec {i : Instr} {s t : State} {c : Cur} {n : Nat} (h : ReadyCursor c s)
    (hexec : exec i s = .next t) (hclear : t.flt = false) (hc : i.cursor? = some c)
    (hn : accessedBits t i = some n) : Advanced c n s t := by
  obtain ⟨hflt, -⟩ | ⟨-, x, -, rfl⟩ | ⟨-, heffect⟩ := exec_cases hexec
  · rw [h.ready.clear] at hflt
    cases hflt
  · cases hclear
  · obtain ⟨hcfg, hmodel, -, -, -, hother, -⟩ := effect_frame heffect
    have hcursor := effect_cursor h.ready.inv heffect hc hn
    exact
      { ready := ⟨⟨h.ready.inv.exec hexec, hclear⟩, by rw [hcursor, cursorAfter_v, h.valid]⟩
        cfg := hcfg
        model := hmodel
        cursor := hcursor
        other := fun d hd => hother d (by rw [hc]; exact fun heq => hd (Option.some.inj heq).symm) }

/-! ### A field of a stream -/

/-- The bits a field is written as (43 R186, R188). -/
def Field.bits (s : State) : Field → List Bool
  | .raw value n => lowBits value n
  | .symbol sym => (s.model.code s.cfg sym).getD []

@[simp] theorem Field.bits_length (s : State) (f : Field) : (f.bits s).length = f.length s := by
  cases f with
  | raw value n => exact lowBits_length value n
  | symbol sym => rfl

section Advanced

variable {c : Cur} {n : Nat} {s t : State}

theorem Advanced.field_bits (h : Advanced c n s t) : Field.bits t = Field.bits s := by
  funext f
  cases f with
  | raw value n => rfl
  | symbol sym => simp only [Field.bits, h.cfg, h.model]

theorem Advanced.field_length (h : Advanced c n s t) : Field.length t = Field.length s := by
  funext f
  rw [← Field.bits_length, h.field_bits, Field.bits_length]

theorem Advanced.field_fits (h : Advanced c n s t) (f : Field) : f.fits t = f.fits s := by
  cases f <;> simp only [Field.fits, h.cfg, h.model]

end Advanced

/-- Writing a field ORs its bits into the stream (43 R186, R188). -/
theorem write_field {c : Cur} {s : State} {f : Field} (h : ReadyCursor c s) (hfits : f.fits s = true)
    (hreach : reaches s.cfg s.buf ((s.cur c).pos s.cfg) (f.length s)) :
    ∃ t, exec (f.write c) s = .next t ∧ Advanced c (f.length s) s t ∧
      Ored s.cfg ((s.cur c).pos s.cfg) (f.bits s) s.buf t.buf := by
  cases f with
  | raw value n =>
    obtain ⟨hn, -⟩ := of_decide_eq_true hfits
    obtain ⟨buf', hored, hexec⟩ := wrrawOrsTheLowBits s c value n h hn hreach
    exact ⟨_, hexec, advanced_of_exec h hexec (by simpa using h.ready.clear) rfl rfl, by simpa [Field.bits] using hored⟩
  | symbol sym =>
    have hsym := of_decide_eq_true hfits
    obtain ⟨code, hcode, -⟩ := h.ready.inv.launch.code hsym
    simp only [Field.length, hcode, Option.getD_some] at hreach
    obtain ⟨buf', hored, hexec⟩ := wrhufEmitsTheCode s c sym code h hsym hcode hreach
    refine ⟨_, hexec, advanced_of_exec h hexec (by simpa using h.ready.clear) rfl ?_, ?_⟩
    · simp [accessedBits, Field.length, hcode]
    · simpa [Field.bits, hcode] using hored

/-- Reading a field whose bits the stream spells answers the field and writes nothing (43 R185, R187). -/
theorem read_field {c : Cur} {s : State} {f : Field} (h : ReadyCursor c s) (hfits : f.fits s = true)
    (hspells : spells s.cfg s.buf ((s.cur c).pos s.cfg) (f.bits s)) :
    ∃ t, exec (f.read c) s = .next t ∧ Advanced c (f.length s) s t ∧ t.buf = s.buf ∧
      t.resp = some ⟨false, f.value⟩ := by
  cases f with
  | raw value n =>
    obtain ⟨hn, hv⟩ := of_decide_eq_true hfits
    have hreach := reaches_of_spells hspells
    have hnumber := rawNumber_of_spells hspells
    rw [Field.bits_length, Field.length] at hreach hnumber
    rw [Field.bits, bitsValue_lowBits hv] at hnumber
    obtain ⟨-, hexec⟩ := rdrawReadsTheNumber s c n h hn hreach
    exact ⟨_, hexec, advanced_of_exec h hexec (by simpa using h.ready.clear) rfl rfl, by simp, by rw [hnumber]; rfl⟩
  | symbol sym =>
    have hsym := of_decide_eq_true hfits
    obtain ⟨q, code, hleaf, -⟩ := h.ready.inv.launch.leafOf hsym
    have hcode := hleaf.1
    simp only [Field.bits, hcode, Option.getD_some] at hspells
    have hexec := rdhufDecodesTheCode s c sym q code h hleaf hspells
    refine ⟨_, hexec, advanced_of_exec h hexec (by simpa using h.ready.clear) rfl ?_, by simp, rfl⟩
    simp [accessedBits, Field.length, hcode]

/-- A cursor that was valid before a pass through the other one is ready after it. -/
theorem Advanced.readyCursor {c d : Cur} {n : Nat} {s t : State} (h : Advanced c n s t) (hne : c ≠ d)
    (hd : (s.cur d).v = true) : ReadyCursor d t :=
  ⟨h.ready.ready, by rw [h.other d hne.symm, hd]⟩

/-! ### A list of fields -/

theorem fields_bits_length (s : State) (fields : List Field) :
    (fields.flatMap (Field.bits s)).length = (fields.map (Field.length s)).sum := by
  simp [List.length_flatMap]

theorem write_fields {c : Cur} {s : State} {fields : List Field} (h : ReadyCursor c s)
    (hfits : ∀ f ∈ fields, f.fits s = true)
    (hreach : reaches s.cfg s.buf ((s.cur c).pos s.cfg) (fields.map (Field.length s)).sum) :
    ∃ t, runCommands (fields.map (Field.write c)) s = .next t ∧
      Advanced c (fields.map (Field.length s)).sum s t ∧
      Ored s.cfg ((s.cur c).pos s.cfg) (fields.flatMap (Field.bits s)) s.buf t.buf := by
  induction fields generalizing s with
  | nil => exact ⟨s, rfl, Advanced.refl h, Ored.refl _⟩
  | cons f fields ih =>
    simp only [List.map_cons, List.sum_cons, List.flatMap_cons] at hreach ⊢
    obtain ⟨hfirst, hrest⟩ := reaches_add.mp hreach
    obtain ⟨u, hexec, hadv, hored⟩ := write_field h (hfits f (List.mem_cons_self ..)) hfirst
    obtain ⟨t, hrun, hadv', hored'⟩ := ih hadv.ready
      (fun g hg => (hadv.field_fits g).trans (hfits g (List.mem_cons_of_mem _ hg)))
      (by rwa [hadv.field_length, hadv.reaches_iff, reaches_of_extent hored.1])
    rw [hadv.field_length] at hadv'
    rw [hadv.ored_iff, hadv.field_bits, ← Field.bits_length] at hored'
    exact ⟨t, (runCommands_cons hexec).trans hrun, hadv.trans hadv', hored.append hored'⟩

theorem runResults_cons {i : Instr} {is : List Instr} {s t u : State} {v : Nat} {vs : List Nat}
    (hexec : exec i s = .next t) (hresp : t.resp = some ⟨false, v⟩) (hrun : runResults is t = .next (u, vs)) :
    runResults (i :: is) s = .next (u, v :: vs) := by
  simp [runResults, hexec, hresp, hrun]

theorem read_fields {c : Cur} {s : State} {fields : List Field} (h : ReadyCursor c s)
    (hfits : ∀ f ∈ fields, f.fits s = true)
    (hspells : spells s.cfg s.buf ((s.cur c).pos s.cfg) (fields.flatMap (Field.bits s))) :
    ∃ t, runResults (fields.map (Field.read c)) s = .next (t, fields.map Field.value) ∧
      Advanced c (fields.map (Field.length s)).sum s t := by
  induction fields generalizing s with
  | nil => exact ⟨s, rfl, Advanced.refl h⟩
  | cons f fields ih =>
    rw [List.flatMap_cons, spells_append, Field.bits_length] at hspells
    obtain ⟨hfirst, hrest⟩ := hspells
    obtain ⟨u, hexec, hadv, hbuf, hresp⟩ := read_field h (hfits f (List.mem_cons_self ..)) hfirst
    obtain ⟨t, hrun, hadv'⟩ := ih hadv.ready
      (fun g hg => (hadv.field_fits g).trans (hfits g (List.mem_cons_of_mem _ hg)))
      (by rwa [hadv.field_bits, hbuf, hadv.spells_iff])
    rw [hadv.field_length] at hadv'
    simp only [List.map_cons, List.sum_cons]
    exact ⟨t, runResults_cons hexec hresp hrun, hadv.trans hadv'⟩

/-! ### Round trips -/

/-- A pass through one cursor leaves the position of the other. -/
theorem Advanced.other_pos {c d : Cur} {n : Nat} {s t : State} (h : Advanced c n s t) (hne : c ≠ d)
    (hpos : (s.cur d).pos s.cfg = (s.cur c).pos s.cfg) : (t.cur d).pos t.cfg = (s.cur c).pos s.cfg := by
  rw [h.cfg, h.other d hne.symm, hpos]

/-- After a pass through one cursor and one of as many bits through the other, both stand at its end. -/
theorem positions_after_passes {c d : Cur} {n : Nat} {s t u : State} (hne : c ≠ d)
    (hpos : (s.cur d).pos s.cfg = (s.cur c).pos s.cfg) (hwrap : (s.cur c).pos s.cfg + n ≤ s.cfg.w * 2 ^ s.cfg.aw)
    (h : Advanced c n s t) (h' : Advanced d n t u) :
    (u.cur c).pos s.cfg = (s.cur c).pos s.cfg + n ∧ (u.cur d).pos s.cfg = (s.cur c).pos s.cfg + n := by
  have hsame := h.other_pos hne hpos
  have hend := h'.pos (by rwa [hsame, h.cfg])
  rw [hsame, h.cfg] at hend
  exact ⟨by rw [h'.other c hne, h.pos hwrap], hend⟩

/-- Settles O26: the written stretch reads as the number ORed with what it held. -/
theorem rawNumberRoundTrip : Obligations.RawNumberRoundTrip := by
  intro s c d v n hne hc hd hpos hn hv hwrap hreach
  obtain ⟨t, hwrite, hadv, hored⟩ := write_field (f := .raw v n) hc (decide_eq_true ⟨hn, hv⟩) hreach
  have hready := hadv.readyCursor hne hd
  have hsame := hadv.other_pos hne hpos
  have hnumber := hored.rawNumber hv hwrap hreach
  obtain ⟨-, hread⟩ := rdrawReadsTheNumber t d n hready (by rwa [hadv.cfg])
    (by rwa [hsame, hadv.cfg, reaches_of_extent hored.1])
  rw [hsame, hadv.cfg, hnumber] at hread
  have hadv' := advanced_of_exec hready hread (by simpa using hready.ready.clear) rfl rfl
  refine ⟨_, (runCommands_cons hwrite).trans (runCommands_cons hread), rfl, fun hzero => ?_,
    positions_after_passes hne hpos hwrap hadv hadv'⟩
  have hnone : rawNumber s.cfg s.buf ((s.cur c).pos s.cfg) n = 0 := Nat.eq_of_testBit_eq fun j => by
    rw [testBit_rawNumber, Nat.zero_testBit]
    by_cases hj : j < n
    · rw [hzero j hj, Option.getD_some, Bool.and_false]
    · rw [decide_eq_false hj, Bool.false_and]
  simp only [hnone, Nat.or_zero]

/-- Settles O27: the symbol's code, written into zeros, is what RDHUF decodes. -/
theorem huffmanSymbolRoundTrip : Obligations.HuffmanSymbolRoundTrip := by
  intro s c d sym code hne hc hd hpos hsym hcode hwrap hzero
  have hbits : (Field.symbol sym).bits s = code := by rw [Field.bits, hcode, Option.getD_some]
  have hlen : (Field.symbol sym).length s = code.length := by rw [← Field.bits_length, hbits]
  have hfits : (Field.symbol sym).fits s = true := decide_eq_true hsym
  obtain ⟨t, hwrite, hadv, hored⟩ := write_field hc hfits (by rw [hlen]; exact reaches_of_zeros hzero)
  rw [hbits] at hored
  obtain ⟨u, hread, hadv', -, hresp⟩ := read_field (hadv.readyCursor hne hd) ((hadv.field_fits _).trans hfits)
    (by rw [hadv.field_bits, hbits, hadv.other_pos hne hpos, hadv.cfg]; exact hored.spells hwrap hzero)
  rw [hadv.field_length] at hadv'
  rw [hlen] at hadv hadv'
  exact ⟨u, (runCommands_cons hwrite).trans (runCommands_cons hread), hresp,
    positions_after_passes hne hpos hwrap hadv hadv'⟩

/-- Settles O28: the fields' bits, written into zeros, are what the stream spells, each field's at its own place. -/
theorem mixedStreamRoundTrip : Obligations.MixedStreamRoundTrip := by
  intro s c d fields total hne hc hd hpos hfits htotal hwrap hzero
  subst htotal
  obtain ⟨t, hwrites, hadv, hored⟩ := write_fields hc hfits (reaches_of_zeros hzero)
  have hspells := hored.spells (by rwa [fields_bits_length]) (by rwa [fields_bits_length])
  obtain ⟨u, hreads, hadv'⟩ := read_fields (fields := fields) (hadv.readyCursor hne hd)
    (fun f hf => (hadv.field_fits f).trans (hfits f hf))
    (by rwa [hadv.field_bits, hadv.other_pos hne hpos, hadv.cfg])
  rw [hadv.field_length] at hadv'
  exact ⟨t, u, hwrites, hreads, hadv'.ready.ready.clear, positions_after_passes hne hpos hwrap hadv hadv'⟩

/-! ### The extent of a pass -/

/-- One command of a pass: it named the cursor and made a number of accesses, and the others made the rest. -/
theorem passBits_cons {c : Cur} {i : Instr} {is : List Instr} {s t : State} {total : Nat} (hexec : exec i s = .next t)
    (h : passBits c (i :: is) s = some total) :
    ∃ m n, i.cursor? = some c ∧ accessedBits t i = some m ∧ passBits c is t = some n ∧ m + n = total := by
  simp only [passBits, hexec] at h
  split at h
  next m n hm hn =>
    obtain ⟨hc, htotal⟩ := Option.ite_none_right_eq_some.mp h
    exact ⟨m, n, hc, hm, hn, Option.some.inj htotal⟩
  next => cases h

/-- A pass that completed without a fault advanced its cursor by the bits of the pass (43 R194). -/
theorem advanced_of_pass {c : Cur} {pass : List Instr} {s t : State} {total : Nat} (h : ReadyCursor c s)
    (hbits : passBits c pass s = some total) (hrun : runCommands pass s = .next t) (hclear : t.flt = false) :
    Advanced c total s t := by
  induction pass generalizing s total with
  | nil =>
    cases hbits
    cases hrun
    exact Advanced.refl h
  | cons i is ih =>
    obtain ⟨u, hexec, hrest⟩ := andThen_eq_next.mp hrun
    obtain ⟨m, n, hc, hm, hn, rfl⟩ := passBits_cons hexec hbits
    have hadv := advanced_of_exec h hexec (runCommands_clear hrest hclear) hc hm
    exact hadv.trans (ih hadv.ready hn hrest)

/-- A cursor that started at bit 0 of a word and did not wrap stands in that word or after it. -/
theorem start_le_wp {start total : Nat} (hw : 1 ≤ cfg.w) (hwrap : start * cfg.w + total ≤ cfg.w * 2 ^ cfg.aw) :
    start ≤ (cursorAfter cfg ⟨start, 0, true⟩ total).wp := by
  unfold cursorAfter
  split
  · exact Nat.le_refl start
  · have hend : (start * cfg.w + 0 + total - 1) / cfg.w < 2 ^ cfg.aw := Nat.div_lt_of_lt_mul (by omega)
    rw [Cursor.pos, bitAddr, Nat.mod_eq_of_lt hend, Nat.le_div_iff_mul_le hw]
    omega

/-- Settles O29: BTSZ and ELSZ report the distance of the cursor from its start, which is the bits of the pass. -/
theorem extentAccuracyOfAPass : Obligations.ExtentAccuracyOfAPass := by
  intro s t u c start total pass hready hstart hcset hbits hwrap hrun hclear
  have hu := Host.Outcome.next.inj (hcset.symm.trans (csetCreatesAFreshCursor s c start hready.clear hstart))
  have hcfg : u.cfg = s.cfg := by simp [hu]
  have hcur : u.cur c = ⟨start, 0, true⟩ := by rw [hu]; cases c <;> rfl
  have hfresh : ReadyCursor c u := ⟨⟨hready.inv.exec hcset, by simpa [hu] using hready.clear⟩, by rw [hcur]⟩
  have hadv := advanced_of_pass hfresh hbits hrun hclear
  have hstand := hadv.cursor
  have hpos := hadv.pos (by simpa [hcur, hcfg, Cursor.pos] using hwrap)
  rw [← hadv.cfg] at hpos
  rw [← hcfg] at hwrap
  have hle : start ≤ (t.cur c).wp := by
    rw [hstand, hcur]
    exact start_le_wp hfresh.w_pos hwrap
  obtain ⟨hbtsz, hdistance, -⟩ := btszReportsBits t c start hadv.ready hle
  obtain ⟨helsz, hround⟩ := elszReportsWordsRoundedUp t c start hadv.ready hle
  have htotal : (t.cur c).pos t.cfg - start * t.cfg.w = total := by
    rw [hpos, hcur, Cursor.pos, hadv.cfg, Nat.add_zero, Nat.add_sub_cancel_left]
  have hw : t.cfg.w = s.cfg.w := by rw [hadv.cfg, hcfg]
  rw [htotal] at hbtsz hdistance
  rw [hround, ← hdistance, hw] at helsz
  exact ⟨hbtsz, helsz⟩

end Sys2Proof.Machine
end
